-- ==== Sys2Proof/Word.lean ====
section
/-! DEFINITION. The word types of the block: wire bytes, 32-bit registers, the host words of R160. -/

namespace Sys2Proof

/-- One byte of a frame, a payload or a unit. -/
abbrev Byte := BitVec 8

/-- A host register, an event word, a transport packet header word (00_scope.md R10). -/
abbrev Word := BitVec 32

/-- A host transaction word, HW or HR: op, 12-bit address, 32-bit data (30_encoding.md R160). -/
abbrev PortWord := BitVec 45

/-- A register address: a 12-bit byte address (00_scope.md R10). -/
abbrev Addr := BitVec 12

/-- A 13-bit packet identifier (00_scope.md R9). -/
abbrev Pid := BitVec 13

end Sys2Proof
end

