-- ==== Sys2Proof/Config.lean ====
section
/-! DEFINITION. The parameters of one instance of the block, which every source leaves open (00_scope.md R8, D3). -/

namespace Sys2Proof

/-- The sizes of an instance, 00_scope.md R8. `ctxBufBytes` lists CTX_BUF_BYTES(0), CTX_BUF_BYTES(1), …, one entry
a context, so that N_CTX is its length. -/
structure Params where
  ctxBufBytes : List Nat
  evqDepth    : Nat
  uqDepth     : Nat
  patMax      : Nat
  pmtEsMax    : Nat
  deriving DecidableEq, Repr

/-- N_CTX, the number of PID contexts. -/
def Params.nCtx (p : Params) : Nat := p.ctxBufBytes.length

/-- CTX_BUF_BYTES(i), the byte capacity of context i's buffer (0 for a context the instance does not have). -/
def Params.bufBytes (p : Params) (i : Nat) : Nat := p.ctxBufBytes.getD i 0

/-- The legal ranges of R8's table. The further floor of 4098 for a context used with KIND = SECTION is a condition on
the host's use, which the block does not check (log 13). -/
abbrev Params.legal (p : Params) : Prop :=
  1 ≤ p.nCtx ∧ p.nCtx ≤ 16 ∧ (∀ b ∈ p.ctxBufBytes, 188 ≤ b ∧ b < 2 ^ 24) ∧
  4 ≤ p.evqDepth ∧ p.evqDepth ≤ 255 ∧ 1 ≤ p.uqDepth ∧ p.uqDepth ≤ 255 ∧
  1 ≤ p.patMax ∧ p.patMax ≤ 256 ∧ 1 ≤ p.pmtEsMax ∧ p.pmtEsMax ≤ 128

/-- The reference instance of R8's last column. DESIGN CHOICE (log 1): State.reset holds it; every statement over
states is about every legal instance. -/
def Params.reference : Params where
  ctxBufBytes := [4352, 4352, 4352, 4352, 4352, 4352, 4352, 4352]
  evqDepth := 16
  uqDepth := 2
  patMax := 64
  pmtEsMax := 32

end Sys2Proof
end

