-- ==== Sys2Proof/Syntax.lean ====
section
/-! DEFINITION. The operations of the block, one constructor per row of opcode_table.json (30_encoding.md R180), and the
words they are selected by (R160, R181). -/

namespace Sys2Proof

/-- CTX_CFG.KIND: 0 NONE, 1 SECTION, 2 PES; the value 3 is never held (10_state.md R40). -/
inductive Kind where
  | none | sec | pes
  deriving DecidableEq, Repr

/-- One operation. A constructor carries the word its row's `format` names (R181), and the context index where the
row's condition names a context; what else an operation reads is in State. -/
inductive Instr where
  /-- FRAME, R200: a physical frame offered on the input port. -/
  | frame (fr : List Byte)
  /-- PKT_HDR, R205: the header word H of a packet. -/
  | pktHdr (h : Word)
  /-- ROUTE, R206. -/
  | route (h : Word)
  /-- DROP, R207. -/
  | drop (h : Word)
  /-- PKT_AFC00, R210: H[5:4] = 00. -/
  | pktAfc00 (h : Word)
  /-- PKT_PAYLOAD, R211: H[5:4] = 01. -/
  | pktPayload (h : Word)
  /-- PKT_AF, R212: H[5:4] = 10. -/
  | pktAf (h : Word)
  /-- PKT_AF_PAYLOAD, R213: H[5:4] = 11. -/
  | pktAfPayload (h : Word)
  /-- CTX_NONE, R214: context i claims the frame, KIND = 0. -/
  | ctxNone (i : Nat) (h : Word)
  /-- AF_DECODE, R240: H[5] = 1. -/
  | afDecode (h : Word)
  /-- PCR_EXTRACT, R243: bit 4 of the AF flags byte. -/
  | pcrExtract (flags : Byte)
  /-- OPCR_EXTRACT, R244: bit 3 of the AF flags byte. -/
  | opcrExtract (flags : Byte)
  /-- SEC_CONT, R275: context i claims the frame, KIND = 1, PUSI = 0. -/
  | secCont (i : Nat) (h : Word)
  /-- SEC_START, R276: context i claims the frame, KIND = 1, PUSI = 1. -/
  | secStart (i : Nat) (h : Word)
  /-- PAT_DECODE, R315: the CTX_CFG word of the emitting context, KIND = 1, PARSE = 1. -/
  | patDecode (cfg : Word)
  /-- PMT_DECODE, R320: the CTX_CFG word of the emitting context, KIND = 1, PARSE = 2. -/
  | pmtDecode (cfg : Word)
  /-- PES_CONT, R360: context i claims the frame, KIND = 2, PUSI = 0. -/
  | pesCont (i : Nat) (h : Word)
  /-- PES_START, R361: context i claims the frame, KIND = 2, PUSI = 1. -/
  | pesStart (i : Nat) (h : Word)
  /-- PES_HDR_DECODE, R365: inside PES_START of context i, the payload begins 00 00 01. -/
  | pesHdrDecode (i : Nat)
  /-- PTS_DECODE, R369: byte 7 of the PES header, bit 7 = 1. -/
  | ptsDecode (i : Nat) (b7 : Byte)
  /-- DTS_DECODE, R370: byte 7 of the PES header, bits 7:6 = 11. -/
  | dtsDecode (i : Nat) (b7 : Byte)
  /-- REG_READ, R400. -/
  | regRead (a : Addr)
  /-- WR_CTRL, R410. -/
  | wrCtrl (d : Word)
  /-- WR_CTX_CFG, R411. -/
  | wrCtxCfg (i : Nat) (d : Word)
  /-- WR_IRQ_EN, R412. -/
  | wrIrqEn (d : Word)
  /-- WR_ERR_STATUS, R413. -/
  | wrErrStatus (d : Word)
  /-- WR_UNIT_RDPTR, R414. -/
  | wrUnitRdptr (d : Word)
  /-- WR_IGNORED, R415. -/
  | wrIgnored (a : Addr) (d : Word)
  /-- CMD_SOFT_RESET, R421. -/
  | cmdSoftReset
  /-- CMD_EV_POP, R422. -/
  | cmdEvPop
  /-- CMD_CLR_TABLES, R423. -/
  | cmdClrTables
  /-- CMD_UNIT_POP, R424. -/
  | cmdUnitPop
  /-- RESET, R600: the reset input. -/
  | reset
  deriving DecidableEq, Repr

/-- The words that select the operations inside a FRAME transaction: the format word of R181 together with the point of
R200's pseudocode at which it selects, and the condition no single word expresses (R181). DESIGN CHOICE (log 6): with
the point named, a word selects at most one operation, where the bare header word selects several rows at once (R180). -/
inductive Selector where
  /-- TSHDR at PKT_HDR: every accepted frame. -/
  | header (h : Word)
  /-- TSHDR at CLASS[h.AFC]. -/
  | afcClass (h : Word)
  /-- TSHDR at AF_DECODE. -/
  | adaptation (h : Word)
  /-- TSHDR at ROUTE: whether an enabled context holds the PID. -/
  | routing (found : Bool) (h : Word)
  /-- TSHDR at the claimed context's operation: context i and its KIND. -/
  | claimed (i : Nat) (kind : Kind) (h : Word)
  /-- AF at PCR_EXTRACT. -/
  | pcr (flags : Byte)
  /-- AF at OPCR_EXTRACT. -/
  | opcr (flags : Byte)
  /-- CTX_CFG at EMIT: the emitting context's configuration word. -/
  | table (cfg : Word)
  /-- PESHDR at PES_START of context i: be24(pl, 0). -/
  | pesPrefix (i : Nat) (v : BitVec 24)
  /-- PESHDR at PTS_DECODE: the byte pl[7]. -/
  | pesPts (i : Nat) (b7 : Byte)
  /-- PESHDR at DTS_DECODE: the byte pl[7]. -/
  | pesDts (i : Nat) (b7 : Byte)
  deriving DecidableEq, Repr

/-- What the decoder reads: a physical frame, a host word, the level of the reset input, or a selector. -/
inductive Encoded where
  | frame (fr : List Byte)
  | host (w : PortWord)
  | reset (level : BitVec 1)
  | op (sel : Selector)
  deriving DecidableEq, Repr

end Sys2Proof
end

