-- ==== Sys2Proof/WellFormed.lean ====
section
/-! DEFINITION. Which terms of Instr are operations of an instance with `nCtx` contexts: the fixed bits of each row of
opcode_table.json (`match`, `mask`) and the conditions on its operands. -/

namespace Sys2Proof

/-- The register-map word a byte address falls in: address bits 1:0 are ignored (20_memory.md R103). -/
def Addr.word (a : Addr) : Nat := a.toNat / 4

/-- The word offsets of the registers a write of which is not ignored (45_host_interface.md R415): CTRL, IRQ_EN,
ERR_STATUS, UNIT_RDPTR and CTX_CFG[i], i < N_CTX; and CMD where one of its command bits 3:0 is set (log 7). -/
def writeHasRow (nCtx : Nat) (a : Addr) (d : Word) : Bool :=
  a.word == 0x001 || a.word == 0x004 || a.word == 0x006 || a.word == 0x01C
    || (a.word == 0x002 && d.extractLsb' 0 4 != 0#4)
    || (decide (0x040 ≤ a.word) && decide (a.word < 0x040 + nCtx))

/-- The fixed bits and operand ranges of each row. -/
def Instr.wellFormed (nCtx : Nat) : Instr → Bool
  | .frame fr => fr.length == 188 || fr.length == 192 || fr.length == 204
  | .pktHdr _ => true
  | .route _ => true
  | .drop _ => true
  | .pktAfc00 h => h.extractLsb' 4 2 == 0#2
  | .pktPayload h => h.extractLsb' 4 2 == 1#2
  | .pktAf h => h.extractLsb' 4 2 == 2#2
  | .pktAfPayload h => h.extractLsb' 4 2 == 3#2
  | .ctxNone i _ => decide (i < nCtx)
  | .afDecode h => h.getLsbD 5
  | .pcrExtract flags => flags.getLsbD 4
  | .opcrExtract flags => flags.getLsbD 3
  | .secCont i h => decide (i < nCtx) && !h.getLsbD 22
  | .secStart i h => decide (i < nCtx) && h.getLsbD 22
  | .patDecode cfg => cfg.extractLsb' 1 4 == 5#4
  | .pmtDecode cfg => cfg.extractLsb' 1 4 == 9#4
  | .pesCont i h => decide (i < nCtx) && !h.getLsbD 22
  | .pesStart i h => decide (i < nCtx) && h.getLsbD 22
  | .pesHdrDecode i => decide (i < nCtx)
  | .ptsDecode i b7 => decide (i < nCtx) && b7.getLsbD 7
  | .dtsDecode i b7 => decide (i < nCtx) && b7.extractLsb' 6 2 == 3#2
  | .regRead _ => true
  | .wrCtrl _ => true
  | .wrCtxCfg i _ => decide (i < nCtx)
  | .wrIrqEn _ => true
  | .wrErrStatus _ => true
  | .wrUnitRdptr _ => true
  | .wrIgnored a d => !writeHasRow nCtx a d
  | .cmdSoftReset => true
  | .cmdEvPop => true
  | .cmdClrTables => true
  | .cmdUnitPop => true
  | .reset => true

end Sys2Proof
end

