-- ==== Sys2Proof/Decode.lean ====
section
/-! DEFINITION. The decoder, total on every word, the encoder, and the decoder on the words of opcode_table.json. -/

namespace Sys2Proof

/-- Why a word selects no operation. -/
inductive Reject where
  /-- A physical frame of another length than 188, 192 or 204 bytes (40_framer.md R202). -/
  | frameLength
  /-- AF_DECODE at a header word with H[5] = 0: there is no adaptation field (30_encoding.md R141). -/
  | noAdaptation
  /-- A context index at or beyond N_CTX (10_state.md R34). -/
  | noContext
  /-- PCR_EXTRACT at a flags byte with bit 4 = 0. -/
  | noPcrFlag
  /-- OPCR_EXTRACT at a flags byte with bit 3 = 0. -/
  | noOpcrFlag
  /-- A CTX_CFG word that selects neither table decoder (42_section.md R279). -/
  | noTable
  /-- A payload that does not begin 00 00 01 (44_pes.md R367). -/
  | noStartCode
  /-- PTS_DECODE at a byte 7 with bit 7 = 0. -/
  | noPtsFlag
  /-- DTS_DECODE at a byte 7 whose bits 7:6 are not 11. -/
  | noDtsFlag
  deriving DecidableEq, Repr

/-- A frame offered on the input port, format FRAME (30_encoding.md R130). -/
def decodeFrame (fr : List Byte) : Except Reject (List Instr) :=
  if fr.length = 188 ∨ fr.length = 192 ∨ fr.length = 204 then .ok [.frame fr] else .error .frameLength

/-- A write to CMD (45_host_interface.md R420): bit 0 alone when it is set, else the set bits among 1 to 3 in the order
CLR_TABLES, EV_POP, UNIT_POP; with no command bit set no CMD row matches and the write is WR_IGNORED (30_encoding.md
R181; log 7). -/
def decodeCmd (a : Addr) (d : Word) : List Instr :=
  if d.getLsbD 0 then [.cmdSoftReset]
  else if d.extractLsb' 0 4 = 0#4 then [.wrIgnored a d]
  else
    (if d.getLsbD 1 then [.cmdClrTables] else []) ++ (if d.getLsbD 2 then [.cmdEvPop] else []) ++
      (if d.getLsbD 3 then [.cmdUnitPop] else [])

/-- A register write HW (30_encoding.md R180, R181). -/
def decodeWrite (nCtx : Nat) (a : Addr) (d : Word) : List Instr :=
  if a.word = 0x001 then [.wrCtrl d]
  else if a.word = 0x002 then decodeCmd a d
  else if a.word = 0x004 then [.wrIrqEn d]
  else if a.word = 0x006 then [.wrErrStatus d]
  else if a.word = 0x01C then [.wrUnitRdptr d]
  else if 0x040 ≤ a.word ∧ a.word < 0x040 + nCtx then [.wrCtxCfg (a.word - 0x040) d]
  else [.wrIgnored a d]

/-- A host word: bit 44 tells a write HW from a read HR; the address is in bits 43:32, the data in bits 31:0 (R160). -/
def decodeHost (nCtx : Nat) (w : PortWord) : List Instr :=
  if w.getLsbD 44 then decodeWrite nCtx (w.extractLsb' 32 12) (w.extractLsb' 0 32) else [.regRead (w.extractLsb' 32 12)]

/-- The AFC class of a header word, H[5:4] (30_encoding.md R141). -/
def decodeClass (h : Word) : Instr :=
  if h.extractLsb' 4 2 = 0#2 then .pktAfc00 h
  else if h.extractLsb' 4 2 = 1#2 then .pktPayload h
  else if h.extractLsb' 4 2 = 2#2 then .pktAf h
  else .pktAfPayload h

/-- The operation of a claimed context, by its KIND and PUSI = H[22] (30_encoding.md R180). -/
def decodeClaimed (i : Nat) (kind : Kind) (h : Word) : Instr :=
  match kind with
  | .none => .ctxNone i h
  | .sec => if h.getLsbD 22 then .secStart i h else .secCont i h
  | .pes => if h.getLsbD 22 then .pesStart i h else .pesCont i h

/-- The operation inside a FRAME transaction that a selector selects (30_encoding.md R180, R181). -/
def decodeOp (nCtx : Nat) (sel : Selector) : Except Reject Instr :=
  match sel with
  | .header h => .ok (.pktHdr h)
  | .afcClass h => .ok (decodeClass h)
  | .adaptation h => if h.getLsbD 5 then .ok (.afDecode h) else .error .noAdaptation
  | .routing true h => .ok (.route h)
  | .routing false h => .ok (.drop h)
  | .claimed i kind h => if i < nCtx then .ok (decodeClaimed i kind h) else .error .noContext
  | .pcr flags => if flags.getLsbD 4 then .ok (.pcrExtract flags) else .error .noPcrFlag
  | .opcr flags => if flags.getLsbD 3 then .ok (.opcrExtract flags) else .error .noOpcrFlag
  | .table cfg =>
    if cfg.extractLsb' 1 4 = 5#4 then .ok (.patDecode cfg)
    else if cfg.extractLsb' 1 4 = 9#4 then .ok (.pmtDecode cfg)
    else .error .noTable
  | .pesPrefix i v =>
    if ¬ i < nCtx then .error .noContext else if v = 0x000001#24 then .ok (.pesHdrDecode i) else .error .noStartCode
  | .pesPts i b7 =>
    if ¬ i < nCtx then .error .noContext else if b7.getLsbD 7 then .ok (.ptsDecode i b7) else .error .noPtsFlag
  | .pesDts i b7 =>
    if ¬ i < nCtx then .error .noContext
    else if b7.extractLsb' 6 2 = 3#2 then .ok (.dtsDecode i b7) else .error .noDtsFlag

/-- The operations a word selects, in the order they are performed. A reset input at level 0 selects nothing. -/
def decode (nCtx : Nat) (e : Encoded) : Except Reject (List Instr) :=
  match e with
  | .frame fr => decodeFrame fr
  | .host w => .ok (decodeHost nCtx w)
  | .reset level => .ok (if level = 1#1 then [.reset] else [])
  | .op sel => (decodeOp nCtx sel).map (fun i => [i])

/-- A register write HW = 1·2^44 + addr·2^32 + data (30_encoding.md R160). -/
def hostWrite (a : Addr) (d : Word) : PortWord := 1#1 ++ a ++ d

/-- A register read HR = 0·2^44 + addr·2^32 (30_encoding.md R160). -/
def hostRead (a : Addr) : PortWord := 0#1 ++ a ++ 0#32

/-- The word of each operation, from the rows of opcode_table.json. -/
def encode (i : Instr) : Encoded :=
  match i with
  | .frame fr => .frame fr
  | .pktHdr h => .op (.header h)
  | .route h => .op (.routing true h)
  | .drop h => .op (.routing false h)
  | .pktAfc00 h => .op (.afcClass h)
  | .pktPayload h => .op (.afcClass h)
  | .pktAf h => .op (.afcClass h)
  | .pktAfPayload h => .op (.afcClass h)
  | .ctxNone i h => .op (.claimed i .none h)
  | .afDecode h => .op (.adaptation h)
  | .pcrExtract flags => .op (.pcr flags)
  | .opcrExtract flags => .op (.opcr flags)
  | .secCont i h => .op (.claimed i .sec h)
  | .secStart i h => .op (.claimed i .sec h)
  | .patDecode cfg => .op (.table cfg)
  | .pmtDecode cfg => .op (.table cfg)
  | .pesCont i h => .op (.claimed i .pes h)
  | .pesStart i h => .op (.claimed i .pes h)
  | .pesHdrDecode i => .op (.pesPrefix i 0x000001#24)
  | .ptsDecode i b7 => .op (.pesPts i b7)
  | .dtsDecode i b7 => .op (.pesDts i b7)
  | .regRead a => .host (hostRead a)
  | .wrCtrl d => .host (hostWrite 0x004#12 d)
  | .wrCtxCfg i d => .host (hostWrite (BitVec.ofNat 12 (0x100 + 4 * i)) d)
  | .wrIrqEn d => .host (hostWrite 0x010#12 d)
  | .wrErrStatus d => .host (hostWrite 0x018#12 d)
  | .wrUnitRdptr d => .host (hostWrite 0x070#12 d)
  | .wrIgnored a d => .host (hostWrite a d)
  | .cmdSoftReset => .host (hostWrite 0x008#12 0x1#32)
  | .cmdEvPop => .host (hostWrite 0x008#12 0x4#32)
  | .cmdClrTables => .host (hostWrite 0x008#12 0x2#32)
  | .cmdUnitPop => .host (hostWrite 0x008#12 0x8#32)
  | .reset => .reset 1#1

/-- The bytes of a number, the one at bits 7:0 first. -/
def bytesOfNat (n w : Nat) : List Byte := (List.range n).map (fun j => BitVec.ofNat 8 (w / 2 ^ (8 * j)))

/-- The word, in this model's form, of a word of opcode_table.json given by its length in bits alone. The table's words
of one length belong to several formats and a word may select several rows (R180, R181), so a format and a point are
chosen here: DESIGN CHOICE (log 8). One byte or less: RESET for 1, FRAME for 0, else the AF and then the PES flags
byte. Up to 32 bits: a start code, a CTX_CFG table word that has no bit set outside its fixed field, else the header word
(SEC_START where PUSI is set and AFC is 00, else its AFC class). Up to 48 bits: a host word. More: the bytes of a frame. -/
def tableEncoded (nbits w : Nat) : Encoded :=
  if nbits ≤ 8 then
    if w = 0 then .frame (List.replicate 188 0#8)
    else if w = 1 then .reset 1#1
    else
      let b := BitVec.ofNat 8 w
      if b.getLsbD 4 then .op (.pcr b)
      else if b.getLsbD 3 then .op (.opcr b)
      else if b.extractLsb' 6 2 = 3#2 then .op (.pesDts 0 b)
      else .op (.pesPts 0 b)
  else if nbits = 24 ∧ w = 1 then .op (.pesPrefix 0 0x000001#24)
  else if nbits ≤ 32 then
    let h := BitVec.ofNat 32 w
    if w = 0x0A ∨ w = 0x12 then .op (.table h)
    else if h.getLsbD 22 ∧ h.extractLsb' 4 2 = 0#2 then .op (.claimed 0 .sec h)
    else .op (.afcClass h)
  else if nbits ≤ 48 then .host (BitVec.ofNat 45 w)
  else .frame (bytesOfNat (nbits / 8) w)

/-- The instruction the decoder reads from a word of opcode_table.json, for the reference number of contexts (the
WR_CTX_CFG mask of the table is the reference instance's, R181); the first one where a CMD word selects several. -/
def decodeTableWord (nbits w : Nat) : Option Instr :=
  match decode Params.reference.nCtx (tableEncoded nbits w) with
  | .ok (i :: _) => some i
  | _ => none

end Sys2Proof
end

