-- ==== Sys2Proof/Machine/State.lean ====
section
/-! DEFINITION. The state of the block as plain data: every register, queue, context and table of 10_state.md, the
transient variables of one FRAME transaction, and the agents' side of the two ports; and its value after reset. -/

namespace Sys2Proof.Machine

/-- CTRL.FRAME_SIZE: 0, 1, 2 for 188, 192, 204 bytes; the value 3 is never held (10_state.md R38). -/
inductive FrameSize where
  | b188 | b192 | b204
  deriving DecidableEq, Repr

/-- CTX_CFG.PARSE: 0 none, 1 PAT, 2 PMT; the value 3 is never held (10_state.md R40). -/
inductive Parse where
  | none | pat | pmt
  deriving DecidableEq, Repr

/-- CTRL (10_state.md R38). -/
structure Ctrl where
  en        : Bool
  frameSize : FrameSize
  deriving DecidableEq, Repr

/-- CTX_CFG[i] (10_state.md R40). -/
structure CtxCfg where
  en    : Bool
  kind  : Kind
  parse : Parse
  afev  : Bool
  pid   : Pid
  deriving DecidableEq, Repr

/-- The reassembly state ctx[i] (10_state.md R34). -/
structure CtxState where
  pending  : Bool
  buf      : List Byte
  ovf      : Bool
  ptrErr   : Bool
  hdrErr   : Bool
  startPkt : BitVec 32
  pesHdr   : Bool
  sid      : BitVec 8
  ppl      : BitVec 16
  hdl      : BitVec 8
  pdf      : BitVec 2
  ptsV     : Bool
  pts      : BitVec 33
  dtsV     : Bool
  dts      : BitVec 33
  deriving DecidableEq, Repr

/-- One PID context: its configuration register and its reassembly state. -/
structure Context where
  cfg : CtxCfg
  st  : CtxState
  deriving DecidableEq, Repr

/-- An event record of four words (10_state.md R45, 30_encoding.md R170). -/
structure EvRec where
  w0 : Word
  w1 : Word
  w2 : Word
  w3 : Word
  deriving DecidableEq, Repr

/-- A unit record: descriptor and bytes (10_state.md R46). LEN is the length of `data`; `isPes` is KIND. -/
structure UnitRec where
  ctx      : BitVec 4
  isPes    : Bool
  ovf      : Bool
  ptrErr   : Bool
  hdrErr   : Bool
  pesHdr   : Bool
  ptsV     : Bool
  dtsV     : Bool
  seq      : BitVec 16
  startPkt : BitVec 32
  endPkt   : BitVec 32
  sid      : BitVec 8
  ppl      : BitVec 16
  hdl      : BitVec 8
  pdf      : BitVec 2
  pts      : BitVec 33
  dts      : BitVec 33
  data     : List Byte
  deriving DecidableEq, Repr

/-- One PAT record (program_number, PID). -/
structure PatEntry where
  programNumber : BitVec 16
  pid           : Pid
  deriving DecidableEq, Repr

/-- The PAT table behind PAT_H0, PAT_H1, PAT_COUNT and PAT_ENTRY (10_state.md R50); `entries` are the stored ones. -/
structure PatTable where
  valid         : Bool
  tableId       : BitVec 8
  version       : BitVec 5
  tsId          : BitVec 16
  sectionLength : BitVec 12
  n             : BitVec 16
  trunc         : Bool
  entries       : List PatEntry
  deriving DecidableEq, Repr

/-- One accumulated elementary-stream entry of the PMT table. -/
structure EsEntry where
  streamType   : BitVec 8
  pid          : Pid
  esInfoLength : BitVec 12
  deriving DecidableEq, Repr

/-- The PMT table behind PMT_H0, PMT_H1, PMT_H2, PMT_ES_COUNT and PMT_ES_A/B (10_state.md R51); M is the length of
`es`. -/
structure PmtTable where
  valid             : Bool
  programNumber     : BitVec 16
  pcrPid            : Pid
  programInfoLength : BitVec 12
  tableId           : BitVec 8
  sectionLength     : BitVec 12
  trunc             : Bool
  es                : List EsEntry
  deriving DecidableEq, Repr

/-- The error causes, in the order of their codes 0 to 6 (60_exceptions.md R501). -/
inductive Cause where
  | sync | afLen | pointer | truncSection | truncPes | bufOvf | tableOvf
  deriving DecidableEq, Repr

/-- A decoded adaptation field (41_adaptation.md R240). -/
structure AfInfo where
  len      : Byte
  fp       : Bool
  flags    : Byte
  rai      : Bool
  pcrF     : Bool
  opcrF    : Bool
  pcrV     : Bool
  pcrBase  : BitVec 33
  pcrExt   : BitVec 9
  opcrV    : Bool
  opcrBase : BitVec 33
  opcrExt  : BitVec 9
  deriving DecidableEq, Repr

/-- The transient variables of one FRAME transaction (40_framer.md R200, 10_state.md R53): `k` the packet index, `errs`,
`unit`, the three events, `ptr`, the packet `p`, the header word `h`, `af` and the second result `ok` of AF_DECODE, the
payload `pl`, `ra`, the claim `c`, and `ps`, the result of PES_HDR_DECODE. -/
structure Flight where
  k      : BitVec 32
  errs   : BitVec 7
  unit   : Option UnitRec
  evAf   : Option EvRec
  evOpcr : Option EvRec
  evTbl  : Option EvRec
  ptr    : Option Byte
  p      : List Byte
  h      : Word
  af     : Option AfInfo
  ok     : Bool
  pl     : List Byte
  ra     : Bool
  claim  : Option Nat
  ps     : Option Nat
  deriving DecidableEq, Repr

/-- Whose turn it is and what it brings: INPUT offers the frame at the head of `offers`; HOST performs a register
transaction or drives the reset input; `op` performs one operation of a FRAME transaction by itself (log 2, log 6). -/
inductive Turn where
  | input
  | host (w : PortWord)
  | reset (level : BitVec 1)
  | op (sel : Selector)
  deriving DecidableEq, Repr

/-- The whole state. `offers`, `turns` and `rdata` are the agents' side of the ports (the model's own fields, log 2 and
log 4); all else is the block's. -/
structure State where
  params    : Params
  ctrl      : Ctrl
  irqEn     : BitVec 3
  errStatus : BitVec 7
  pktIndex  : BitVec 32
  dropCount : BitVec 32
  seq       : BitVec 16
  lastHdr   : Word
  lastAf    : Word
  evq       : List EvRec
  uq        : List UnitRec
  unitRdptr : BitVec 24
  ctx       : List Context
  pat       : PatTable
  pmt       : PmtTable
  flight    : Flight
  offers    : List (List Byte)
  turns     : List Turn
  rdata     : Word
  deriving DecidableEq, Repr

/-- The block never traps (30_encoding.md R185, 60_exceptions.md R504): there is no fault. Safe. -/
inductive Fault where
  deriving DecidableEq, Repr

/-- Why a step has no meaning. -/
inductive Refusal where
  /-- An operation without a meaning yet: raised by no arm of exec. Safe. -/
  | notModelled (mnemonic : String)
  /-- Raised by FRAME: a physical frame of another length than the configured F is not a transaction of the block and
  the model refuses it (40_framer.md R202, 93_implementation_defined.md U3). Safe. -/
  | frameLength
  /-- Raised by step: the word that stands for the next operation selects none. Safe. -/
  | unselected (why : Reject)
  deriving DecidableEq, Repr

/-- CTRL after reset: EN = 0, FRAME_SIZE = 0 (70_reset_and_hazards.md R601). -/
def Ctrl.reset : Ctrl := ⟨false, .b188⟩

/-- CTX_CFG[i] after reset, all fields 0 (R601). -/
def CtxCfg.reset : CtxCfg := ⟨false, .none, .none, false, 0⟩

/-- ctx[i] after reset (10_state.md R34, R601). -/
def CtxState.reset : CtxState where
  pending := false
  buf := []
  ovf := false
  ptrErr := false
  hdrErr := false
  startPkt := 0
  pesHdr := false
  sid := 0
  ppl := 0
  hdl := 0
  pdf := 0
  ptsV := false
  pts := 0
  dtsV := false
  dts := 0

/-- A context after reset. -/
def Context.reset : Context := ⟨.reset, .reset⟩

/-- The PAT registers all 0 (10_state.md R50). -/
def PatTable.empty : PatTable := ⟨false, 0, 0, 0, 0, 0, false, []⟩

/-- The PMT registers all 0 (10_state.md R51). -/
def PmtTable.empty : PmtTable := ⟨false, 0, 0, 0, 0, 0, false, []⟩

/-- No FRAME transaction in progress: every transient variable at zero, none or empty (DESIGN CHOICE, log 5). -/
def Flight.idle : Flight where
  k := 0
  errs := 0
  unit := none
  evAf := none
  evOpcr := none
  evTbl := none
  ptr := none
  p := []
  h := 0
  af := none
  ok := false
  pl := []
  ra := false
  claim := none
  ps := none

/-- The reference instance right after the RESET transaction (70_reset_and_hazards.md R600 to R602), no agent having
anything to offer (log 2). -/
def State.reset : State where
  params := .reference
  ctrl := .reset
  irqEn := 0
  errStatus := 0
  pktIndex := 0
  dropCount := 0
  seq := 0
  lastHdr := 0
  lastAf := 0
  evq := []
  uq := []
  unitRdptr := 0
  ctx := List.replicate Params.reference.nCtx .reset
  pat := .empty
  pmt := .empty
  flight := .idle
  offers := []
  turns := []
  rdata := 0

end Sys2Proof.Machine
end

