-- ==== Sys2Proof/Machine/Operands.lean ====
section
/-! DEFINITION. The operands: the wire fields of 30_encoding.md section 1, read from byte strings, and the register map
of 10_state.md R36, read from an address. -/

namespace Sys2Proof.Machine

/-! ## Byte strings (00_scope.md section 6) -/

/-- `b[i]`. Every rule checks bounds first; past the end it is 0 and no rule uses it. -/
def byteAt (b : List Byte) (i : Nat) : Byte := b.getD i 0#8

/-- `b[i:j)`, empty when j ≤ i. -/
def slice (b : List Byte) (i j : Nat) : List Byte := (b.take j).drop i

/-- `be16(b, i)`: two bytes, most significant first (20_memory.md R100). -/
def be16 (b : List Byte) (i : Nat) : BitVec 16 := byteAt b i ++ byteAt b (i + 1)

/-- `be24(b, i)`. -/
def be24 (b : List Byte) (i : Nat) : BitVec 24 := byteAt b i ++ byteAt b (i + 1) ++ byteAt b (i + 2)

/-- `be32(b, i)`. -/
def be32 (b : List Byte) (i : Nat) : Word := byteAt b i ++ byteAt b (i + 1) ++ byteAt b (i + 2) ++ byteAt b (i + 3)

/-! ## The physical frame (R130) -/

/-- F, the configured frame size in bytes (10_state.md R38). -/
def FrameSize.bytes : FrameSize → Nat
  | .b188 => 188
  | .b192 => 192
  | .b204 => 204

/-- The transport packet: the trailing 188 bytes `fr[F-188 : F)` of a frame (R130, 40_framer.md R203). -/
def packetOf (size : FrameSize) (fr : List Byte) : List Byte := slice fr (size.bytes - 188) size.bytes

/-! ## The header word H (R140) -/

/-- `sync_byte`, H[31:24]. -/
def hdrSync (h : Word) : Byte := h.extractLsb' 24 8

/-- `payload_unit_start_indicator`, H[22]. -/
def hdrPusi (h : Word) : Bool := h.getLsbD 22

/-- `PID`, H[20:8]. -/
def hdrPid (h : Word) : Pid := h.extractLsb' 8 13

/-- `adaptation_field_control`, H[5:4]. -/
def hdrAfc (h : Word) : BitVec 2 := h.extractLsb' 4 2

/-- AFC[1], adaptation field present (R141). -/
def hdrHasAf (h : Word) : Bool := h.getLsbD 5

/-! ## Adaptation field (R142, R144) -/

/-- The adaptation_field_length byte, p[4]. -/
def afLen (p : List Byte) : Byte := byteAt p 4

/-- The six bytes `b[o : o+6)` of a CLOCKREF as the 48-bit X (R144). -/
def be48 (b : List Byte) (o : Nat) : BitVec 48 := be24 b o ++ be24 b (o + 3)

/-- The base of a CLOCKREF, X[47:15]. -/
def clockBase (b : List Byte) (o : Nat) : BitVec 33 := (be48 b o).extractLsb' 15 33

/-- The extension of a CLOCKREF, X[8:0]. -/
def clockExt (b : List Byte) (o : Nat) : BitVec 9 := (be48 b o).extractLsb' 0 9

/-! ## PSI sections (R147 to R149) -/

/-- A 12-bit length, the low 12 bits of a 16-bit container. -/
def len12 (b : List Byte) (i : Nat) : BitVec 12 := (be16 b i).extractLsb' 0 12

/-- A 13-bit PID, the low 13 bits of a 16-bit container. -/
def pid13 (b : List Byte) (i : Nat) : Pid := (be16 b i).extractLsb' 0 13

/-! ## PES header (R150 to R152) -/

/-- The header-less stream_id class (R151). -/
def headerless (sid : Byte) : Bool :=
  [0xBC#8, 0xBE#8, 0xBF#8, 0xF0#8, 0xF1#8, 0xF2#8, 0xF8#8, 0xFF#8].contains sid

/-- A TIMESTAMP at `b[o : o+5)` (R152): three value segments, prefix and marker bits not checked. -/
def timestampAt (b : List Byte) (o : Nat) : BitVec 33 :=
  (byteAt b o).extractLsb' 1 3 ++ (be16 b (o + 1)).extractLsb' 1 15 ++ (be16 b (o + 3)).extractLsb' 1 15

/-! ## The register map (10_state.md R36) -/

/-- The registers of the map, the indexed ones with their index. -/
inductive Reg where
  | id | ctrl | cmd | status | irqEn | irqStatus | errStatus | pktIndex | dropCount | lastHdr | lastAf | params | params2
  | ev (j : Nat)
  | unitD (j : Nat)
  | unitRdptr | unitData
  | ctxCfg (i : Nat)
  | ctxStat (i : Nat)
  | patH0 | patH1 | patCount | pmtH0 | pmtH1 | pmtH2 | pmtEsCount
  | patEntry (k : Nat)
  | pmtEsA (k : Nat)
  | pmtEsB (k : Nat)
  deriving DecidableEq, Repr

/-- The single registers at the low end of the map, by word offset. -/
def lowReg (n : Nat) : Option Reg :=
  [Reg.id, .ctrl, .cmd, .status, .irqEn, .irqStatus, .errStatus, .pktIndex, .dropCount, .lastHdr, .lastAf, .params,
    .params2][n]?

/-- The PAT and PMT header registers, by word offset from 0x200. -/
def tableReg (n : Nat) : Option Reg :=
  ([some Reg.patH0, some .patH1, some .patCount, none, some .pmtH0, some .pmtH1, some .pmtH2,
    some .pmtEsCount][n]?).join

/-- The register an address selects, none where the offset is reserved (45_host_interface.md R401). Address bits 1:0
are ignored (20_memory.md R103). -/
def regOf (p : Params) (a : Addr) : Option Reg :=
  let n := a.word
  if n < 0x010 then lowReg n
  else if n < 0x014 then some (.ev (n - 0x010))
  else if n < 0x01C then some (.unitD (n - 0x014))
  else if n = 0x01C then some .unitRdptr
  else if n = 0x01D then some .unitData
  else if 0x040 ≤ n ∧ n < 0x040 + p.nCtx then some (.ctxCfg (n - 0x040))
  else if 0x050 ≤ n ∧ n < 0x050 + p.nCtx then some (.ctxStat (n - 0x050))
  else if 0x080 ≤ n ∧ n < 0x088 then tableReg (n - 0x080)
  else if 0x100 ≤ n ∧ n < 0x100 + p.patMax then some (.patEntry (n - 0x100))
  else if 0x200 ≤ n ∧ n < 0x200 + 2 * p.pmtEsMax then
    if n % 2 = 0 then some (.pmtEsA ((n - 0x200) / 2)) else some (.pmtEsB ((n - 0x200) / 2))
  else none

end Sys2Proof.Machine
end

