-- ==== Sys2Proof/Machine/Flags.lean ====
section
/-! DEFINITION. Conditions and status bits computed from the state: the cause bits, the input hold, the interrupt output,
and the register words of the status and configuration registers. -/

namespace Sys2Proof.Machine

/-! ## Error causes (60_exceptions.md R501) -/

/-- The code of a cause: its bit number in `errs`, ERR_STATUS and the ERR event's A field. -/
def Cause.code : Cause → Nat
  | .sync => 0
  | .afLen => 1
  | .pointer => 2
  | .truncSection => 3
  | .truncPes => 4
  | .bufOvf => 5
  | .tableOvf => 6

/-- The one-bit mask of a cause. -/
def Cause.bit (c : Cause) : BitVec 7 := 1#7 <<< c.code

/-! ## Hold and interrupt -/

/-- The input port is held (40_framer.md R201): no EN, fewer than four free event slots, or a full unit queue. -/
def held (s : State) : Bool :=
  !s.ctrl.en || decide (s.params.evqDepth - s.evq.length < 4) || s.uq.length == s.params.uqDepth

/-- The level of the interrupt output (60_exceptions.md R520). -/
def irq (s : State) : Bool :=
  (s.irqEn.getLsbD 0 && decide (0 < s.evq.length)) || (s.irqEn.getLsbD 1 && decide (0 < s.uq.length))
    || (s.irqEn.getLsbD 2 && s.errStatus != 0#7)

/-! ## Register words -/

/-- One bit of a register word. -/
def bit (b : Bool) : BitVec 1 := BitVec.ofBool b

/-- ID (10_state.md R37), ASCII "TSF1". -/
def idWord : Word := 0x54534631#32

/-- PARAMS (R37): [4:0] N_CTX, [15:8] EVQ_DEPTH, [23:16] UQ_DEPTH. -/
def paramsWord (p : Params) : Word :=
  0#8 ++ BitVec.ofNat 8 p.uqDepth ++ BitVec.ofNat 8 p.evqDepth ++ 0#3 ++ BitVec.ofNat 5 p.nCtx

/-- PARAMS2 (R37): [8:0] PAT_MAX, [23:16] PMT_ES_MAX. -/
def params2Word (p : Params) : Word :=
  0#8 ++ BitVec.ofNat 8 p.pmtEsMax ++ 0#7 ++ BitVec.ofNat 9 p.patMax

/-- The code of FRAME_SIZE. -/
def FrameSize.code : FrameSize → BitVec 2
  | .b188 => 0
  | .b192 => 1
  | .b204 => 2

/-- The FRAME_SIZE a written field selects; the value 3 keeps the old one (R38). -/
def FrameSize.ofCode (old : FrameSize) (v : BitVec 2) : FrameSize :=
  if v = 0#2 then .b188 else if v = 1#2 then .b192 else if v = 2#2 then .b204 else old

/-- CTRL as read (R38). -/
def ctrlWord (c : Ctrl) : Word := 0#29 ++ c.frameSize.code ++ bit c.en

/-- The code of KIND. -/
def kindCode : Kind → BitVec 2
  | .none => 0
  | .sec => 1
  | .pes => 2

/-- The KIND a written field stores: the value 3 stores 0 (R40). -/
def kindOfCode (v : BitVec 2) : Kind := if v = 1#2 then .sec else if v = 2#2 then .pes else .none

/-- The code of PARSE. -/
def Parse.code : Parse → BitVec 2
  | .none => 0
  | .pat => 1
  | .pmt => 2

/-- The PARSE a written field stores: the value 3 stores 0 (R40). -/
def Parse.ofCode (v : BitVec 2) : Parse := if v = 1#2 then .pat else if v = 2#2 then .pmt else .none

/-- CTX_CFG[i] as read (R40): EN 0, KIND 2:1, PARSE 4:3, AFEV 5, PID 28:16. -/
def ctxCfgWord (c : CtxCfg) : Word :=
  0#3 ++ c.pid ++ 0#10 ++ bit c.afev ++ c.parse.code ++ kindCode c.kind ++ bit c.en

/-- The CTX_CFG[i] a written word stores (45_host_interface.md R411). -/
def ctxCfgOf (d : Word) : CtxCfg where
  en := d.getLsbD 0
  kind := kindOfCode (d.extractLsb' 1 2)
  parse := Parse.ofCode (d.extractLsb' 3 2)
  afev := d.getLsbD 5
  pid := d.extractLsb' 16 13

/-- STATUS (R41). -/
def statusWord (s : State) : Word :=
  0#8 ++ BitVec.ofNat 8 s.uq.length ++ BitVec.ofNat 8 s.evq.length ++ 0#5 ++ bit (held s)
    ++ bit (decide (0 < s.uq.length)) ++ bit (decide (0 < s.evq.length))

/-- IRQ_STATUS (R42): the three conditions unmasked, and the level of the output in bit 3. -/
def irqStatusWord (s : State) : Word :=
  0#28 ++ bit (irq s) ++ bit (s.errStatus != 0#7) ++ bit (decide (0 < s.uq.length)) ++ bit (decide (0 < s.evq.length))

/-- CTX_STAT[i] (R48). -/
def ctxStatWord (c : CtxState) : Word :=
  BitVec.ofNat 24 c.buf.length ++ 0#4 ++ bit c.hdrErr ++ bit c.ptrErr ++ bit c.ovf ++ bit c.pending

/-- LAST_AF of a packet (40_framer.md R208): length byte, flags byte, presence bits; the raw length byte also beyond
183. -/
def lastAfWord (h : Word) (p : List Byte) : Word :=
  if hdrHasAf h then
    let fp := decide (0 < (afLen p).toNat)
    0#14 ++ bit fp ++ 1#1 ++ (if fp then byteAt p 5 else 0#8) ++ afLen p
  else 0

/-- Word j of a unit descriptor (30_encoding.md R175). D4 to D7 are 0 for a section unit and for a PES unit with
PESHDR = 0; a timestamp is 0 when it is not valid. -/
def udescWord (u : UnitRec) (j : Nat) : Word :=
  let pes := u.isPes && u.pesHdr
  let pts := if pes && u.ptsV then u.pts else 0
  let dts := if pes && u.dtsV then u.dts else 0
  match j with
  | 0 =>
    u.seq ++ 0#5 ++ bit u.dtsV ++ bit u.ptsV ++ bit u.pesHdr ++ bit u.hdrErr ++ bit u.ptrErr ++ bit u.ovf ++ bit u.isPes
      ++ u.ctx
  | 1 => 0#8 ++ BitVec.ofNat 24 u.data.length
  | 2 => u.startPkt
  | 3 => u.endPkt
  | 4 => if pes then u.hdl ++ u.sid ++ u.ppl else 0
  | 5 => pts.extractLsb' 0 32
  | 6 => dts.extractLsb' 0 32
  | 7 => if pes then 0#28 ++ u.pdf ++ dts.extractLsb' 32 1 ++ pts.extractLsb' 32 1 else 0
  | _ => 0

/-- Word j of an event record. -/
def EvRec.word (e : EvRec) (j : Nat) : Word :=
  match j with
  | 0 => e.w0
  | 1 => e.w1
  | 2 => e.w2
  | 3 => e.w3
  | _ => 0

/-- UNIT_DATA (10_state.md R47): four bytes of the head unit from the read pointer, the first in bits 31:24; bytes past
its end, and all of it when the queue is empty, read 0. -/
def unitDataWord (s : State) : Word :=
  match s.uq with
  | [] => 0
  | u :: _ => be32 u.data s.unitRdptr.toNat

/-- PAT_H0 (R50). -/
def patH0Word (t : PatTable) : Word := bit t.valid ++ 0#18 ++ t.version ++ t.tableId

/-- PAT_H1 (R50). -/
def patH1Word (t : PatTable) : Word := 0#4 ++ t.sectionLength ++ t.tsId

/-- PAT_COUNT (R50). -/
def patCountWord (t : PatTable) : Word := bit t.trunc ++ 0#15 ++ t.n

/-- PAT_ENTRY[k] (R50): 0 past the stored entries. -/
def patEntryWord (t : PatTable) (k : Nat) : Word :=
  match t.entries[k]? with
  | none => 0
  | some e => e.programNumber ++ 0#3 ++ e.pid

/-- PMT_H0 (R51). -/
def pmtH0Word (t : PmtTable) : Word := bit t.valid ++ 0#2 ++ t.pcrPid ++ t.programNumber

/-- PMT_H1 (R51). -/
def pmtH1Word (t : PmtTable) : Word := 0#8 ++ t.tableId ++ 0#4 ++ t.programInfoLength

/-- PMT_H2 (R51). -/
def pmtH2Word (t : PmtTable) : Word := 0#20 ++ t.sectionLength

/-- PMT_ES_COUNT (R51). -/
def pmtEsCountWord (t : PmtTable) : Word := bit t.trunc ++ 0#15 ++ BitVec.ofNat 16 t.es.length

/-- PMT_ES_A[k] (R51): 0 past the accumulated entries. -/
def pmtEsAWord (t : PmtTable) (k : Nat) : Word :=
  match t.es[k]? with
  | none => 0
  | some e => 0#3 ++ e.pid ++ 0#8 ++ e.streamType

/-- PMT_ES_B[k] (R51): 0 past the accumulated entries. -/
def pmtEsBWord (t : PmtTable) (k : Nat) : Word :=
  match t.es[k]? with
  | none => 0
  | some e => 0#20 ++ e.esInfoLength

end Sys2Proof.Machine
end

