-- ==== Sys2Proof/Machine/Ops.lean ====
section
/-! DEFINITION. The named operations the meanings share: the current frame's variables, the contexts, the two queues,
raising and reporting an error, the register reads, clearing the tables, and the reset transaction. -/

namespace Sys2Proof.Machine

/-! ## The frame in progress and the contexts -/

/-- Change the transient variables of the FRAME transaction in progress. -/
def onFlight (f : Flight → Flight) (s : State) : State := { s with flight := f s.flight }

/-- Context i; one at its reset value where the instance has no context i. -/
def ctxAt (s : State) (i : Nat) : Context := s.ctx.getD i .reset

/-- Change the reassembly state ctx[i]; nothing where the instance has no context i. -/
def onCtx (i : Nat) (f : CtxState → CtxState) (s : State) : State :=
  { s with ctx := s.ctx.modify i (fun c => { c with st := f c.st }) }

/-- `raise ERR(c)` (60_exceptions.md R500): set bit c of `errs` and nothing else. -/
def raise (c : Cause) (s : State) : State := onFlight (fun f => { f with errs := f.errs ||| c.bit }) s

/-- `raise ERR(c)` under a condition. -/
def raiseIf (b : Bool) (c : Cause) (s : State) : State := if b then raise c s else s

/-! ## Queues -/

/-- `push_event(rec)` (00_scope.md section 6). -/
def pushEvent (e : EvRec) (s : State) : State := { s with evq := s.evq ++ [e] }

/-- `push_event` of an event that the frame may not have. -/
def pushEvent? (e : Option EvRec) (s : State) : State :=
  match e with
  | none => s
  | some e => pushEvent e s

/-- `push_unit(rec)` of the unit that the frame may not have emitted. -/
def pushUnit? (u : Option UnitRec) (s : State) : State :=
  match u with
  | none => s
  | some u => { s with uq := s.uq ++ [u] }

/-- EV_POP (45_host_interface.md R422). -/
def popEvent (s : State) : State := { s with evq := s.evq.tail }

/-- UNIT_POP (R424): the pointer is zeroed also when the queue was empty. -/
def popUnit (s : State) : State := { s with uq := s.uq.tail, unitRdptr := 0 }

/-! ## Reporting an error: the block's form of taking an exception (60_exceptions.md R500 to R506) -/

/-- The ERR record of a frame claimed by context c (R502). -/
def errRecord (c : Nat) (f : Flight) : EvRec where
  w0 := (match f.unit with | none => 0#16 | some u => u.seq) ++ 0#1 ++ f.errs ++ BitVec.ofNat 4 c ++ 15#4
  w1 := f.k
  w2 := 0#14 ++ bit f.ptr.isSome ++ bit (hdrHasAf f.h) ++ f.ptr.getD 0#8 ++ (if hdrHasAf f.h then afLen f.p else 0#8)
  w3 := 0#31 ++ bit f.unit.isSome

/-- Report the causes of the frame in progress, claimed by context c: an ERR record when there is any (R502, R215). -/
def reportErrors (c : Nat) (s : State) : State :=
  if s.flight.errs = 0#7 then s else pushEvent (errRecord c s.flight) s

/-- The sticky bits take the causes of every accepted frame, claimed or not (R500, R506). -/
def latchErrors (s : State) : State := { s with errStatus := s.errStatus ||| s.flight.errs }

/-- The host's acknowledgement: write-one-to-clear (R505, 45_host_interface.md R413). -/
def clearErrors (d : Word) (s : State) : State := { s with errStatus := s.errStatus &&& ~~~(d.extractLsb' 0 7) }

/-! ## Register reads (45_host_interface.md R400) -/

/-- The value of a register, computed from the current state (10_state.md R36 to R51). -/
def regValue (s : State) : Reg → Word
  | .id => idWord
  | .ctrl => ctrlWord s.ctrl
  | .cmd => 0
  | .status => statusWord s
  | .irqEn => 0#29 ++ s.irqEn
  | .irqStatus => irqStatusWord s
  | .errStatus => 0#25 ++ s.errStatus
  | .pktIndex => s.pktIndex
  | .dropCount => s.dropCount
  | .lastHdr => s.lastHdr
  | .lastAf => s.lastAf
  | .params => paramsWord s.params
  | .params2 => params2Word s.params
  | .ev j => match s.evq with | [] => 0 | e :: _ => e.word j
  | .unitD j => match s.uq with | [] => 0 | u :: _ => udescWord u j
  | .unitRdptr => 0#8 ++ s.unitRdptr
  | .unitData => unitDataWord s
  | .ctxCfg i => ctxCfgWord (ctxAt s i).cfg
  | .ctxStat i => ctxStatWord (ctxAt s i).st
  | .patH0 => patH0Word s.pat
  | .patH1 => patH1Word s.pat
  | .patCount => patCountWord s.pat
  | .pmtH0 => pmtH0Word s.pmt
  | .pmtH1 => pmtH1Word s.pmt
  | .pmtH2 => pmtH2Word s.pmt
  | .pmtEsCount => pmtEsCountWord s.pmt
  | .patEntry k => patEntryWord s.pat k
  | .pmtEsA k => pmtEsAWord s.pmt k
  | .pmtEsB k => pmtEsBWord s.pmt k

/-- What a read of an address returns: the register's value, 0 where the offset is reserved (R400, R401). -/
def readReg (s : State) (a : Addr) : Word :=
  match regOf s.params a with
  | none => 0
  | some r => regValue s r

/-! ## Tables and reset -/

/-- CLR_TABLES (R423). -/
def clearTables (s : State) : State := { s with pat := .empty, pmt := .empty }

/-- The RESET transaction (70_reset_and_hazards.md R600): every piece of the block's state but the constants of the
instance. The agents' side of the ports is not the block's state and stays (log 4). -/
def resetBlock (s : State) : State where
  params := s.params
  ctrl := .reset
  irqEn := 0
  errStatus := 0
  pktIndex := 0
  dropCount := 0
  seq := 0
  lastHdr := 0
  lastAf := 0
  evq := []
  uq := []
  unitRdptr := 0
  ctx := List.replicate s.params.nCtx .reset
  pat := .empty
  pmt := .empty
  flight := .idle
  offers := s.offers
  turns := s.turns
  rdata := s.rdata

end Sys2Proof.Machine
end

