-- ==== Sys2Proof/Machine/Adaptation.lean ====
section
/-! DEFINITION. The adaptation field decoder and the PCR extractor (41_adaptation.md). -/

namespace Sys2Proof.Machine

/-- A decoded adaptation field of length 0: no flags byte (R240). -/
def afBare (len : Byte) : AfInfo where
  len := len
  fp := false
  flags := 0
  rai := false
  pcrF := false
  opcrF := false
  pcrV := false
  pcrBase := 0
  pcrExt := 0
  opcrV := false
  opcrBase := 0
  opcrExt := 0

/-- A decoded adaptation field with its flags byte, PCR and OPCR not yet extracted (R240, bits 6, 4 and 3). -/
def afWithFlags (len flags : Byte) : AfInfo :=
  { afBare len with
    fp := true
    flags := flags
    rai := flags.getLsbD 6
    pcrF := flags.getLsbD 4
    opcrF := flags.getLsbD 3 }

/-- The two results of AF_DECODE. -/
def setAf (af : Option AfInfo) (ok : Bool) (s : State) : State := onFlight (fun f => { f with af := af, ok := ok }) s

/-- PCR_EXTRACT (R243): the CLOCKREF at p[6:12), or AF_LEN when it would end past the adaptation field. -/
def pcrExtract (s : State) : State :=
  match s.flight.af with
  | none => s
  | some af =>
    if 12 ≤ 5 + af.len.toNat then
      onFlight (fun f =>
        { f with af := some { af with pcrV := true, pcrBase := clockBase f.p 6, pcrExt := clockExt f.p 6 } }) s
    else raise .afLen s

/-- OPCR_EXTRACT (R244): the CLOCKREF at p[o : o+6), or AF_LEN. -/
def opcrExtract (o : Nat) (s : State) : State :=
  match s.flight.af with
  | none => s
  | some af =>
    if o + 6 ≤ 5 + af.len.toNat then
      onFlight (fun f =>
        { f with af := some { af with opcrV := true, opcrBase := clockBase f.p o, opcrExt := clockExt f.p o } }) s
    else raise .afLen s

/-- Where the OPCR starts: advanced by 6 whenever PCR_flag is set, decoded or not (R243, R244). -/
def opcrOffset (flags : Byte) : Nat := if flags.getLsbD 4 then 12 else 6

/-- AF_DECODE (R240, R241). -/
def afDecode (s : State) : State :=
  let len := afLen s.flight.p
  if 188 < 5 + len.toNat then raise .afLen (setAf none false s)
  else if len = 0#8 then setAf (some (afBare len)) true s
  else
    let flags := byteAt s.flight.p 5
    let s := setAf (some (afWithFlags len flags)) true s
    let s := if flags.getLsbD 4 then pcrExtract s else s
    if flags.getLsbD 3 then opcrExtract (opcrOffset flags) s else s

/-- The clock words W2 and W3 of an AF or OPCR event: valid bit, base[32], extension, and base[31:0] (30_encoding.md
R171). -/
def clockWords (base : BitVec 33) (ext : BitVec 9) : Word × Word :=
  (base.extractLsb' 0 32, 1#1 ++ 0#21 ++ base.extractLsb' 32 1 ++ ext)

/-- Word 0 of an AF or OPCR event. -/
def afEventHead (c : Nat) (af : AfInfo) (type : BitVec 4) : Word := 0#8 ++ af.len ++ af.flags ++ BitVec.ofNat 4 c ++ type

/-- The AF event of a claimed frame (R247). -/
def afEvent (c : Nat) (k : BitVec 32) (af : AfInfo) : EvRec where
  w0 := afEventHead c af 1#4
  w1 := k
  w2 := if af.pcrV then (clockWords af.pcrBase af.pcrExt).1 else 0
  w3 := if af.pcrV then (clockWords af.pcrBase af.pcrExt).2 else 0

/-- The OPCR event of a claimed frame (R247). -/
def opcrEvent (c : Nat) (k : BitVec 32) (af : AfInfo) : EvRec where
  w0 := afEventHead c af 2#4
  w1 := k
  w2 := (clockWords af.opcrBase af.opcrExt).1
  w3 := (clockWords af.opcrBase af.opcrExt).2

/-- AF_EVENTS (R247). -/
def afEvents (c : Nat) (s : State) : State :=
  match s.flight.af with
  | none => s
  | some af =>
    if (ctxAt s c).cfg.afev = false ∨ af.len = 0#8 then s
    else
      onFlight (fun f =>
        { f with
          evAf := some (afEvent c f.k af)
          evOpcr := if af.opcrV then some (opcrEvent c f.k af) else f.evOpcr }) s

/-- AF_DECODE by itself, on the packet in progress. -/
def execAfDecode (_h : Word) (s : State) : Host.Outcome State Fault Refusal := .next (afDecode s)

/-- PCR_EXTRACT by itself, on the adaptation field in progress. -/
def execPcrExtract (_flags : Byte) (s : State) : Host.Outcome State Fault Refusal := .next (pcrExtract s)

/-- OPCR_EXTRACT by itself, on the adaptation field in progress. -/
def execOpcrExtract (flags : Byte) (s : State) : Host.Outcome State Fault Refusal :=
  .next (opcrExtract (opcrOffset flags) s)

end Sys2Proof.Machine
end

