-- ==== Sys2Proof/Machine/Framer.lean ====
section
/-! DEFINITION. Header decode, routing and the adaptation/payload classes (40_framer.md R205 to R214). -/

namespace Sys2Proof.Machine

/-- PKT_HDR (R205): the header word of the frame in progress; a bad sync byte is reported, not enforced. -/
def pktHdr (h : Word) (s : State) : State :=
  raiseIf (hdrSync h != 0x47#8) .sync (onFlight (fun f => { f with h := h }) s)

/-- The three results of a class rule: `af` is left as AF_DECODE set it, or is none. -/
def setPayload (pl : List Byte) (ra : Bool) (s : State) : State := onFlight (fun f => { f with pl := pl, ra := ra }) s

/-- PKT_AFC00 (R210): no adaptation field, no payload, no reassembly. -/
def pktAfc00 (s : State) : State := setPayload [] false (setAf none true s)

/-- PKT_PAYLOAD (R211): the 184 bytes p[4:188). -/
def pktPayload (s : State) : State := setPayload (slice s.flight.p 4 188) true (setAf none true s)

/-- PKT_AF (R212): an adaptation field and an empty payload. -/
def pktAf (s : State) : State :=
  let s := afDecode s
  setPayload [] s.flight.ok s

/-- PKT_AF_PAYLOAD (R213): the payload after the adaptation field, none when its length does not fit. -/
def pktAfPayload (s : State) : State :=
  let s := afDecode s
  if s.flight.ok then setPayload (slice s.flight.p (5 + (afLen s.flight.p).toNat) 188) true s else setPayload [] false s

/-- CLASS[h.AFC] (R200). -/
def pktClass (h : Word) (s : State) : State :=
  if hdrAfc h = 0#2 then pktAfc00 s
  else if hdrAfc h = 1#2 then pktPayload s
  else if hdrAfc h = 2#2 then pktAf s
  else pktAfPayload s

/-- Whether a context claims a PID (R206). -/
def claims (pid : Pid) (c : Context) : Bool := c.cfg.en && c.cfg.pid == pid

/-- ROUTE's search (R206): the lowest context that claims the PID. -/
def routeOf (pid : Pid) (ctx : List Context) : Option Nat := ctx.findIdx? (claims pid)

/-- ROUTE (R206). -/
def route (h : Word) (s : State) : State := onFlight (fun f => { f with claim := routeOf (hdrPid h) s.ctx }) s

/-- DROP (R207): the frame is counted. -/
def drop (s : State) : State := { s with dropCount := s.dropCount + 1 }

/-- CTX_NONE (R214): no reassembly step. -/
def ctxNone (s : State) : State := s

/-- LAST_HDR and LAST_AF, written by every accepted frame (R208). -/
def latchLast (s : State) : State :=
  { s with lastHdr := be32 s.flight.p 0, lastAf := lastAfWord (be32 s.flight.p 0) s.flight.p }

/-- PKT_HDR by itself. -/
def execPktHdr (h : Word) (s : State) : Host.Outcome State Fault Refusal := .next (pktHdr h s)

/-- ROUTE by itself. -/
def execRoute (h : Word) (s : State) : Host.Outcome State Fault Refusal := .next (route h s)

/-- DROP by itself. -/
def execDrop (_h : Word) (s : State) : Host.Outcome State Fault Refusal := .next (drop s)

/-- PKT_AFC00 by itself. -/
def execPktAfc00 (_h : Word) (s : State) : Host.Outcome State Fault Refusal := .next (pktAfc00 s)

/-- PKT_PAYLOAD by itself. -/
def execPktPayload (_h : Word) (s : State) : Host.Outcome State Fault Refusal := .next (pktPayload s)

/-- PKT_AF by itself. -/
def execPktAf (_h : Word) (s : State) : Host.Outcome State Fault Refusal := .next (pktAf s)

/-- PKT_AF_PAYLOAD by itself. -/
def execPktAfPayload (_h : Word) (s : State) : Host.Outcome State Fault Refusal := .next (pktAfPayload s)

/-- CTX_NONE by itself. -/
def execCtxNone (_i : Nat) (_h : Word) (s : State) : Host.Outcome State Fault Refusal := .next (ctxNone s)

end Sys2Proof.Machine
end

