-- ==== Sys2Proof/Machine/Psi.lean ====
section
/-! DEFINITION. The PAT and PMT decoders and the PMT merge (43_psi_tables.md). -/

namespace Sys2Proof.Machine

/-! ## PAT -/

/-- A decoded PAT section. -/
structure PatSection where
  tableId       : BitVec 8
  version       : BitVec 5
  tsId          : BitVec 16
  sectionLength : BitVec 12
  records       : List PatEntry
  deriving DecidableEq, Repr

/-- Record j of a PAT section (30_encoding.md R148). -/
def patRecord (s : List Byte) (j : Nat) : PatEntry := ⟨be16 s (8 + 4 * j), pid13 s (10 + 4 * j)⟩

/-- The pure decode of PAT_DECODE (R315 to R317): none on a malformed length. -/
def patParse (s : List Byte) : Option PatSection :=
  let sl := (len12 s 1).toNat
  if s.length < 3 then none
  else if sl < 9 ∨ s.length < 3 + sl then none
  else if (sl - 1 - 8) % 4 ≠ 0 then none
  else some {
    tableId := byteAt s 0
    version := (byteAt s 5).extractLsb' 1 5
    tsId := be16 s 3
    sectionLength := len12 s 1
    records := (List.range ((sl - 1 - 8) / 4)).map (patRecord s) }

/-- Word 0 of a PAT or PMT event (30_encoding.md R171). -/
def tableEventHead (u : UnitRec) (type : BitVec 4) : Word := u.seq ++ 0#8 ++ u.ctx ++ type

/-- The PAT registers after a successful decode (R315, R318): the whole table is replaced, PAT_MAX records are stored. -/
def patTableOf (patMax : Nat) (sec : PatSection) : PatTable where
  valid := true
  tableId := sec.tableId
  version := sec.version
  tsId := sec.tsId
  sectionLength := sec.sectionLength
  n := BitVec.ofNat 16 sec.records.length
  trunc := decide (patMax < sec.records.length)
  entries := sec.records.take patMax

/-- The commit of PAT_DECODE (R315). -/
def patCommit (u : UnitRec) (sec : PatSection) (s : State) : State :=
  let full := decide (s.params.patMax < sec.records.length)
  let ev : EvRec := ⟨tableEventHead u 3#4, s.flight.k, BitVec.ofNat 32 sec.records.length, 0#31 ++ bit full⟩
  raiseIf full .tableOvf
    (onFlight (fun f => { f with evTbl := some ev }) { s with pat := patTableOf s.params.patMax sec })

/-- PAT_DECODE (R315) of the unit the frame emitted. -/
def patDecode (s : State) : State :=
  match s.flight.unit with
  | none => s
  | some u =>
    match patParse u.data with
    | none => raise .truncSection s
    | some sec => patCommit u sec s

/-! ## PMT -/

/-- A PMT elementary-stream record and the offset of its descriptors in the section (R320). -/
structure EsRec where
  entry  : EsEntry
  descAt : Nat
  deriving DecidableEq, Repr

/-- A decoded PMT section. -/
structure PmtSection where
  tableId           : BitVec 8
  programNumber     : BitVec 16
  pcrPid            : Pid
  programInfoLength : BitVec 12
  sectionLength     : BitVec 12
  records           : List EsRec
  deriving DecidableEq, Repr

/-- The record loop of PMT_DECODE (R320) from offset q up to the end E; none when a record runs past E. The first
argument bounds the rounds: each takes at least 5 bytes, so E rounds are more than the loop can make (log 12). -/
def pmtRecords (s : List Byte) (e : Nat) : Nat → Nat → Option (List EsRec)
  | 0, q => if q < e then none else some []
  | rounds + 1, q =>
    if q < e then
      if e < q + 5 then none
      else
        let eil := len12 s (q + 3)
        if e < q + 5 + eil.toNat then none
        else
          (pmtRecords s e rounds (q + 5 + eil.toNat)).map
            (fun rest => ⟨⟨byteAt s q, pid13 s (q + 1), eil⟩, q + 5⟩ :: rest)
    else some []

/-- The pure decode of PMT_DECODE (R320, R321): none on a malformed length. -/
def pmtParse (s : List Byte) : Option PmtSection :=
  let sl := (len12 s 1).toNat
  let pil := len12 s 10
  if s.length < 3 then none
  else if sl < 13 ∨ s.length < 3 + sl then none
  else if sl - 1 < 12 + pil.toNat then none
  else
    (pmtRecords s (sl - 1) (sl - 1) (12 + pil.toNat)).map (fun recs =>
      { tableId := byteAt s 0
        programNumber := be16 s 3
        pcrPid := pid13 s 8
        programInfoLength := pil
        sectionLength := len12 s 1
        records := recs })

/-- The running result of PMT_MERGE (R330). -/
structure Merge where
  es    : List EsEntry
  added : Nat
  trunc : Bool
  deriving DecidableEq, Repr

/-- One record of PMT_MERGE (R330): a PID already held is updated in place, a new one appended while there is room. -/
def mergeOne (max : Nat) (m : Merge) (r : EsEntry) : Merge :=
  match m.es.findIdx? (fun e => e.pid == r.pid) with
  | some j => { m with es := m.es.set j r }
  | none =>
    if m.es.length < max then { m with es := m.es ++ [r], added := m.added + 1 } else { m with trunc := true }

/-- PMT_MERGE (R330). -/
def pmtMerge (max : Nat) (es : List EsEntry) (recs : List EsEntry) : Merge := recs.foldl (mergeOne max) ⟨es, 0, false⟩

/-- The PMT registers after a successful decode (R320, R332): headers replaced, the list accumulated, TRUNC sticky. -/
def pmtTableOf (old : PmtTable) (m : Merge) (sec : PmtSection) : PmtTable where
  valid := true
  programNumber := sec.programNumber
  pcrPid := sec.pcrPid
  programInfoLength := sec.programInfoLength
  tableId := sec.tableId
  sectionLength := sec.sectionLength
  trunc := old.trunc || m.trunc
  es := m.es

/-- The commit of PMT_DECODE (R320). -/
def pmtCommit (u : UnitRec) (sec : PmtSection) (s : State) : State :=
  let m := pmtMerge s.params.pmtEsMax s.pmt.es (sec.records.map EsRec.entry)
  let ev : EvRec :=
    ⟨tableEventHead u 4#4, s.flight.k, BitVec.ofNat 32 sec.records.length, bit m.trunc ++ 0#15 ++ BitVec.ofNat 16 m.added⟩
  raiseIf m.trunc .tableOvf (onFlight (fun f => { f with evTbl := some ev }) { s with pmt := pmtTableOf s.pmt m sec })

/-- PMT_DECODE (R320) of the unit the frame emitted. -/
def pmtDecode (s : State) : State :=
  match s.flight.unit with
  | none => s
  | some u =>
    match pmtParse u.data with
    | none => raise .truncSection s
    | some sec => pmtCommit u sec s

/-- PAT_DECODE by itself, on the unit in progress. -/
def execPatDecode (_cfg : Word) (s : State) : Host.Outcome State Fault Refusal := .next (patDecode s)

/-- PMT_DECODE by itself, on the unit in progress. -/
def execPmtDecode (_cfg : Word) (s : State) : Host.Outcome State Fault Refusal := .next (pmtDecode s)

end Sys2Proof.Machine
end

