-- ==== Sys2Proof/Machine/Reassembly.lean ====
section
/-! DEFINITION. The helpers both reassembly strategies share, BEGIN, APPEND and EMIT, and the section operations
(42_section.md). -/

namespace Sys2Proof.Machine

/-- A context at the start of a unit, packet index k (R271). -/
def ctxBegin (k : BitVec 32) : CtxState := { CtxState.reset with pending := true, startPkt := k }

/-- BEGIN(i) (R271). -/
def beginUnit (i : Nat) (s : State) : State := onCtx i (fun _ => ctxBegin s.flight.k) s

/-- The room left in ctx[i].BUF (R278). -/
def roomAt (s : State) (i : Nat) : Nat := s.params.bufBytes i - (ctxAt s i).st.buf.length

/-- APPEND(i, b) (R278): up to the capacity; the first bytes dropped from a unit raise BUF_OVF. -/
def appendUnit (i : Nat) (b : List Byte) (s : State) : State :=
  if b.length ≤ roomAt s i then onCtx i (fun c => { c with buf := c.buf ++ b }) s
  else
    onCtx i (fun c => { c with buf := c.buf ++ b.take (roomAt s i), ovf := true })
      (raiseIf (!(ctxAt s i).st.ovf) .bufOvf s)

/-- The unit record of context i at its boundary (R279). -/
def unitOf (i : Nat) (c : Context) (seq : BitVec 16) (k : BitVec 32) : UnitRec where
  ctx := BitVec.ofNat 4 i
  isPes := c.cfg.kind == .pes
  ovf := c.st.ovf
  ptrErr := c.st.ptrErr
  hdrErr := c.st.hdrErr
  pesHdr := c.st.pesHdr
  ptsV := c.st.ptsV
  dtsV := c.st.dtsV
  seq := seq
  startPkt := c.st.startPkt
  endPkt := k
  sid := c.st.sid
  ppl := c.st.ppl
  hdl := c.st.hdl
  pdf := c.st.pdf
  pts := c.st.pts
  dts := c.st.dts
  data := c.st.buf

/-- The table decode of a unit just emitted, by the context's KIND and PARSE (R279). -/
def decodeTable (cfg : CtxCfg) (s : State) : State :=
  match cfg.kind, cfg.parse with
  | .sec, .pat => patDecode s
  | .sec, .pmt => pmtDecode s
  | _, _ => s

/-- EMIT(i) (R279). -/
def emitUnit (i : Nat) (s : State) : State :=
  let c := ctxAt s i
  let u := unitOf i c s.seq s.flight.k
  let s := onFlight (fun f => { f with unit := some u }) { s with seq := s.seq + 1 }
  onCtx i (fun c => { c with pending := false }) (decodeTable c.cfg s)

/-- SEC_CONT (R275): a continuation before the first boundary is discarded (R272). -/
def secCont (i : Nat) (s : State) : State :=
  if (ctxAt s i).st.pending then appendUnit i s.flight.pl s else s

/-- Mark the unit in progress as cut at a pointer that did not fit (R280). -/
def flagPtrErr (bad : Bool) (i : Nat) (s : State) : State :=
  if bad then onCtx i (fun c => { c with ptrErr := true }) s else s

/-- The part of SEC_START that closes the unit in progress, if there is one (R276). -/
def closeSection (i : Nat) (tail : List Byte) (bad : Bool) (s : State) : State :=
  if (ctxAt s i).st.pending then emitUnit i (flagPtrErr bad i (appendUnit i tail s)) else s

/-- The part of SEC_START that begins the next unit (R276). -/
def openSection (i : Nat) (rest : List Byte) (bad : Bool) (s : State) : State :=
  appendUnit i rest (flagPtrErr bad i (beginUnit i s))

/-- SEC_START (R276, R280, R281): the pointer field splits the payload between the unit in progress and the next. -/
def secStart (i : Nat) (s : State) : State :=
  let pl := s.flight.pl
  if pl.length = 0 then raise .pointer s
  else
    let ptr := byteAt pl 0
    let bad := decide (pl.length < 1 + ptr.toNat)
    let n := min (1 + ptr.toNat) pl.length
    let s := raiseIf bad .pointer (onFlight (fun f => { f with ptr := some ptr }) s)
    openSection i (slice pl n pl.length) bad (closeSection i (slice pl 1 n) bad s)

/-- SEC_CONT by itself, on the payload in progress. -/
def execSecCont (i : Nat) (_h : Word) (s : State) : Host.Outcome State Fault Refusal := .next (secCont i s)

/-- SEC_START by itself, on the payload in progress. -/
def execSecStart (i : Nat) (_h : Word) (s : State) : Host.Outcome State Fault Refusal := .next (secStart i s)

end Sys2Proof.Machine
end

