-- ==== Sys2Proof/Machine/Pes.lean ====
section
/-! DEFINITION. The PES reassembler and the PES header decoder (44_pes.md). -/

namespace Sys2Proof.Machine

/-- PES_CONT (R360). -/
def pesCont (i : Nat) (s : State) : State :=
  if (ctxAt s i).st.pending then appendUnit i s.flight.pl s else s

/-- TRUNC_PES and HDR_ERR of the new unit (R366). -/
def truncPes (i : Nat) (s : State) : State := onCtx i (fun c => { c with hdrErr := true }) (raise .truncPes s)

/-- The result of PES_HDR_DECODE: where the elementary payload begins, none when the header does not fit. -/
def setPs (ps : Option Nat) (s : State) : State := onFlight (fun f => { f with ps := ps }) s

/-- PTS_DECODE (R369) of the bytes e[9:14) of the start packet's payload. -/
def ptsDecode (i : Nat) (s : State) : State :=
  onCtx i (fun c => { c with pts := timestampAt s.flight.pl 9, ptsV := true }) s

/-- DTS_DECODE (R370) of the bytes e[14:19). -/
def dtsDecode (i : Nat) (s : State) : State :=
  onCtx i (fun c => { c with dts := timestampAt s.flight.pl 14, dtsV := true }) s

/-- The PTS of a header whose payload starts at ps (R365): decoded when PDF announces it and the header covers it. -/
def pesPts (i : Nat) (pdf : BitVec 2) (ps : Nat) (s : State) : State :=
  if pdf = 2#2 ∨ pdf = 3#2 then (if 14 ≤ ps then ptsDecode i s else truncPes i s) else s

/-- The DTS of a header (R365): only with PDF = 11 and a decoded PTS. -/
def pesDts (i : Nat) (pdf : BitVec 2) (ps : Nat) (s : State) : State :=
  if pdf = 3#2 ∧ (ctxAt s i).st.ptsV = true then (if 19 ≤ ps then dtsDecode i s else truncPes i s) else s

/-- PES_HDR_DECODE (R365 to R368) of the payload in progress. -/
def pesHdrDecode (i : Nat) (s : State) : State :=
  let e := s.flight.pl
  if e.length < 6 then setPs none (truncPes i s)
  else
    let s := onCtx i (fun c => { c with sid := byteAt e 3, ppl := be16 e 4 }) s
    if headerless (byteAt e 3) then setPs (some 6) s
    else if e.length < 9 then setPs none (truncPes i s)
    else
      let pdf := (byteAt e 7).extractLsb' 6 2
      let ps := 9 + (byteAt e 8).toNat
      let s := onCtx i (fun c => { c with pdf := pdf, hdl := byteAt e 8 }) s
      if e.length < ps then setPs none (truncPes i s)
      else setPs (some ps) (pesDts i pdf ps (pesPts i pdf ps s))

/-- The part of PES_START after a start code (R361): the header, then the elementary payload if it fits. -/
def pesOpenHeader (i : Nat) (s : State) : State :=
  let pl := s.flight.pl
  let s := pesHdrDecode i (onCtx i (fun c => { c with pesHdr := true }) s)
  match s.flight.ps with
  | none => s
  | some ps => appendUnit i (slice pl ps pl.length) s

/-- The payload begins with the start code 00 00 01 (R361). -/
def hasStartCode (pl : List Byte) : Bool := decide (3 ≤ pl.length) && be24 pl 0 == 0x000001#24

/-- PES_START (R361, R367). -/
def pesStart (i : Nat) (s : State) : State :=
  let s := if (ctxAt s i).st.pending then emitUnit i s else s
  let s := beginUnit i s
  if hasStartCode s.flight.pl then pesOpenHeader i s else appendUnit i s.flight.pl s

/-- PES_CONT by itself, on the payload in progress. -/
def execPesCont (i : Nat) (_h : Word) (s : State) : Host.Outcome State Fault Refusal := .next (pesCont i s)

/-- PES_START by itself, on the payload in progress. -/
def execPesStart (i : Nat) (_h : Word) (s : State) : Host.Outcome State Fault Refusal := .next (pesStart i s)

/-- PES_HDR_DECODE by itself, on the payload in progress. -/
def execPesHdrDecode (i : Nat) (s : State) : Host.Outcome State Fault Refusal := .next (pesHdrDecode i s)

/-- PTS_DECODE by itself, on the payload in progress. -/
def execPtsDecode (i : Nat) (_b7 : Byte) (s : State) : Host.Outcome State Fault Refusal := .next (ptsDecode i s)

/-- DTS_DECODE by itself, on the payload in progress. -/
def execDtsDecode (i : Nat) (_b7 : Byte) (s : State) : Host.Outcome State Fault Refusal := .next (dtsDecode i s)

end Sys2Proof.Machine
end

