-- ==== Sys2Proof/Machine/Frame.lean ====
section
/-! DEFINITION. The accepted-frame transaction (40_framer.md R200, R215), built from the meanings of its operations. -/

namespace Sys2Proof.Machine

/-- The transient variables at the start of a FRAME transaction (R200). -/
def beginFrame (fr : List Byte) (s : State) : State :=
  { s with flight := { Flight.idle with k := s.pktIndex, p := packetOf s.ctrl.frameSize fr } }

/-- The reassembly operation of the claiming context c, by KIND and PUSI (R200, R180). -/
def contextOp (c : Nat) (h : Word) (s : State) : State :=
  match (ctxAt s c).cfg.kind with
  | .none => ctxNone s
  | .sec => if hdrPusi h then secStart c s else secCont c s
  | .pes => if hdrPusi h then pesStart c s else pesCont c s

/-- What a claimed frame does to its context: AF_EVENTS, and when `ra` = 1 the context's operation (R200). -/
def claimedFrame (c : Nat) (h : Word) (s : State) : State :=
  let s := afEvents c s
  if s.flight.ra then contextOp c h s else s

/-- The pushes of FINALIZE (R215, R503): AF, OPCR, table and ERR event of a claimed frame, or the drop count. -/
def finalizeEvents (s : State) : State :=
  match s.flight.claim with
  | none => drop s
  | some c =>
    reportErrors c (pushEvent? s.flight.evTbl (pushEvent? s.flight.evOpcr (pushEvent? s.flight.evAf s)))

/-- FINALIZE (R215), after which no transaction is in progress. -/
def finalize (s : State) : State :=
  let s := latchErrors (finalizeEvents (pushUnit? s.flight.unit s))
  { s with pktIndex := s.flight.k + 1, flight := .idle }

/-- The FRAME transaction of R200 up to FINALIZE. -/
def frameBody (fr : List Byte) (s : State) : State :=
  let s := beginFrame fr s
  let h := be32 s.flight.p 0
  let s := route h (latchLast (pktClass h (pktHdr h s)))
  match s.flight.claim with
  | none => s
  | some c => claimedFrame c h s

/-- The FRAME transaction (R200). -/
def frameTransaction (fr : List Byte) (s : State) : State := finalize (frameBody fr s)

/-- FRAME (R200 to R202): while the port is held the transaction does not happen; a frame of another length than F is
refused. -/
def execFrame (fr : List Byte) (s : State) : Host.Outcome State Fault Refusal :=
  if held s then .next s
  else if fr.length = s.ctrl.frameSize.bytes then .next (frameTransaction fr s)
  else .refused .frameLength

end Sys2Proof.Machine
end

