-- ==== Sys2Proof/Machine/RegPort.lean ====
section
/-! DEFINITION. The host register interface: reads, writes and commands (45_host_interface.md), and the reset input
(70_reset_and_hazards.md R600). -/

namespace Sys2Proof.Machine

/-- REG_READ (R400): the data goes to the register port; the block's state does not change (20_memory.md R107). -/
def execRegRead (a : Addr) (s : State) : Host.Outcome State Fault Refusal := .next { s with rdata := readReg s a }

/-- CTRL after a write of d (R410): FRAME_SIZE is written only when EN was 0 before. -/
def ctrlWrite (c : Ctrl) (d : Word) : Ctrl where
  en := d.getLsbD 0
  frameSize := if c.en then c.frameSize else FrameSize.ofCode c.frameSize (d.extractLsb' 1 2)

/-- WR_CTRL (R410). -/
def execWrCtrl (d : Word) (s : State) : Host.Outcome State Fault Refusal := .next { s with ctrl := ctrlWrite s.ctrl d }

/-- WR_CTX_CFG (R411): the configuration is stored and the context cleared. -/
def execWrCtxCfg (i : Nat) (d : Word) (s : State) : Host.Outcome State Fault Refusal :=
  .next { s with ctx := s.ctx.modify i (fun _ => ⟨ctxCfgOf d, .reset⟩) }

/-- WR_IRQ_EN (R412). -/
def execWrIrqEn (d : Word) (s : State) : Host.Outcome State Fault Refusal := .next { s with irqEn := d.extractLsb' 0 3 }

/-- WR_ERR_STATUS (R413). -/
def execWrErrStatus (d : Word) (s : State) : Host.Outcome State Fault Refusal := .next (clearErrors d s)

/-- WR_UNIT_RDPTR (R414). -/
def execWrUnitRdptr (d : Word) (s : State) : Host.Outcome State Fault Refusal :=
  .next { s with unitRdptr := d.extractLsb' 0 24 }

/-- WR_IGNORED (R415). -/
def execWrIgnored (_a : Addr) (_d : Word) (s : State) : Host.Outcome State Fault Refusal := .next s

/-- CMD_SOFT_RESET (R421): the reset transaction. -/
def execCmdSoftReset (s : State) : Host.Outcome State Fault Refusal := .next (resetBlock s)

/-- CMD_EV_POP (R422). -/
def execCmdEvPop (s : State) : Host.Outcome State Fault Refusal := .next (popEvent s)

/-- CMD_CLR_TABLES (R423). -/
def execCmdClrTables (s : State) : Host.Outcome State Fault Refusal := .next (clearTables s)

/-- CMD_UNIT_POP (R424). -/
def execCmdUnitPop (s : State) : Host.Outcome State Fault Refusal := .next (popUnit s)

/-- RESET (70_reset_and_hazards.md R600): the reset input asserted. -/
def execReset (s : State) : Host.Outcome State Fault Refusal := .next (resetBlock s)

end Sys2Proof.Machine
end

