-- ==== Sys2Proof/Machine/Dispatch.lean ====
section
/-! DEFINITION. One arm per operation: each calls its meaning. -/

namespace Sys2Proof.Machine

def exec (i : Instr) (s : State) : Host.Outcome State Fault Refusal :=
  match i with
  | .frame fr => Sys2Proof.Machine.execFrame fr s
  | .pktHdr h => Sys2Proof.Machine.execPktHdr h s
  | .route h => Sys2Proof.Machine.execRoute h s
  | .drop h => Sys2Proof.Machine.execDrop h s
  | .pktAfc00 h => Sys2Proof.Machine.execPktAfc00 h s
  | .pktPayload h => Sys2Proof.Machine.execPktPayload h s
  | .pktAf h => Sys2Proof.Machine.execPktAf h s
  | .pktAfPayload h => Sys2Proof.Machine.execPktAfPayload h s
  | .ctxNone c h => Sys2Proof.Machine.execCtxNone c h s
  | .afDecode h => Sys2Proof.Machine.execAfDecode h s
  | .pcrExtract flags => Sys2Proof.Machine.execPcrExtract flags s
  | .opcrExtract flags => Sys2Proof.Machine.execOpcrExtract flags s
  | .secCont c h => Sys2Proof.Machine.execSecCont c h s
  | .secStart c h => Sys2Proof.Machine.execSecStart c h s
  | .patDecode cfg => Sys2Proof.Machine.execPatDecode cfg s
  | .pmtDecode cfg => Sys2Proof.Machine.execPmtDecode cfg s
  | .pesCont c h => Sys2Proof.Machine.execPesCont c h s
  | .pesStart c h => Sys2Proof.Machine.execPesStart c h s
  | .pesHdrDecode c => Sys2Proof.Machine.execPesHdrDecode c s
  | .ptsDecode c b => Sys2Proof.Machine.execPtsDecode c b s
  | .dtsDecode c b => Sys2Proof.Machine.execDtsDecode c b s
  | .regRead a => Sys2Proof.Machine.execRegRead a s
  | .wrCtrl d => Sys2Proof.Machine.execWrCtrl d s
  | .wrCtxCfg c d => Sys2Proof.Machine.execWrCtxCfg c d s
  | .wrIrqEn d => Sys2Proof.Machine.execWrIrqEn d s
  | .wrErrStatus d => Sys2Proof.Machine.execWrErrStatus d s
  | .wrUnitRdptr d => Sys2Proof.Machine.execWrUnitRdptr d s
  | .wrIgnored a d => Sys2Proof.Machine.execWrIgnored a d s
  | .cmdSoftReset => Sys2Proof.Machine.execCmdSoftReset s
  | .cmdEvPop => Sys2Proof.Machine.execCmdEvPop s
  | .cmdClrTables => Sys2Proof.Machine.execCmdClrTables s
  | .cmdUnitPop => Sys2Proof.Machine.execCmdUnitPop s
  | .reset => Sys2Proof.Machine.execReset s

end Sys2Proof.Machine
end

