-- ==== Sys2Proof/Machine/Perform.lean ====
section
/-! DEFINITION. Performing the operations a word selects, INPUT's offer of a frame, and placing a word where the next
step takes it from. -/

namespace Sys2Proof.Machine

/-- Perform operations in order, stopping at the first that answers no next state. -/
def execAll (is : List Instr) (s : State) : Host.Outcome State Fault Refusal :=
  match is with
  | [] => .next s
  | i :: rest =>
    match exec i s with
    | .next t => execAll rest t
    | .fault r => .fault r
    | .refused r => .refused r

/-- Perform what a word selects: one transaction (00_scope.md R6). -/
def perform (e : Encoded) (s : State) : Host.Outcome State Fault Refusal :=
  match decode s.params.nCtx e with
  | .ok is => execAll is s
  | .error .frameLength => .refused .frameLength
  | .error why => .refused (.unselected why)

/-- INPUT's turn: it offers the frame at the head of `offers`. While the port is held the frame waits (40_framer.md
R201); with no frame to offer nothing happens. -/
def offerFrame (s : State) : Host.Outcome State Fault Refusal :=
  match s.offers with
  | [] => .next s
  | fr :: rest => if held s then .next s else perform (.frame fr) { s with offers := rest }

/-- The state in which INPUT's offer of a frame of `n` bytes is accepted: EN set, FRAME_SIZE chosen for the length, and
a queue emptied only where it would hold the port (log 9). -/
def State.withOpenPort (s : State) (n : Nat) : State :=
  { s with
    ctrl := ⟨true, if n = 192 then .b192 else if n = 204 then .b204 else .b188⟩
    evq := if s.params.evqDepth - s.evq.length < 4 then [] else s.evq
    uq := if s.uq.length = s.params.uqDepth then [] else s.uq }

/-- The state whose next step fetches and performs the given word. -/
def State.withWord (s : State) (e : Encoded) : State :=
  match e with
  | .frame fr =>
    let t := s.withOpenPort fr.length
    { t with offers := fr :: t.offers, turns := .input :: t.turns }
  | .host w => { s with turns := .host w :: s.turns }
  | .reset level => { s with turns := .reset level :: s.turns }
  | .op sel => { s with turns := .op sel :: s.turns }

end Sys2Proof.Machine
end

