-- ==== Sys2Proof/Machine/Step.lean ====
section
/-! DEFINITION. One step: the next turn of the agents, the operations its word selects, in order. -/

namespace Sys2Proof.Machine

/-- One step of the block with its agents (20_memory.md R111): the turn at the head of `turns` is taken. Without a turn
nothing arrives and nothing happens (00_scope.md R7). -/
def step (s : State) : Host.Outcome State Fault Refusal :=
  match s.turns with
  | [] => .next s
  | .input :: rest => offerFrame { s with turns := rest }
  | .host w :: rest => perform (.host w) { s with turns := rest }
  | .reset level :: rest => perform (.reset level) { s with turns := rest }
  | .op sel :: rest => perform (.op sel) { s with turns := rest }

/-- A word of opcode_table.json placed where step takes its next operation from (log 9). -/
def State.withFetchWord (s : State) (nbits w : Nat) : State := s.withWord (tableEncoded nbits w)

end Sys2Proof.Machine
end

