-- ==== Sys2Proof/Safety.lean ====
section
/-! DEFINITION. What a sound state of the block is, between transactions, and what a sound outcome of a step is. -/

namespace Sys2Proof.Machine

/-- R35 of 10_state.md for one context of capacity `cap`: the buffer fits, and a context with nothing pending holds no
byte and no flag. -/
def CtxState.Sound (cap : Nat) (c : CtxState) : Prop :=
  c.buf.length ≤ cap ∧
  (c.pending = false →
    c.buf = [] ∧ c.ovf = false ∧ c.ptrErr = false ∧ c.hdrErr = false ∧ c.pesHdr = false ∧ c.ptsV = false ∧
      c.dtsV = false)

/-- The invariant between transactions: a legal instance, N_CTX contexts as R35 says, queues within their depths
(40_framer.md R201), tables within their capacities with the PIDs of the PMT list distinct (R318, R330), reserved bits
of LAST_AF 0 (R44), no FRAME transaction in progress (R6), and no turn that performs a single operation (log 6). -/
structure State.Inv (s : State) : Prop where
  legal     : s.params.legal
  contexts  : s.ctx.length = s.params.nCtx
  sound     : ∀ (i : Nat) (c : Context), s.ctx[i]? = some c → c.st.Sound (s.params.bufBytes i)
  events    : s.evq.length ≤ s.params.evqDepth
  units     : s.uq.length ≤ s.params.uqDepth
  unitBytes : ∀ u ∈ s.uq, u.data.length < 2 ^ 24
  patStored : s.pat.entries.length = min s.pat.n.toNat s.params.patMax
  patTrunc  : s.pat.trunc = decide (s.params.patMax < s.pat.n.toNat)
  pmtStored : s.pmt.es.length ≤ s.params.pmtEsMax
  pmtPids   : (s.pmt.es.map EsEntry.pid).Nodup
  lastAf    : s.lastAf.extractLsb' 18 14 = 0#14
  idle      : s.flight = .idle
  ports     : ∀ sel, Turn.op sel ∉ s.turns

/-- A sound outcome: the block goes on, or INPUT offered a frame of a length that is no transaction of the block
(40_framer.md R202). -/
def SoundOutcome (o : Host.Outcome State Fault Refusal) : Prop :=
  (∃ t, o = .next t) ∨ o = .refused .frameLength

end Sys2Proof.Machine
end

