-- ==== Sys2Proof/Certificates/Slice0/Obligations.lean ====
section
/-! DEFINITION. The statements about the block, one `def Obligations.<Name> : Prop` each, and the vocabulary they are
written in. Numbers are written as naturals, so that a statement does not repeat the bit-vector expression of the model. -/

open Sys2Proof Sys2Proof.Machine

namespace Sys2Proof.Claims

/-! ## Vocabulary -/

/-- A state answers `t` for an operation. -/
abbrev Answers (i : Instr) (s t : State) : Prop := exec i s = .next t

/-- A word returned by a register read of address `a`. -/
abbrev Reads (s : State) (a : Nat) (v : Nat) : Prop :=
  ∃ w : Word, exec (.regRead (BitVec.ofNat 12 a)) s = .next { s with rdata := w } ∧ w.toNat = v

/-- A numeral bit. -/
abbrev num (b : Bool) : Nat := b.toNat

/-- Byte i of a byte string as a number, 0 past its end. -/
abbrev byte (b : List Byte) (i : Nat) : Nat := (b.getD i 0#8).toNat

/-- A two-byte field, most significant byte first. -/
abbrev pair (b : List Byte) (i : Nat) : Nat := byte b i * 256 + byte b (i + 1)

/-- The bytes of a 188-byte packet inside a frame: the trailing 188. -/
abbrev packet (fr : List Byte) : List Byte := fr.drop (fr.length - 188)

/-- The header word of a packet as a number. -/
abbrev header (p : List Byte) : Nat := pair p 0 * 65536 + pair p 2

/-- The PID of a packet. -/
abbrev pidOf (p : List Byte) : Nat := pair p 1 % 8192

/-- PUSI of a packet. -/
abbrev pusiOf (p : List Byte) : Bool := (byte p 1 / 64) % 2 == 1

/-- AFC[1] and AFC[0] of a packet. -/
abbrev hasAf (p : List Byte) : Bool := (byte p 3 / 32) % 2 == 1
abbrev hasPayload (p : List Byte) : Bool := (byte p 3 / 16) % 2 == 1

/-- Bit n of the AF flags byte. -/
abbrev afFlag (p : List Byte) (n : Nat) : Bool := (byte p 5 / 2 ^ n) % 2 == 1

/-- How long an adaptation field must be to hold its OPCR. -/
abbrev opcrNeeds (p : List Byte) : Nat := if afFlag p 4 then 13 else 7

/-- A packet raises AF_LEN (41_adaptation.md R241, R243, R244). -/
abbrev afBad (p : List Byte) : Bool :=
  hasAf p && (decide (183 < byte p 4) ||
    (decide (0 < byte p 4) && ((afFlag p 4 && decide (byte p 4 < 7)) || (afFlag p 3 && decide (byte p 4 < opcrNeeds p)))))

/-- The payload of a packet (30_encoding.md R143), empty when the adaptation field does not fit. -/
abbrev payload (p : List Byte) : List Byte :=
  if hasPayload p then (if hasAf p then p.drop (5 + byte p 4) else p.drop 4) else []

/-- A packet reaches reassembly: it has a payload or an adaptation field that fits (40_framer.md R210 to R213). -/
abbrev reassembles (p : List Byte) : Bool := (hasAf p || hasPayload p) && !(hasAf p && decide (183 < byte p 4))

/-- Context i claims a PID: it is enabled, holds the PID, and no lower one does (40_framer.md R206). -/
def ClaimedBy (s : State) (pid : Nat) (i : Nat) : Prop :=
  (∃ c, s.ctx[i]? = some c ∧ c.cfg.en = true ∧ c.cfg.pid.toNat = pid) ∧
  ∀ j < i, ∀ c, s.ctx[j]? = some c → ¬ (c.cfg.en = true ∧ c.cfg.pid.toNat = pid)

/-- A frame offered now is accepted (40_framer.md R201, R202): the port is not held and the length is F. -/
def Accepts (s : State) (fr : List Byte) : Prop :=
  s.ctrl.en = true ∧ s.evq.length + 4 ≤ s.params.evqDepth ∧ s.uq.length ≠ s.params.uqDepth ∧
  fr.length = (match s.ctrl.frameSize with | .b188 => 188 | .b192 => 192 | .b204 => 204)

/-- The input port is held (R201). -/
def Held (s : State) : Prop :=
  s.ctrl.en = false ∨ s.params.evqDepth < s.evq.length + 4 ∨ s.uq.length = s.params.uqDepth

/-- Frames offered one after another. -/
def runFrames : List (List Byte) → State → Host.Outcome State Fault Refusal
  | [], s => .next s
  | fr :: rest, s => match exec (.frame fr) s with | .next t => runFrames rest t | .fault r => .fault r | .refused r => .refused r

/-- Bytes appended to a buffer of capacity `cap`. -/
abbrev fill (cap : Nat) (buf b : List Byte) : List Byte := (buf ++ b).take cap

/-- The cause mask of a condition. -/
abbrev mask (b : Bool) (code : Nat) : BitVec 7 := if b then BitVec.ofNat 7 (2 ^ code) else 0#7

/-- A unit begun by the frame of packet index k with the given bytes and flags (R271). -/
abbrev begun (k : BitVec 32) (cap : Nat) (b : List Byte) (ptrErr : Bool) : CtxState where
  pending := true
  buf := b.take cap
  ovf := decide (cap < b.length)
  ptrErr := ptrErr
  hdrErr := false
  startPkt := k
  pesHdr := false
  sid := 0
  ppl := 0
  hdl := 0
  pdf := 0
  ptsV := false
  pts := 0
  dtsV := false
  dts := 0

/-- The unit record that a context state closes to (R279). -/
abbrev closed (i : Nat) (isPes : Bool) (c : CtxState) (seq : BitVec 16) (k : BitVec 32) : UnitRec where
  ctx := BitVec.ofNat 4 i
  isPes := isPes
  ovf := c.ovf
  ptrErr := c.ptrErr
  hdrErr := c.hdrErr
  pesHdr := c.pesHdr
  ptsV := c.ptsV
  dtsV := c.dtsV
  seq := seq
  startPkt := c.startPkt
  endPkt := k
  sid := c.sid
  ppl := c.ppl
  hdl := c.hdl
  pdf := c.pdf
  pts := c.pts
  dts := c.dts
  data := c.buf

/-- The two bytes of a number below 65536, most significant first. -/
abbrev two (n : Nat) : List Byte := [BitVec.ofNat 8 (n / 256), BitVec.ofNat 8 n]

/-- A PAT section built from its fields (30_encoding.md R147, R148); `top` are the four bits above section_length, `b5`
to `b7` the header bytes 5 to 7, and each record's PID comes with three reserved bits. -/
def patSection (tid : Byte) (top : Nat) (tsId : Nat) (b5 b6 b7 : Byte) (recs : List (Nat × Nat)) (crc : List Byte) :
    List Byte :=
  [tid] ++ two (top * 4096 + (9 + 4 * recs.length)) ++ two tsId ++ [b5, b6, b7] ++
    (recs.map (fun r => two r.1 ++ two r.2)).flatten ++ crc

/-- The ES records of a PMT section (R149): stream_type, elementary_PID with its three reserved bits, four reserved bits
above ES_info_length, descriptors. -/
abbrev esBytes (r : Byte × Nat × Nat × List Byte) : List Byte :=
  [r.1] ++ two r.2.1 ++ two (r.2.2.1 * 4096 + r.2.2.2.length) ++ r.2.2.2

/-- A PMT section built from its fields (R147, R149). -/
def pmtSection (tid : Byte) (top : Nat) (prog : Nat) (b5 b6 b7 : Byte) (pcr : Nat) (top2 : Nat) (descs : List Byte)
    (recs : List (Byte × Nat × Nat × List Byte)) (crc : List Byte) : List Byte :=
  [tid] ++ two (top * 4096 + (13 + descs.length + (recs.map esBytes).flatten.length)) ++ two prog ++ [b5, b6, b7] ++
    two pcr ++ two (top2 * 4096 + descs.length) ++ descs ++ (recs.map esBytes).flatten ++ crc

/-- The three segments of a 33-bit timestamp with a 4-bit prefix and marker bits 1 (44_pes.md R371). -/
def timestampBytes (pre : Nat) (v : Nat) : List Byte :=
  [BitVec.ofNat 8 (pre * 16 + v / 2 ^ 30 % 8 * 2 + 1)] ++ two (v / 2 ^ 15 % 2 ^ 15 * 2 + 1) ++ two (v % 2 ^ 15 * 2 + 1)

/-- The value of five TIMESTAMP bytes at index o (R152). -/
abbrev timestamp (b : List Byte) (o : Nat) : Nat :=
  byte b o / 2 % 8 * 2 ^ 30 + pair b (o + 1) / 2 * 2 ^ 15 + pair b (o + 3) / 2

/-- A CLOCKREF for a base and an extension with six reserved bits (30_encoding.md R144). -/
def clockBytes (base res ext : Nat) : List Byte :=
  [BitVec.ofNat 8 (base / 2 ^ 25), BitVec.ofNat 8 (base / 2 ^ 17), BitVec.ofNat 8 (base / 2 ^ 9),
    BitVec.ofNat 8 (base / 2), BitVec.ofNat 8 (base % 2 * 128 + res * 2 + ext / 256), BitVec.ofNat 8 ext]

/-- The base of six CLOCKREF bytes at o: c0<<25 | c1<<17 | c2<<9 | c3<<1 | c4>>7 (R144, R243). -/
abbrev clockBaseOf (b : List Byte) (o : Nat) : Nat :=
  byte b o * 2 ^ 25 + byte b (o + 1) * 2 ^ 17 + byte b (o + 2) * 2 ^ 9 + byte b (o + 3) * 2 + byte b (o + 4) / 128

/-- The extension of six CLOCKREF bytes at o: (c4 & 1)<<8 | c5. -/
abbrev clockExtOf (b : List Byte) (o : Nat) : Nat := byte b (o + 4) % 2 * 256 + byte b (o + 5)

/-- The word offsets of the register map (10_state.md R36). -/
def mapOffsets (p : Params) : List Nat :=
  [0x000, 0x004, 0x008, 0x00C, 0x010, 0x014, 0x018, 0x01C, 0x020, 0x024, 0x028, 0x02C, 0x030,
    0x040, 0x044, 0x048, 0x04C, 0x050, 0x054, 0x058, 0x05C, 0x060, 0x064, 0x068, 0x06C, 0x070, 0x074] ++
  (List.range p.nCtx).map (fun i => 0x100 + 4 * i) ++ (List.range p.nCtx).map (fun i => 0x140 + 4 * i) ++
  [0x200, 0x204, 0x208, 0x210, 0x214, 0x218, 0x21C] ++
  (List.range p.patMax).map (fun k => 0x400 + 4 * k) ++
  (List.range p.pmtEsMax).map (fun k => 0x800 + 8 * k) ++ (List.range p.pmtEsMax).map (fun k => 0x804 + 8 * k)

/-- LAST_AF of a packet (40_framer.md R208). -/
abbrev lastAfOf (p : List Byte) : Nat :=
  if hasAf p then byte p 4 + 256 * (if 0 < byte p 4 then byte p 5 else 0) + 65536 + 131072 * num (decide (0 < byte p 4))
  else 0

/-- Whether the PCR and the OPCR of a packet with an adaptation field of legal length are flagged and fit. -/
abbrev pcrIn (p : List Byte) : Bool := decide (7 ≤ byte p 4) && afFlag p 4
abbrev opcrIn (p : List Byte) : Bool := decide (0 < byte p 4) && afFlag p 3 && decide (opcrNeeds p ≤ byte p 4)

/-- The adaptation field of a packet with a length byte of at most 183 (41_adaptation.md R240, R243, R244). -/
def adaptation (p : List Byte) : AfInfo where
  len := p.getD 4 0#8
  fp := decide (0 < byte p 4)
  flags := if 0 < byte p 4 then p.getD 5 0#8 else 0#8
  rai := decide (0 < byte p 4) && afFlag p 6
  pcrF := decide (0 < byte p 4) && afFlag p 4
  opcrF := decide (0 < byte p 4) && afFlag p 3
  pcrV := pcrIn p
  pcrBase := if pcrIn p then BitVec.ofNat 33 (clockBaseOf p 6) else 0
  pcrExt := if pcrIn p then BitVec.ofNat 9 (clockExtOf p 6) else 0
  opcrV := opcrIn p
  opcrBase := if opcrIn p then BitVec.ofNat 33 (clockBaseOf p (opcrNeeds p - 1)) else 0
  opcrExt := if opcrIn p then BitVec.ofNat 9 (clockExtOf p (opcrNeeds p - 1)) else 0

/-- An AF or OPCR event record with its clock, if any (30_encoding.md R171, 41_adaptation.md R247). -/
def clockRecord (type i : Nat) (k : BitVec 32) (p : List Byte) (valid : Bool) (base ext : Nat) : EvRec where
  w0 := BitVec.ofNat 32 (type + 16 * i + 256 * byte p 5 + 65536 * byte p 4)
  w1 := k
  w2 := BitVec.ofNat 32 (if valid then base % 2 ^ 32 else 0)
  w3 := BitVec.ofNat 32 (if valid then 2 ^ 31 + 512 * (base / 2 ^ 32) + ext else 0)

/-- Context i reports the adaptation field of a packet (R247). -/
abbrev reportsAf (afev : Bool) (p : List Byte) : Bool :=
  afev && hasAf p && decide (0 < byte p 4) && decide (byte p 4 ≤ 183)

/-- The AF event and the OPCR event of a packet claimed by context i (R247). -/
def afRecord (i : Nat) (afev : Bool) (k : BitVec 32) (p : List Byte) : Option EvRec :=
  if reportsAf afev p then some (clockRecord 1 i k p (pcrIn p) (clockBaseOf p 6) (clockExtOf p 6)) else none
def opcrRecord (i : Nat) (afev : Bool) (k : BitVec 32) (p : List Byte) : Option EvRec :=
  if reportsAf afev p && opcrIn p then
    some (clockRecord 2 i k p true (clockBaseOf p (opcrNeeds p - 1)) (clockExtOf p (opcrNeeds p - 1)))
  else none

/-- The ERR event of a packet claimed by context i, none when it raised nothing (60_exceptions.md R502). -/
def errorRecord (i : Nat) (k : BitVec 32) (p : List Byte) (errs : Nat) (unitSeq : Option Nat) (ptr : Option Nat) :
    Option EvRec :=
  if errs = 0 then none
  else some {
    w0 := BitVec.ofNat 32 (15 + 16 * i + 256 * errs + 65536 * unitSeq.getD 0)
    w1 := k
    w2 := BitVec.ofNat 32 ((if hasAf p then byte p 4 else 0) + 256 * ptr.getD 0 + 65536 * num (hasAf p)
      + 131072 * num ptr.isSome)
    w3 := BitVec.ofNat 32 (num unitSeq.isSome) }

/-- The state in which the operations of a frame run: packet index, packet, nothing else (40_framer.md R200). -/
def opened (s : State) (p : List Byte) : State := { s with flight := { Flight.idle with k := s.pktIndex, p := p } }

/-- A frame of context i that raises nothing by its header or adaptation field. -/
def Clean (s : State) (i : Nat) (fr : List Byte) : Prop :=
  fr.length = (match s.ctrl.frameSize with | .b188 => 188 | .b192 => 192 | .b204 => 204) ∧
  ClaimedBy s (pidOf (packet fr)) i ∧ byte (packet fr) 0 = 0x47 ∧ afBad (packet fr) = false

/-- The port takes a frame now. -/
def Open (s : State) : Prop :=
  s.ctrl.en = true ∧ s.evq.length + 4 ≤ s.params.evqDepth ∧ s.uq.length < s.params.uqDepth

/-- A state with another context i. -/
abbrev withCtx (s : State) (i : Nat) (c : Context) : State := { s with ctx := s.ctx.set i c }

/-- What the turn of a step is: the reset input, or a host word that selects one of the given operations. -/
def ResetTurn (s : State) : Prop :=
  (∃ rest, s.turns = .reset 1#1 :: rest) ∨
  ∃ w rest, s.turns = .host w :: rest ∧ Instr.cmdSoftReset ∈ decodeHost s.params.nCtx w

end Sys2Proof.Claims

open Sys2Proof.Claims

/-! ## Encoding -/

/-- Every well-formed operation is read back from its own word, with every operand at every value (30_encoding.md R160,
R180, R181). The selection points of the operations inside a frame are the model's (log 6). -/
def Obligations.DecodeEncodeAgree : Prop :=
  ∀ (nCtx : Nat) (i : Instr), nCtx ≤ 16 → i.wellFormed nCtx = true → decode nCtx (encode i) = .ok [i]

/-- The decoder gives only operations whose fixed bits and operand ranges are those of their rows. -/
def Obligations.DecodedOperationsAreWellFormed : Prop :=
  ∀ (nCtx : Nat) (e : Encoded) (is : List Instr), decode nCtx e = .ok is → ∀ i ∈ is, i.wellFormed nCtx = true

/-- Each HR and HW row of opcode_table.json is selected exactly by the words with (word & mask) = match, for the
reference N_CTX = 8; WR_IGNORED by the writes no other row matches (30_encoding.md R181); operands are the named bits. -/
def Obligations.HostWordSelectsItsTableRow : Prop :=
  ∀ w : PortWord,
    let is := decodeHost 8 w
    let row (mask val : PortWord) : Prop := w &&& mask = val
    let data := w.toNat % 2 ^ 32
    ((∃ a, Instr.regRead a ∈ is) ↔ row 0x100000000000#45 0#45) ∧
    ((∃ d, Instr.wrCtrl d ∈ is) ↔ row 0x1FFC00000000#45 0x100400000000#45) ∧
    ((∃ i d, Instr.wrCtxCfg i d ∈ is) ↔ row 0x1FE000000000#45 0x110000000000#45) ∧
    ((∃ d, Instr.wrIrqEn d ∈ is) ↔ row 0x1FFC00000000#45 0x101000000000#45) ∧
    ((∃ d, Instr.wrErrStatus d ∈ is) ↔ row 0x1FFC00000000#45 0x101800000000#45) ∧
    ((∃ d, Instr.wrUnitRdptr d ∈ is) ↔ row 0x1FFC00000000#45 0x107000000000#45) ∧
    (Instr.cmdSoftReset ∈ is ↔ row 0x1FFC00000001#45 0x100800000001#45) ∧
    (Instr.cmdEvPop ∈ is ↔ row 0x1FFC00000005#45 0x100800000004#45) ∧
    (Instr.cmdClrTables ∈ is ↔ row 0x1FFC00000003#45 0x100800000002#45) ∧
    (Instr.cmdUnitPop ∈ is ↔ row 0x1FFC00000009#45 0x100800000008#45) ∧
    ((∃ a d, Instr.wrIgnored a d ∈ is) ↔
      (row 0x100000000000#45 0x100000000000#45 ∧ ¬ row 0x1FFC00000000#45 0x100400000000#45 ∧
        ¬ row 0x1FE000000000#45 0x110000000000#45 ∧ ¬ row 0x1FFC00000000#45 0x101000000000#45 ∧
        ¬ row 0x1FFC00000000#45 0x101800000000#45 ∧ ¬ row 0x1FFC00000000#45 0x107000000000#45 ∧
        ¬ row 0x1FFC00000001#45 0x100800000001#45 ∧ ¬ row 0x1FFC00000005#45 0x100800000004#45 ∧
        ¬ row 0x1FFC00000003#45 0x100800000002#45 ∧ ¬ row 0x1FFC00000009#45 0x100800000008#45)) ∧
    (∀ i d, Instr.wrCtxCfg i d ∈ is → i = w.toNat / 2 ^ 34 % 8 ∧ d.toNat = data) ∧
    (∀ d, Instr.wrCtrl d ∈ is ∨ Instr.wrIrqEn d ∈ is ∨ Instr.wrErrStatus d ∈ is ∨ Instr.wrUnitRdptr d ∈ is →
      d.toNat = data) ∧
    (∀ a, Instr.regRead a ∈ is → a.toNat = w.toNat / 2 ^ 32 % 2 ^ 12)

/-- A few words decode to the operations they stand for: host words and the reset level written out from the spec's
encodings (30_encoding.md R160), and format words of operations inside a frame (R180), given at selection points that are
the model's (log 6). -/
def Obligations.SpecWordsDecode : Prop :=
  decode 8 (.host 0x100400000005#45) = .ok [.wrCtrl 5#32] ∧
  decode 8 (.host 0x11040000000B#45) = .ok [.wrCtxCfg 1 0xB#32] ∧
  decode 8 (.host 0x112000000000#45) = .ok [.wrIgnored 0x120#12 0#32] ∧
  decode 8 (.host 0x10080000000E#45) = .ok [.cmdClrTables, .cmdEvPop, .cmdUnitPop] ∧
  decode 8 (.host 0x00040C00000000#45) = .ok [.regRead 0x40C#12] ∧
  decode 8 (.op (.afcClass 0x47410030#32)) = .ok [.pktAfPayload 0x47410030#32] ∧
  decode 8 (.op (.claimed 2 .pes 0x47410130#32)) = .ok [.pesStart 2 0x47410130#32] ∧
  decode 8 (.op (.table 0x0000000B#32)) = .ok [.patDecode 0x0000000B#32] ∧
  decode 8 (.reset 1#1) = .ok [.reset]

/-! ## The step -/

/-- A step performs exactly the operations that the word of the next turn selects: INPUT's accepted frame, a host word,
the reset input, a single operation; several CMD operations one after the other (00_scope.md R6, R7). -/
def Obligations.StepRunsTheDecodedOperations : Prop :=
  (∀ (s : State) (rest : List Turn) (fr : List Byte) (more : List (List Byte)),
    s.turns = .input :: rest → s.offers = fr :: more → Accepts s fr →
    step s = exec (.frame fr) { s with turns := rest, offers := more }) ∧
  (∀ (s : State) (rest : List Turn) (w : PortWord) (i : Instr),
    s.turns = .host w :: rest → decodeHost s.params.nCtx w = [i] → step s = exec i { s with turns := rest }) ∧
  (∀ (s t : State) (rest : List Turn) (w : PortWord) (i : Instr) (is : List Instr),
    s.turns = .host w :: rest → decodeHost s.params.nCtx w = i :: is → exec i { s with turns := rest } = .next t →
    step s = execAll is t) ∧
  (∀ (s : State) (rest : List Turn), s.turns = .reset 1#1 :: rest → step s = exec .reset { s with turns := rest }) ∧
  (∀ (s : State) (rest : List Turn), s.turns = .reset 0#1 :: rest → step s = .next { s with turns := rest }) ∧
  (∀ s : State, s.turns = [] → step s = .next s) ∧
  (∀ (s : State) (rest : List Turn) (sel : Selector) (i : Instr),
    s.turns = .op sel :: rest → decodeOp s.params.nCtx sel = .ok i → step s = exec i { s with turns := rest })

/-- While the port is held no FRAME transaction happens: the operation changes nothing, and INPUT's turn passes with its
frame still waiting (log 2). A frame of another length than F at an open port is refused; that the hold is looked at before
the length, and that the refusal is by name, is the model's (log 3). -/
def Obligations.HeldFrameWaitsAndWrongLengthIsRefused : Prop :=
  (∀ (s : State) (fr : List Byte), Held s → Answers (.frame fr) s s) ∧
  (∀ (s : State) (rest : List Turn), s.turns = .input :: rest → Held s → step s = .next { s with turns := rest }) ∧
  (∀ (s : State) (fr : List Byte), ¬ Held s → ¬ Accepts s fr → exec (.frame fr) s = .refused .frameLength) ∧
  (∀ (s : State) (fr : List Byte), Accepts s fr → ¬ Held s ∧ ∃ t, Answers (.frame fr) s t)

/-! ## Register reads -/

/-- A read changes nothing but the data the port returns; reading again gives the same data; address bits 1:0 do not
matter. -/
def Obligations.ReadsHaveNoSideEffect : Prop :=
  ∀ (s : State) (a : Addr), ∃ v : Word,
    Answers (.regRead a) s { s with rdata := v } ∧
    Answers (.regRead a) { s with rdata := v } { s with rdata := v } ∧
    ∀ b : Addr, b.toNat / 4 = a.toNat / 4 → Answers (.regRead b) s { s with rdata := v }

/-- Address bits 1:0 of a register transaction are ignored: byte addresses of one word give the same write and the same
read; no register transaction at any address stops. -/
def Obligations.RegisterAddressIsAWordAddress : Prop :=
  ∀ (s : State) (a b : Addr) (d : Word), a.toNat / 4 = b.toNat / 4 →
    perform (.host (hostWrite a d)) s = perform (.host (hostWrite b d)) s ∧
    perform (.host (hostRead a)) s = perform (.host (hostRead b)) s ∧
    (∃ t, perform (.host (hostWrite a d)) s = .next t) ∧ (∃ t, perform (.host (hostRead a)) s = .next t)

/-- ID, PARAMS and PARAMS2 read the constants of the instance, and no step changes the parameters. -/
def Obligations.IdentificationIsConstant : Prop :=
  (∀ s : State, s.params.legal →
    Reads s 0x000 0x54534631 ∧
    Reads s 0x02C (s.params.nCtx + 256 * s.params.evqDepth + 65536 * s.params.uqDepth) ∧
    Reads s 0x030 (s.params.patMax + 65536 * s.params.pmtEsMax)) ∧
  (∀ s t : State, step s = .next t → t.params = s.params)

/-- STATUS reads the queue conditions, the hold and the counts; it reads 4 after reset. -/
def Obligations.StatusReadsQueuesAndHold : Prop :=
  (∀ s : State, s.Inv → ∀ hold : Bool, (hold = true ↔ Held s) →
    Reads s 0x00C (num (decide (s.evq ≠ [])) + 2 * num (decide (s.uq ≠ [])) + 4 * num hold + 256 * s.evq.length
      + 65536 * s.uq.length)) ∧
  (∀ s t : State, Answers .reset s t → Reads t 0x00C 4)

/-- IRQ_STATUS reads the three conditions unmasked and the interrupt level, the enabled OR of them; reset lowers it. -/
def Obligations.InterruptLevelAndStatus : Prop :=
  ∀ s : State,
    let ev := decide (s.evq ≠ [])
    let un := decide (s.uq ≠ [])
    let er := decide (s.errStatus ≠ 0#7)
    irq s = ((s.irqEn.getLsbD 0 && ev) || (s.irqEn.getLsbD 1 && un) || (s.irqEn.getLsbD 2 && er)) ∧
    Reads s 0x014 (num ev + 2 * num un + 4 * num er + 8 * num (irq s)) ∧
    (∀ t, Answers .reset s t → irq t = false)

/-- EV_W0 to EV_W3 read the four words of the head event record, 0 when the queue is empty. -/
def Obligations.EventWordsReadTheHead : Prop :=
  ∀ s : State,
    (s.evq = [] → Reads s 0x040 0 ∧ Reads s 0x044 0 ∧ Reads s 0x048 0 ∧ Reads s 0x04C 0) ∧
    (∀ e es, s.evq = e :: es → Reads s 0x040 e.w0.toNat ∧ Reads s 0x044 e.w1.toNat ∧ Reads s 0x048 e.w2.toNat ∧
      Reads s 0x04C e.w3.toNat)

/-- UNIT_D0 to UNIT_D7 read the head unit's descriptor field by field, 0 when the queue is empty; D4 to D7 are 0 for a
section unit and for a PES unit with PESHDR = 0, a timestamp is 0 when it is not valid. -/
def Obligations.UnitDescriptorLayout : Prop :=
  ∀ s : State,
    (s.uq = [] → ∀ j < 8, Reads s (0x050 + 4 * j) 0) ∧
    (∀ u us, s.uq = u :: us → u.data.length < 2 ^ 24 →
      let pes := u.isPes && u.pesHdr
      let pts := if pes && u.ptsV then u.pts.toNat else 0
      let dts := if pes && u.dtsV then u.dts.toNat else 0
      Reads s 0x050 (u.ctx.toNat + 16 * num u.isPes + 32 * num u.ovf + 64 * num u.ptrErr + 128 * num u.hdrErr
        + 256 * num u.pesHdr + 512 * num u.ptsV + 1024 * num u.dtsV + 65536 * u.seq.toNat) ∧
      Reads s 0x054 u.data.length ∧ Reads s 0x058 u.startPkt.toNat ∧ Reads s 0x05C u.endPkt.toNat ∧
      Reads s 0x060 (if pes then u.ppl.toNat + 65536 * u.sid.toNat + 16777216 * u.hdl.toNat else 0) ∧
      Reads s 0x064 (pts % 2 ^ 32) ∧ Reads s 0x068 (dts % 2 ^ 32) ∧
      Reads s 0x06C (if pes then pts / 2 ^ 32 + 2 * (dts / 2 ^ 32) + 4 * u.pdf.toNat else 0))

/-- UNIT_DATA reads four bytes of the head unit from UNIT_RDPTR, most significant first, 0 past its end and when the
queue is empty; UNIT_RDPTR holds the low 24 bits written, reads them back, and is zeroed by UNIT_POP and by reset. -/
def Obligations.UnitDataReadsFromThePointer : Prop :=
  ∀ s : State,
    (s.uq = [] → Reads s 0x074 0) ∧
    (∀ u us, s.uq = u :: us →
      let d (j : Nat) := if s.unitRdptr.toNat + j < u.data.length then byte u.data (s.unitRdptr.toNat + j) else 0
      Reads s 0x074 (d 0 * 2 ^ 24 + d 1 * 2 ^ 16 + d 2 * 2 ^ 8 + d 3)) ∧
    Reads s 0x070 s.unitRdptr.toNat ∧
    (∀ d : Word, Answers (.wrUnitRdptr d) s { s with unitRdptr := BitVec.ofNat 24 (d.toNat % 2 ^ 24) }) ∧
    Answers .cmdUnitPop s { s with uq := s.uq.drop 1, unitRdptr := 0 } ∧
    (∀ t, Answers .reset s t → t.unitRdptr = 0)

/-- CTX_STAT[i] reads the context's flags and its buffer's length; it reads 0 after reset. -/
def Obligations.ContextStatusReads : Prop :=
  ∀ (s : State) (i : Nat) (c : Context), s.Inv → s.ctx[i]? = some c →
    Reads s (0x140 + 4 * i) (num c.st.pending + 2 * num c.st.ovf + 4 * num c.st.ptrErr + 8 * num c.st.hdrErr
      + 256 * c.st.buf.length) ∧
    (∀ t, Answers .reset s t → Reads t (0x140 + 4 * i) 0)

/-- The PAT and PMT registers read the tables' fields, the entry registers 0 past the entries held. -/
def Obligations.TableRegistersRead : Prop :=
  ∀ s : State, s.Inv →
    Reads s 0x200 (s.pat.tableId.toNat + 2 ^ 8 * s.pat.version.toNat + 2 ^ 31 * num s.pat.valid) ∧
    Reads s 0x204 (s.pat.tsId.toNat + 2 ^ 16 * s.pat.sectionLength.toNat) ∧
    Reads s 0x208 (s.pat.n.toNat + 2 ^ 31 * num s.pat.trunc) ∧
    (∀ k < s.params.patMax, Reads s (0x400 + 4 * k)
      (match s.pat.entries[k]? with | none => 0 | some e => 2 ^ 16 * e.programNumber.toNat + e.pid.toNat)) ∧
    Reads s 0x210 (s.pmt.programNumber.toNat + 2 ^ 16 * s.pmt.pcrPid.toNat + 2 ^ 31 * num s.pmt.valid) ∧
    Reads s 0x214 (s.pmt.programInfoLength.toNat + 2 ^ 16 * s.pmt.tableId.toNat) ∧
    Reads s 0x218 s.pmt.sectionLength.toNat ∧
    Reads s 0x21C (s.pmt.es.length + 2 ^ 31 * num s.pmt.trunc) ∧
    (∀ k < s.params.pmtEsMax, Reads s (0x800 + 8 * k)
      (match s.pmt.es[k]? with | none => 0 | some e => e.streamType.toNat + 2 ^ 16 * e.pid.toNat)) ∧
    (∀ k < s.params.pmtEsMax, Reads s (0x804 + 8 * k)
      (match s.pmt.es[k]? with | none => 0 | some e => e.esInfoLength.toNat))

/-- An address whose word is not in the register map reads 0, and a write there changes nothing. -/
def Obligations.ReservedOffsetsReadZeroAndIgnoreWrites : Prop :=
  ∀ (s : State) (a : Addr), s.params.legal → a.toNat / 4 * 4 ∉ mapOffsets s.params →
    Reads s a.toNat 0 ∧ ∀ d : Word, perform (.host (hostWrite a d)) s = .next s

/-! ## Register writes and commands -/

/-- WR_CTRL: EN from bit 0; FRAME_SIZE from bits 2:1 only when EN was 0 and the value is not 3; nothing else changes. CTRL
reads EN in bit 0 and FRAME_SIZE (0, 1, 2 for 188, 192, 204 bytes) in bits 2:1. -/
def Obligations.CtrlWriteResult : Prop :=
  ∀ (s : State) (d : Word), ∃ size : FrameSize,
    Answers (.wrCtrl d) s { s with ctrl := ⟨d.toNat % 2 == 1, size⟩ } ∧
    (s.ctrl.en = true ∨ d.toNat / 2 % 4 = 3 → size = s.ctrl.frameSize) ∧
    (s.ctrl.en = false → d.toNat / 2 % 4 = 0 → size = .b188) ∧
    (s.ctrl.en = false → d.toNat / 2 % 4 = 1 → size = .b192) ∧
    (s.ctrl.en = false → d.toNat / 2 % 4 = 2 → size = .b204) ∧
    Reads s 0x004 (num s.ctrl.en + 2 * (match s.ctrl.frameSize with | .b188 => 0 | .b192 => 1 | .b204 => 2))

/-- WR_CTX_CFG: the fields are stored, KIND and PARSE 3 as 0, the context is cleared, nothing else changes; the register
reads the fields back. -/
def Obligations.ContextWriteResult : Prop :=
  ∀ (s : State) (i : Nat) (c : Context) (d : Word), s.Inv → s.ctx[i]? = some c → ∃ cfg : CtxCfg,
    Answers (.wrCtxCfg i d) s { s with ctx := s.ctx.set i ⟨cfg, .reset⟩ } ∧
    cfg.en = (d.toNat % 2 == 1) ∧
    cfg.kind = (if d.toNat / 2 % 4 = 1 then .sec else if d.toNat / 2 % 4 = 2 then .pes else .none) ∧
    cfg.parse = (if d.toNat / 8 % 4 = 1 then .pat else if d.toNat / 8 % 4 = 2 then .pmt else .none) ∧
    cfg.afev = (d.toNat / 32 % 2 == 1) ∧
    cfg.pid.toNat = d.toNat / 65536 % 8192 ∧
    Reads { s with ctx := s.ctx.set i ⟨cfg, .reset⟩ } (0x100 + 4 * i)
      (d.toNat % 2 + (if d.toNat / 2 % 4 = 3 then 0 else d.toNat / 2 % 4) * 2
        + (if d.toNat / 8 % 4 = 3 then 0 else d.toNat / 8 % 4) * 8 + d.toNat / 32 % 2 * 32
        + d.toNat / 65536 % 8192 * 65536)

/-- WR_IRQ_EN stores the low three bits and changes nothing else; the register reads them. -/
def Obligations.IrqEnableWriteResult : Prop :=
  ∀ (s : State) (d : Word),
    Answers (.wrIrqEn d) s { s with irqEn := BitVec.ofNat 3 (d.toNat % 8) } ∧
    Reads { s with irqEn := BitVec.ofNat 3 (d.toNat % 8) } 0x010 (d.toNat % 8)

/-- WR_ERR_STATUS clears the bits written 1 and leaves the others; nothing else changes. -/
def Obligations.ErrorStatusWriteClears : Prop :=
  ∀ (s : State) (d : Word), ∃ v : BitVec 7,
    Answers (.wrErrStatus d) s { s with errStatus := v } ∧
    (∀ n < 7, v.getLsbD n = (s.errStatus.getLsbD n && !d.getLsbD n)) ∧
    Reads { s with errStatus := v } 0x018 v.toNat

/-- WR_IGNORED changes nothing, and a write to any word but those of CTRL, CMD, IRQ_EN, ERR_STATUS, UNIT_RDPTR and
CTX_CFG[i] is one. -/
def Obligations.IgnoredWriteChangesNothing : Prop :=
  ∀ (s : State) (a : Addr) (d : Word),
    Answers (.wrIgnored a d) s s ∧
    (a.toNat / 4 * 4 ∉ [0x004, 0x008, 0x010, 0x018, 0x070] →
      (∀ i < s.params.nCtx, a.toNat / 4 * 4 ≠ 0x100 + 4 * i) → perform (.host (hostWrite a d)) s = .next s)

/-- EV_POP removes the head event record, and nothing from an empty queue; nothing else changes. -/
def Obligations.EventPopRemovesTheHead : Prop :=
  ∀ s : State,
    (s.evq = [] → Answers .cmdEvPop s s) ∧
    (∀ e es, s.evq = e :: es → Answers .cmdEvPop s { s with evq := es })

/-- CLR_TABLES empties both tables and nothing else: every table register then reads 0. -/
def Obligations.ClearTablesEmptiesBothTables : Prop :=
  ∀ s : State, ∃ t : State,
    Answers .cmdClrTables s t ∧ t = { s with pat := t.pat, pmt := t.pmt } ∧
    (s.params.legal → ∀ a : Addr, 0x200 ≤ a.toNat → Reads t a.toNat 0)

/-- The commands of one CMD write: SOFT_RESET alone when bit 0 is set, else those of bits 1 to 3 together; bits 31:4 are
ignored; a write of no command bit does nothing; CMD reads 0. -/
def Obligations.CommandWritePerformsItsBits : Prop :=
  ∀ (s : State) (d : Word),
    (d.toNat % 2 = 1 → perform (.host (hostWrite 0x008#12 d)) s = exec .reset s) ∧
    (d.toNat % 2 = 0 →
      perform (.host (hostWrite 0x008#12 d)) s = .next { s with
        pat := if d.toNat / 2 % 2 = 1 then PatTable.empty else s.pat
        pmt := if d.toNat / 2 % 2 = 1 then PmtTable.empty else s.pmt
        evq := if d.toNat / 4 % 2 = 1 then s.evq.drop 1 else s.evq
        uq := if d.toNat / 8 % 2 = 1 then s.uq.drop 1 else s.uq
        unitRdptr := if d.toNat / 8 % 2 = 1 then 0 else s.unitRdptr }) ∧
    Reads s 0x008 0

/-- RESET and SOFT_RESET leave every piece of the block's state at its reset value, keep the parameters, and have the
same effect; right after, every address reads 0 but ID, STATUS (4), PARAMS and PARAMS2, and IRQ is low. -/
def Obligations.ResetLeavesTheResetValues : Prop :=
  ∀ s : State, ∃ t : State,
    Answers .reset s t ∧ Answers .cmdSoftReset s t ∧
    t.params = s.params ∧ t.ctrl = ⟨false, .b188⟩ ∧ t.irqEn = 0 ∧ t.errStatus = 0 ∧ t.pktIndex = 0 ∧ t.dropCount = 0 ∧
    t.seq = 0 ∧ t.lastHdr = 0 ∧ t.lastAf = 0 ∧ t.evq = [] ∧ t.uq = [] ∧ t.unitRdptr = 0 ∧
    t.ctx = List.replicate s.params.nCtx
      ⟨⟨false, .none, .none, false, 0⟩, ⟨false, [], false, false, false, 0, false, 0, 0, 0, 0, false, 0, false, 0⟩⟩ ∧
    t.pat = ⟨false, 0, 0, 0, 0, 0, false, []⟩ ∧ t.pmt = ⟨false, 0, 0, 0, 0, 0, false, []⟩ ∧
    irq t = false ∧
    (s.params.legal → Reads t 0x00C 4 ∧ ∀ a : Addr, a.toNat / 4 * 4 ∉ [0x000, 0x00C, 0x02C, 0x030] → Reads t a.toNat 0)

/-- A reset leaves the agents' side of the ports, what INPUT has to offer, the turns to come and the data last returned:
they are no state of the block. The model's choice (log 4). -/
def Obligations.ResetLeavesTheAgentsSide : Prop :=
  ∀ s : State, ∀ op ∈ [Instr.reset, Instr.cmdSoftReset], ∃ t, Answers op s t ∧
    t.offers = s.offers ∧ t.turns = s.turns ∧ t.rdata = s.rdata ∧ t.flight = Flight.idle

/-! ## Header, routing and adaptation field -/

/-- PKT_HDR keeps the header word and raises SYNC when its first byte is not 0x47, nothing else; the fields the later
operations use are those of the header word. -/
def Obligations.HeaderDecodeReportsSync : Prop :=
  ∀ (s : State) (h : Word),
    Answers (.pktHdr h) s { s with flight := { s.flight with
      h := h, errs := s.flight.errs ||| mask (decide (h.toNat / 2 ^ 24 ≠ 0x47)) 0 } } ∧
    (hdrPid h).toNat = h.toNat / 256 % 8192 ∧ (hdrAfc h).toNat = h.toNat / 16 % 4 ∧
    hdrPusi h = (h.toNat / 2 ^ 22 % 2 == 1)

/-- PKT_AFC00 and PKT_PAYLOAD: no adaptation field; no payload and no reassembly, or the 184 bytes from byte 4. -/
def Obligations.PayloadClassesResult : Prop :=
  ∀ (s : State) (h : Word),
    (∃ ok, Answers (.pktAfc00 h) s { s with flight := { s.flight with af := none, ok := ok, pl := [], ra := false } }) ∧
    (s.flight.p.length = 188 →
      ∃ ok, Answers (.pktPayload h) s
        { s with flight := { s.flight with af := none, ok := ok, pl := s.flight.p.drop 4, ra := true } })

/-- PKT_AF and PKT_AF_PAYLOAD: AF_DECODE, then an empty payload, or the bytes after the adaptation field; `ra` is the
second result of AF_DECODE. -/
def Obligations.AdaptationClassesFollowAfDecode : Prop :=
  ∀ (s : State) (h : Word), s.flight.p.length = 188 → ∃ u, Answers (.afDecode h) s u ∧
    Answers (.pktAf h) s { u with flight := { u.flight with pl := [], ra := u.flight.ok } } ∧
    Answers (.pktAfPayload h) s { u with flight := { u.flight with
      pl := if u.flight.ok then s.flight.p.drop (5 + byte s.flight.p 4) else [], ra := u.flight.ok } }

/-- AF_DECODE: a length over 183 raises AF_LEN and gives no adaptation field; else its fields are the packet's, with a
flagged PCR or OPCR that does not fit raising AF_LEN. -/
def Obligations.AdaptationFieldDecode : Prop :=
  ∀ (s : State) (h : Word),
    let p := s.flight.p
    p.length = 188 →
    (183 < byte p 4 →
      Answers (.afDecode h) s
        { s with flight := { s.flight with af := none, ok := false, errs := s.flight.errs ||| mask true 1 } }) ∧
    (byte p 4 ≤ 183 →
      Answers (.afDecode h) s { s with flight := { s.flight with
        af := some (adaptation p), ok := true
        errs := s.flight.errs ||| mask (decide (0 < byte p 4) && ((afFlag p 4 && decide (byte p 4 < 7)) ||
          (afFlag p 3 && decide (byte p 4 < opcrNeeds p)))) 1 } })

/-- PCR_EXTRACT and OPCR_EXTRACT: base and extension from the six bytes when they lie inside the adaptation field, else
AF_LEN and no value. -/
def Obligations.ClockExtraction : Prop :=
  ∀ (s : State) (af : AfInfo) (flags : Byte), s.flight.af = some af → s.flight.p.length = 188 →
    let p := s.flight.p
    let o := if flags.toNat / 16 % 2 = 1 then 12 else 6
    (7 ≤ af.len.toNat →
      Answers (.pcrExtract flags) s { s with flight := { s.flight with af := some { af with
        pcrV := true, pcrBase := BitVec.ofNat 33 (clockBaseOf p 6), pcrExt := BitVec.ofNat 9 (clockExtOf p 6) } } }) ∧
    (af.len.toNat < 7 →
      Answers (.pcrExtract flags) s { s with flight := { s.flight with errs := s.flight.errs ||| mask true 1 } }) ∧
    (o + 1 ≤ af.len.toNat →
      Answers (.opcrExtract flags) s { s with flight := { s.flight with af := some { af with
        opcrV := true, opcrBase := BitVec.ofNat 33 (clockBaseOf p o), opcrExt := BitVec.ofNat 9 (clockExtOf p o) } } }) ∧
    (af.len.toNat < o + 1 →
      Answers (.opcrExtract flags) s { s with flight := { s.flight with errs := s.flight.errs ||| mask true 1 } })

/-- Encoding a 27 MHz value v as base v div 300 and extension v mod 300 into a CLOCKREF and decoding it gives that base and
that extension; encoding a 33-bit value into a TIMESTAMP and decoding it gives the value; whatever the reserved bits and
the prefix. -/
def Obligations.ClockAndTimestampRoundTrips : Prop :=
  (∀ (s : State) (af : AfInfo) (flags : Byte) (v res : Nat) (front rest : List Byte),
    v < 2 ^ 33 * 300 → res < 64 → s.flight.af = some af → 7 ≤ af.len.toNat → front.length = 6 →
    s.flight.p = front ++ clockBytes (v / 300) res (v % 300) ++ rest →
    ∃ base ext, Answers (.pcrExtract flags) s { s with flight := { s.flight with af := some { af with
      pcrV := true, pcrBase := base, pcrExt := ext } } } ∧ base.toNat = v / 300 ∧ ext.toNat = v % 300) ∧
  (∀ (s : State) (i : Nat) (c : Context) (b7 : Byte) (v pre : Nat) (front rest : List Byte),
    v < 2 ^ 33 → pre < 16 → s.ctx[i]? = some c →
    s.flight.pl = front ++ timestampBytes pre v ++ rest →
    (front.length = 9 → Answers (.ptsDecode i b7) s (withCtx s i
      { c with st := { c.st with pts := BitVec.ofNat 33 v, ptsV := true } })) ∧
    (front.length = 14 → Answers (.dtsDecode i b7) s (withCtx s i
      { c with st := { c.st with dts := BitVec.ofNat 33 v, dtsV := true } })))

/-- ROUTE: the lowest enabled context that holds the PID claims the frame, none when no enabled context holds it. -/
def Obligations.RouteFindsTheLowestContext : Prop :=
  ∀ (s : State) (h : Word),
    (∀ i, ClaimedBy s (h.toNat / 256 % 8192) i →
      Answers (.route h) s { s with flight := { s.flight with claim := some i } }) ∧
    ((∀ (i : Nat) (c : Context), s.ctx[i]? = some c → ¬ (c.cfg.en = true ∧ c.cfg.pid.toNat = h.toNat / 256 % 8192)) →
      Answers (.route h) s { s with flight := { s.flight with claim := none } })

/-- DROP counts the frame modulo 2^32; CTX_NONE does nothing. -/
def Obligations.DropCountsAndNoneDoesNothing : Prop :=
  ∀ (s : State) (i : Nat) (h : Word),
    Answers (.drop h) s { s with dropCount := BitVec.ofNat 32 (s.dropCount.toNat + 1) } ∧ Answers (.ctxNone i h) s s

/-! ## Reassembly -/

/-- SEC_CONT and PES_CONT: before the first boundary nothing; else the payload is appended up to the capacity, the first
bytes dropped from the unit raising BUF_OVF. -/
def Obligations.ContinuationAppends : Prop :=
  ∀ (s : State) (i : Nat) (c : Context) (h : Word),
    let cap := s.params.bufBytes i
    let lost := decide (cap < c.st.buf.length + s.flight.pl.length)
    s.ctx[i]? = some c → c.st.buf.length ≤ cap →
    ∀ op ∈ [Instr.secCont i h, Instr.pesCont i h],
      (c.st.pending = false → Answers op s s) ∧
      (c.st.pending = true → Answers op s { s with
        ctx := s.ctx.set i
          { c with st := { c.st with buf := fill cap c.st.buf s.flight.pl, ovf := c.st.ovf || lost } }
        flight := { s.flight with errs := s.flight.errs ||| mask (lost && !c.st.ovf) 5 } })

/-- SEC_START without a payload raises POINTER and changes nothing; at a context's first boundary it emits nothing and
begins a unit after the pointer, flagged when the pointer does not fit. -/
def Obligations.SectionStartBegins : Prop :=
  ∀ (s : State) (i : Nat) (c : Context) (h : Word),
    let pl := s.flight.pl
    let cap := s.params.bufBytes i
    let bad := decide (pl.length < 1 + byte pl 0)
    let rest := pl.drop (1 + byte pl 0)
    s.ctx[i]? = some c →
    (pl = [] → Answers (.secStart i h) s { s with flight := { s.flight with errs := s.flight.errs ||| mask true 2 } }) ∧
    (pl ≠ [] → c.st.pending = false → Answers (.secStart i h) s { s with
      ctx := s.ctx.set i ⟨c.cfg, begun s.flight.k cap rest bad⟩
      flight := { s.flight with
        ptr := some (pl.getD 0 0#8)
        errs := s.flight.errs ||| mask bad 2 ||| mask (decide (cap < rest.length)) 5 } })

/-- SEC_START with a unit in progress: the bytes before the pointed-to byte close it, it is emitted with the next
sequence number and decoded as PARSE says, and a new unit begins with the rest. -/
def Obligations.SectionBoundaryEmits : Prop :=
  ∀ (s u : State) (i : Nat) (c : Context) (h cfg : Word),
    let pl := s.flight.pl
    let cap := s.params.bufBytes i
    let bad := decide (pl.length < 1 + byte pl 0)
    let tail := (pl.drop 1).take (byte pl 0)
    let rest := pl.drop (1 + byte pl 0)
    let lost := decide (cap < c.st.buf.length + tail.length)
    let last := { c.st with
      buf := fill cap c.st.buf tail, ovf := c.st.ovf || lost, ptrErr := c.st.ptrErr || bad }
    let emitted : State := { s with
      seq := BitVec.ofNat 16 (s.seq.toNat + 1)
      flight := { s.flight with
        ptr := some (pl.getD 0 0#8)
        unit := some (closed i false last s.seq s.flight.k)
        errs := s.flight.errs ||| mask bad 2 ||| mask (lost && !c.st.ovf) 5 } }
    s.ctx[i]? = some c → c.st.buf.length ≤ cap → c.cfg.kind = .sec → pl ≠ [] → c.st.pending = true →
    (match c.cfg.parse with
      | .none => u = emitted
      | .pat => Answers (.patDecode cfg) emitted u
      | .pmt => Answers (.pmtDecode cfg) emitted u) →
    Answers (.secStart i h) s { u with
      ctx := s.ctx.set i ⟨c.cfg, begun s.flight.k cap rest bad⟩
      flight := { u.flight with errs := u.flight.errs ||| mask (decide (cap < rest.length)) 5 } }

/-- PES_START of a payload without a start code: the unit in progress, if there is one, is emitted; a raw unit begins
with the whole payload. -/
def Obligations.PesStartRaw : Prop :=
  ∀ (s : State) (i : Nat) (c : Context) (h : Word),
    let pl := s.flight.pl
    let cap := s.params.bufBytes i
    s.ctx[i]? = some c → c.cfg.kind = .pes → pl.take 3 ≠ [0#8, 0#8, 1#8] →
    Answers (.pesStart i h) s { s with
      seq := if c.st.pending then BitVec.ofNat 16 (s.seq.toNat + 1) else s.seq
      ctx := s.ctx.set i ⟨c.cfg, begun s.flight.k cap pl false⟩
      flight := { s.flight with
        unit := if c.st.pending then some (closed i true c.st s.seq s.flight.k) else s.flight.unit
        errs := s.flight.errs ||| mask (decide (cap < pl.length)) 5 } }

/-- PES_START of a payload with a start code: the unit in progress, if there is one, is emitted; a unit with PESHDR
begins, its header is decoded, and the payload after it is appended unless the header does not fit. -/
def Obligations.PesStartWithHeader : Prop :=
  ∀ (s : State) (i : Nat) (c : Context) (h : Word),
    let pl := s.flight.pl
    let cap := s.params.bufBytes i
    let s1 : State := { s with
      seq := if c.st.pending then BitVec.ofNat 16 (s.seq.toNat + 1) else s.seq
      ctx := s.ctx.set i ⟨c.cfg, { begun s.flight.k cap [] false with pesHdr := true }⟩
      flight := { s.flight with
        unit := if c.st.pending then some (closed i true c.st s.seq s.flight.k) else s.flight.unit } }
    s.ctx[i]? = some c → c.cfg.kind = .pes → pl.take 3 = [0#8, 0#8, 1#8] →
    ∃ u c1, Answers (.pesHdrDecode i) s1 u ∧ u.ctx[i]? = some c1 ∧ c1.st.buf = [] ∧
      (u.flight.ps = none → Answers (.pesStart i h) s u) ∧
      (∀ ps, u.flight.ps = some ps → Answers (.pesStart i h) s { u with
        ctx := u.ctx.set i { c1 with st := { c1.st with
          buf := (pl.drop ps).take cap, ovf := decide (cap < (pl.drop ps).length) } }
        flight := { u.flight with errs := u.flight.errs ||| mask (decide (cap < (pl.drop ps).length)) 5 } })

/-- PES_HDR_DECODE, case by case: a header too short for its fields or for its declared length, a header-less stream,
and a header that fits, whose timestamps are decoded as PTS_DTS_flags and the header length allow. -/
def Obligations.PesHeaderDecode : Prop :=
  ∀ (s : State) (i : Nat) (c : Context),
    let e := s.flight.pl
    let hdl := byte e 8
    let pdf := byte e 7 / 64
    let noHeader := byte e 3 ∈ [0xBC, 0xBE, 0xBF, 0xF0, 0xF1, 0xF2, 0xF8, 0xFF]
    let named : CtxState := { c.st with sid := e.getD 3 0#8, ppl := BitVec.ofNat 16 (pair e 4) }
    let full : CtxState := { named with pdf := BitVec.ofNat 2 pdf, hdl := e.getD 8 0#8 }
    let result (st : CtxState) (ps : Option Nat) (short : Bool) : State := { s with
      ctx := s.ctx.set i { c with st := st }
      flight := { s.flight with ps := ps, errs := s.flight.errs ||| mask short 4 } }
    let pts := decide (2 ≤ pdf) && decide (5 ≤ hdl)
    let dts := decide (pdf = 3) && decide (10 ≤ hdl)
    let missing := (decide (2 ≤ pdf) && decide (hdl < 5)) || (decide (pdf = 3) && decide (hdl < 10))
    s.ctx[i]? = some c →
    (e.length < 6 → Answers (.pesHdrDecode i) s (result { c.st with hdrErr := true } none true)) ∧
    (6 ≤ e.length → noHeader → Answers (.pesHdrDecode i) s (result named (some 6) false)) ∧
    (6 ≤ e.length → ¬ noHeader → e.length < 9 →
      Answers (.pesHdrDecode i) s (result { named with hdrErr := true } none true)) ∧
    (9 ≤ e.length → ¬ noHeader → e.length < 9 + hdl →
      Answers (.pesHdrDecode i) s (result { full with hdrErr := true } none true)) ∧
    (9 ≤ e.length → ¬ noHeader → 9 + hdl ≤ e.length →
      Answers (.pesHdrDecode i) s (result { full with
        ptsV := c.st.ptsV || pts
        pts := if pts then BitVec.ofNat 33 (timestamp e 9) else c.st.pts
        dtsV := c.st.dtsV || dts
        dts := if dts then BitVec.ofNat 33 (timestamp e 14) else c.st.dts
        hdrErr := c.st.hdrErr || missing } (some (9 + hdl)) missing))

/-- PTS_DECODE and DTS_DECODE store the 33-bit values of bytes 9 to 13 and 14 to 18 and mark them valid. -/
def Obligations.TimestampDecode : Prop :=
  ∀ (s : State) (i : Nat) (c : Context) (b7 : Byte), s.ctx[i]? = some c →
    (14 ≤ s.flight.pl.length → Answers (.ptsDecode i b7) s (withCtx s i
      { c with st := { c.st with pts := BitVec.ofNat 33 (timestamp s.flight.pl 9), ptsV := true } })) ∧
    (19 ≤ s.flight.pl.length → Answers (.dtsDecode i b7) s (withCtx s i
      { c with st := { c.st with dts := BitVec.ofNat 33 (timestamp s.flight.pl 14), dtsV := true } }))

/-! ## Tables -/

/-- PAT_DECODE: a malformed length raises TRUNC_SECTION and changes nothing; else the PAT registers are replaced by the
section's fields and its first PAT_MAX records, with one PAT event. -/
def Obligations.PatDecodeResult : Prop :=
  ∀ (s : State) (u : UnitRec) (cfg : Word), s.flight.unit = some u →
    let d := u.data
    let sl := pair d 1 % 4096
    let n := (sl - 9) / 4
    let full := decide (s.params.patMax < n)
    (d.length < 3 ∨ sl < 9 ∨ d.length < 3 + sl ∨ (sl - 9) % 4 ≠ 0 →
      Answers (.patDecode cfg) s { s with flight := { s.flight with errs := s.flight.errs ||| mask true 3 } }) ∧
    (3 ≤ d.length → 9 ≤ sl → 3 + sl ≤ d.length → (sl - 9) % 4 = 0 →
      Answers (.patDecode cfg) s { s with
        pat := {
          valid := true
          tableId := d.getD 0 0#8
          version := BitVec.ofNat 5 (byte d 5 / 2)
          tsId := BitVec.ofNat 16 (pair d 3)
          sectionLength := BitVec.ofNat 12 sl
          n := BitVec.ofNat 16 n
          trunc := full
          entries := ((List.range n).map (fun j => (⟨BitVec.ofNat 16 (pair d (8 + 4 * j)),
            BitVec.ofNat 13 (pair d (10 + 4 * j))⟩ : PatEntry))).take s.params.patMax }
        flight := { s.flight with
          errs := s.flight.errs ||| mask full 6
          evTbl := some ⟨BitVec.ofNat 32 (3 + 16 * u.ctx.toNat + 65536 * u.seq.toNat), s.flight.k, BitVec.ofNat 32 n,
            BitVec.ofNat 32 (num full)⟩ } })

/-- A PAT section built from N records decodes to exactly these records in order, up to the capacity. -/
def Obligations.PatSectionRoundTrip : Prop :=
  ∀ (s : State) (u : UnitRec) (cfg : Word) (tid b5 b6 b7 : Byte) (top tsId : Nat) (recs : List (Nat × Nat))
    (crc extra : List Byte),
    s.flight.unit = some u → top < 16 → recs.length ≤ 1021 → crc.length = 4 →
    (∀ r ∈ recs, r.1 < 2 ^ 16 ∧ r.2 < 2 ^ 16) →
    u.data = patSection tid top tsId b5 b6 b7 recs crc ++ extra →
    ∃ t, Answers (.patDecode cfg) s t ∧ t.pat.valid = true ∧ t.pat.n.toNat = recs.length ∧
      t.pat.sectionLength.toNat = 9 + 4 * recs.length ∧
      t.pat.entries.map (fun e => (e.programNumber.toNat, e.pid.toNat))
        = (recs.map (fun r => (r.1, r.2 % 8192))).take s.params.patMax

/-- A PMT section built from program descriptors and records decodes to its header fields and exactly its records, which
are merged into the list; one PMT event reports it. -/
def Obligations.PmtSectionRoundTrip : Prop :=
  ∀ (s : State) (u : UnitRec) (cfg : Word) (tid b5 b6 b7 : Byte) (top top2 prog pcr : Nat)
    (recs : List (Byte × Nat × Nat × List Byte)) (descs crc extra : List Byte),
    let sl := 13 + descs.length + (recs.map esBytes).flatten.length
    let m := pmtMerge s.params.pmtEsMax s.pmt.es
      (recs.map (fun r => ⟨r.1, BitVec.ofNat 13 r.2.1, BitVec.ofNat 12 r.2.2.2.length⟩))
    s.flight.unit = some u → top < 16 → top2 < 16 → (∀ r ∈ recs, r.2.2.1 < 16) → sl < 4096 → crc.length = 4 →
    u.data = pmtSection tid top prog b5 b6 b7 pcr top2 descs recs crc ++ extra →
    Answers (.pmtDecode cfg) s { s with
      pmt := {
        valid := true
        programNumber := BitVec.ofNat 16 prog
        pcrPid := BitVec.ofNat 13 pcr
        programInfoLength := BitVec.ofNat 12 descs.length
        tableId := tid
        sectionLength := BitVec.ofNat 12 sl
        trunc := s.pmt.trunc || m.trunc
        es := m.es }
      flight := { s.flight with
        errs := s.flight.errs ||| mask m.trunc 6
        evTbl := some ⟨BitVec.ofNat 32 (4 + 16 * u.ctx.toNat + 65536 * u.seq.toNat), s.flight.k,
          BitVec.ofNat 32 recs.length, BitVec.ofNat 32 (m.added % 2 ^ 16 + 2 ^ 31 * num m.trunc)⟩ } }

/-- PMT_DECODE of any bytes: either they are a section with its program descriptors and records inside its declared
length, or TRUNC_SECTION is raised and no table register and no event changes. -/
def Obligations.PmtDecodeIsAllOrNothing : Prop :=
  ∀ (s : State) (u : UnitRec) (cfg : Word), s.flight.unit = some u →
    (∃ (tid b5 b6 b7 : Byte) (top top2 prog pcr : Nat) (recs : List (Byte × Nat × Nat × List Byte))
      (descs crc extra : List Byte), top < 16 ∧ top2 < 16 ∧ (∀ r ∈ recs, r.2.2.1 < 16) ∧
      13 + descs.length + (recs.map esBytes).flatten.length < 4096 ∧ crc.length = 4 ∧
      u.data = pmtSection tid top prog b5 b6 b7 pcr top2 descs recs crc ++ extra) ∨
    Answers (.pmtDecode cfg) s { s with flight := { s.flight with errs := s.flight.errs ||| mask true 3 } }

/-- PMT_MERGE: the PIDs are the old ones and then the new ones in order of first appearance, up to the capacity; each
entry is the last record of its PID, or the old entry when no record has its PID. -/
def Obligations.PmtMergeIsTheUnion : Prop :=
  ∀ (max : Nat) (es recs : List EsEntry), es.length ≤ max → (es.map EsEntry.pid).Nodup →
    let m := pmtMerge max es recs
    let pids := ((es ++ recs).map EsEntry.pid).eraseDups
    m.es.map EsEntry.pid = pids.take max ∧ m.added + es.length = m.es.length ∧ m.trunc = decide (max < pids.length) ∧
    ∀ e ∈ m.es, match recs.reverse.find? (fun r => r.pid == e.pid) with | some r => e = r | none => e ∈ es

/-! ## The frame transaction -/

/-- An accepted frame is the composition of its operations: header, adaptation/payload class, route; for a claimed frame
the AF events and, when the class allows it, the operation that KIND and PUSI select; then the unit is pushed, the events
in the order AF, OPCR, table, ERR, and the causes, LAST_HDR, LAST_AF and PKT_INDEX are written. An unclaimed frame is
counted instead, and pushes nothing. -/
def Obligations.FrameRunsItsOperations : Prop :=
  ∀ (s : State) (fr : List Byte), s.Inv → Accepts s fr →
    let p := packet fr
    let h : Word := BitVec.ofNat 32 (header p)
    ∃ m, execAll [.pktHdr h, decodeClass h, .route h] (opened s p) = .next m ∧
      (m.flight.claim = none → ∃ t, Answers (.frame fr) s t ∧ t = { m with
        lastHdr := h
        lastAf := BitVec.ofNat 32 (lastAfOf p)
        dropCount := BitVec.ofNat 32 (s.dropCount.toNat + 1)
        errStatus := s.errStatus ||| m.flight.errs
        pktIndex := BitVec.ofNat 32 (s.pktIndex.toNat + 1)
        flight := t.flight }) ∧
      ∀ (i : Nat) (c : Context), m.flight.claim = some i → s.ctx[i]? = some c →
        let m1 : State := { m with flight := { m.flight with
          evAf := afRecord i c.cfg.afev s.pktIndex p, evOpcr := opcrRecord i c.cfg.afev s.pktIndex p } }
        ∃ u t, (if m.flight.ra then exec (decodeClaimed i c.cfg.kind h) m1 = .next u else u = m1) ∧
          Answers (.frame fr) s t ∧ t = { u with
            lastHdr := h
            lastAf := BitVec.ofNat 32 (lastAfOf p)
            uq := s.uq ++ u.flight.unit.toList
            evq := s.evq ++ u.flight.evAf.toList ++ u.flight.evOpcr.toList ++ u.flight.evTbl.toList ++
              (errorRecord i s.pktIndex p u.flight.errs.toNat (u.flight.unit.map (fun x => x.seq.toNat))
                (u.flight.ptr.map BitVec.toNat)).toList
            errStatus := s.errStatus ||| u.flight.errs
            pktIndex := BitVec.ofNat 32 (s.pktIndex.toNat + 1)
            flight := t.flight }

/-- A frame that no enabled context claims is counted; its SYNC and AF_LEN causes go to ERR_STATUS; it pushes nothing and
changes no context and no table. -/
def Obligations.UnclaimedFrameIsDropped : Prop :=
  ∀ (s : State) (fr : List Byte), Accepts s fr →
    let p := packet fr
    (∀ (i : Nat) (c : Context), s.ctx[i]? = some c → ¬ (c.cfg.en = true ∧ c.cfg.pid.toNat = pidOf p)) →
    ∃ t, Answers (.frame fr) s t ∧ t = { s with
      lastHdr := BitVec.ofNat 32 (header p)
      lastAf := BitVec.ofNat 32 (lastAfOf p)
      dropCount := BitVec.ofNat 32 (s.dropCount.toNat + 1)
      pktIndex := BitVec.ofNat 32 (s.pktIndex.toNat + 1)
      errStatus := s.errStatus ||| mask (decide (byte p 0 ≠ 0x47)) 0 ||| mask (afBad p) 1
      flight := t.flight }

/-- A frame claimed by a context of KIND NONE pushes its AF, OPCR and ERR events and reassembles nothing. -/
def Obligations.ReportOnlyFrame : Prop :=
  ∀ (s : State) (fr : List Byte) (i : Nat) (c : Context), s.Inv → Accepts s fr →
    let p := packet fr
    ClaimedBy s (pidOf p) i → s.ctx[i]? = some c → c.cfg.kind = .none →
    ∃ t, Answers (.frame fr) s t ∧ t = { s with
      lastHdr := BitVec.ofNat 32 (header p)
      lastAf := BitVec.ofNat 32 (lastAfOf p)
      evq := s.evq ++ (afRecord i c.cfg.afev s.pktIndex p).toList ++ (opcrRecord i c.cfg.afev s.pktIndex p).toList ++
        (errorRecord i s.pktIndex p (num (decide (byte p 0 ≠ 0x47)) + 2 * num (afBad p)) none none).toList
      errStatus := s.errStatus ||| mask (decide (byte p 0 ≠ 0x47)) 0 ||| mask (afBad p) 1
      pktIndex := BitVec.ofNat 32 (s.pktIndex.toNat + 1)
      flight := t.flight }

/-- Every accepted frame, claimed or not, writes LAST_HDR, LAST_AF and PKT_INDEX, and reports a bad sync byte. In every
state PKT_INDEX, DROP_COUNT, LAST_HDR and LAST_AF read at their offsets what is held. -/
def Obligations.AcceptedFrameLatchesItsHeader : Prop :=
  (∀ s : State, Reads s 0x01C s.pktIndex.toNat ∧ Reads s 0x020 s.dropCount.toNat ∧ Reads s 0x024 s.lastHdr.toNat ∧
    Reads s 0x028 s.lastAf.toNat) ∧
  ∀ (s : State) (fr : List Byte), Accepts s fr → ∃ t, Answers (.frame fr) s t ∧
    t.lastHdr.toNat = header (packet fr) ∧ t.lastAf.toNat = lastAfOf (packet fr) ∧
    t.pktIndex.toNat = (s.pktIndex.toNat + 1) % 2 ^ 32 ∧
    t.errStatus.getLsbD 0 = (s.errStatus.getLsbD 0 || decide (byte (packet fr) 0 ≠ 0x47)) ∧
    (∀ n, s.errStatus.getLsbD n = true → t.errStatus.getLsbD n = true)

/-- The frame of a claimed frame: it changes no other context, no configuration, no pointer and no count; it emits at
most one unit, with its own index as END_PKT, exactly when a start packet meets a unit in progress, on a section context
one that has a payload byte, on a PES context any one that reassembles (42_section.md R281, 44_pes.md R361); its events are
at most one each of AF, OPCR, PAT or PMT, ERR, in this order, of its own context and index; without a unit no table
changes. -/
def Obligations.ClaimedFrameTouchesOnlyItsContext : Prop :=
  ∀ (s : State) (fr : List Byte) (i : Nat) (c : Context), s.Inv → Accepts s fr →
    let p := packet fr
    ClaimedBy s (pidOf p) i → s.ctx[i]? = some c →
    ∃ t us evs, Answers (.frame fr) s t ∧
      t.params = s.params ∧ t.ctrl = s.ctrl ∧ t.irqEn = s.irqEn ∧ t.dropCount = s.dropCount ∧
      t.unitRdptr = s.unitRdptr ∧ t.flight = s.flight ∧ t.offers = s.offers ∧ t.turns = s.turns ∧ t.rdata = s.rdata ∧
      (∀ j, j ≠ i → t.ctx[j]? = s.ctx[j]?) ∧ (∃ st, t.ctx[i]? = some ⟨c.cfg, st⟩) ∧
      t.uq = s.uq ++ us ∧ us.length ≤ 1 ∧ t.seq = BitVec.ofNat 16 (s.seq.toNat + us.length) ∧
      (∀ u ∈ us, u.ctx.toNat = i ∧ u.seq = s.seq ∧ u.endPkt = s.pktIndex ∧ u.startPkt = c.st.startPkt) ∧
      (us ≠ [] ↔ c.st.pending = true ∧ pusiOf p = true ∧
        (c.cfg.kind = .sec ∧ payload p ≠ [] ∨ c.cfg.kind = .pes ∧ reassembles p = true)) ∧
      (us = [] → t.pat = s.pat ∧ t.pmt = s.pmt) ∧
      t.evq = s.evq ++ evs ∧
      ((evs.map (fun e => e.w0.toNat % 16)).Sublist [1, 2, 3, 15] ∨
        (evs.map (fun e => e.w0.toNat % 16)).Sublist [1, 2, 4, 15]) ∧
      (∀ e ∈ evs, e.w1 = s.pktIndex ∧ e.w0.toNat / 16 % 16 = i)

/-- The leading bytes of a frame and the header's TEI, TP, TSC and CC bits change nothing but LAST_HDR. -/
def Obligations.IgnoredHeaderBitsChangeNothing : Prop :=
  ∀ (s : State) (fr fr' : List Byte), Accepts s fr → Accepts s fr' →
    let p := packet fr
    let p' := packet fr'
    byte p 0 = byte p' 0 → pidOf p = pidOf p' → pusiOf p = pusiOf p' → hasAf p = hasAf p' →
    hasPayload p = hasPayload p' → p.drop 4 = p'.drop 4 →
    ∃ t, Answers (.frame fr) s t ∧ Answers (.frame fr') s { t with lastHdr := BitVec.ofNat 32 (header p') }

/-! ## Whole units over several frames -/

/-- Section reassembly round trip: frames of one SECTION context, a start packet, continuations and the next start
packet, emit one unit whose bytes are the bytes from the first pointed-to byte up to the second; whatever string S the
packets carried from the first, it comes first in the unit. Stated for PARSE = 0 and AFEV = 0, so that nothing but the
unit is pushed. -/
def Obligations.SectionReassemblyRoundTrip : Prop :=
  ∀ (s : State) (i : Nat) (c : Context) (first last : List Byte) (conts : List (List Byte))
    (p0 p1 : Byte) (before begin0 tail begin1 sec gap : List Byte),
    s.Inv → Open s → s.ctx[i]? = some c → c.cfg.kind = .sec → c.cfg.parse = .none → c.cfg.afev = false →
    c.st.pending = false →
    (∀ fr ∈ first :: last :: conts, Clean s i fr) →
    (∀ fr ∈ conts, pusiOf (packet fr) = false) →
    pusiOf (packet first) = true → payload (packet first) = p0 :: (before ++ begin0) → before.length = p0.toNat →
    pusiOf (packet last) = true → payload (packet last) = p1 :: (tail ++ begin1) → tail.length = p1.toNat →
    begin0 ++ (conts.map (fun fr => payload (packet fr))).flatten ++ tail = sec ++ gap →
    sec.length + gap.length ≤ s.params.bufBytes i →
    ∃ t, runFrames (first :: (conts ++ [last])) s = .next t ∧ t.evq = s.evq ∧
      t.uq = s.uq ++ [closed i false (begun s.pktIndex (s.params.bufBytes i) (sec ++ gap) false) s.seq
        (s.pktIndex + BitVec.ofNat 32 (conts.length + 1))]

/-- A PES unit over several frames: a start packet whose header fits, continuations, and the next start packet emit one
unit; its bytes exclude the header, and its descriptor carries the header, the timestamps and the index of the start
packet that began it and the index of the one that emitted it. -/
def Obligations.PesUnitCarriesItsOwnHeader : Prop :=
  ∀ (s : State) (i : Nat) (c : Context) (first last : List Byte) (conts : List (List Byte)),
    let e := payload (packet first)
    let hdl := byte e 8
    let pdf := byte e 7 / 64
    let data := e.drop (9 + hdl) ++ (conts.map (fun fr => payload (packet fr))).flatten
    s.Inv → Open s → s.ctx[i]? = some c → c.cfg.kind = .pes → c.cfg.afev = false → c.st.pending = false →
    (∀ fr ∈ first :: last :: conts, Clean s i fr) →
    (∀ fr ∈ conts, pusiOf (packet fr) = false) →
    pusiOf (packet first) = true → pusiOf (packet last) = true → hasAf (packet last) || hasPayload (packet last) →
    9 ≤ e.length → e.take 3 = [0#8, 0#8, 1#8] → byte e 3 ∉ [0xBC, 0xBE, 0xBF, 0xF0, 0xF1, 0xF2, 0xF8, 0xFF] →
    9 + hdl ≤ e.length → (2 ≤ pdf → 5 ≤ hdl) → (pdf = 3 → 10 ≤ hdl) → data.length ≤ s.params.bufBytes i →
    ∃ t, runFrames (first :: (conts ++ [last])) s = .next t ∧
      t.uq = s.uq ++ [{
        ctx := BitVec.ofNat 4 i
        isPes := true
        ovf := false
        ptrErr := false
        hdrErr := false
        pesHdr := true
        ptsV := decide (2 ≤ pdf)
        dtsV := decide (pdf = 3)
        seq := s.seq
        startPkt := s.pktIndex
        endPkt := s.pktIndex + BitVec.ofNat 32 (conts.length + 1)
        sid := e.getD 3 0#8
        ppl := BitVec.ofNat 16 (pair e 4)
        hdl := e.getD 8 0#8
        pdf := BitVec.ofNat 2 pdf
        pts := if 2 ≤ pdf then BitVec.ofNat 33 (timestamp e 9) else 0
        dts := if pdf = 3 then BitVec.ofNat 33 (timestamp e 14) else 0
        data := data }]

/-! ## Invariants and whole-machine rules -/

/-- The invariant holds right after reset of the reference instance (log 1). -/
def Obligations.ResetIsSound : Prop := State.reset.Inv

/-- From every sound state, a step ends in a sound state, or refuses a frame of a length that is no transaction. -/
def Obligations.StepKeepsTheInvariant : Prop :=
  ∀ s : State, s.Inv → SoundOutcome (step s) ∧ ∀ t, step s = .next t → t.Inv

/-- A sticky error bit is lost in a step only by the host's write of 1 to it, or by a reset. -/
def Obligations.ErrorBitsAreSticky : Prop :=
  ∀ (s t : State) (n : Nat), step s = .next t → s.errStatus.getLsbD n = true → t.errStatus.getLsbD n = false →
    ResetTurn s ∨ ∃ w rest d, s.turns = .host w :: rest ∧ decodeHost s.params.nCtx w = [.wrErrStatus d] ∧
      d.getLsbD n = true

/-- An entry of the accumulated PMT list keeps its place and its PID in every step but CLR_TABLES and a reset. -/
def Obligations.PmtEntriesAreNeverRemoved : Prop :=
  ∀ (s t : State) (j : Nat) (e : EsEntry), step s = .next t → s.pmt.es[j]? = some e →
    (∃ e', t.pmt.es[j]? = some e' ∧ e'.pid = e.pid) ∨ ResetTurn s ∨
    ∃ w rest, s.turns = .host w :: rest ∧ Instr.cmdClrTables ∈ decodeHost s.params.nCtx w
end

