-- ==== Sys2Proof/Laws/Bits.lean ====
section
/-! SUPPORT. The wire fields as numbers: what a concatenation, a bit field and a byte string's fields are worth. -/

namespace Sys2Proof.Machine

theorem toNat_append_mul {m n : Nat} (x : BitVec m) (y : BitVec n) :
    (x ++ y).toNat = x.toNat * 2 ^ n + y.toNat := by
  rw [BitVec.toNat_append, Nat.shiftLeft_eq, ← Nat.shiftLeft_eq, ← Nat.shiftLeft_add_eq_or_of_lt y.isLt,
    Nat.shiftLeft_eq]

theorem toNat_field {w : Nat} (x : BitVec w) (s n : Nat) : (x.extractLsb' s n).toNat = x.toNat / 2 ^ s % 2 ^ n := by
  simp [BitVec.extractLsb'_toNat, Nat.shiftRight_eq_div_pow]

theorem getLsbD_eq_beq {w : Nat} (x : BitVec w) (n : Nat) : x.getLsbD n = (x.toNat / 2 ^ n % 2 == 1) := by
  rw [BitVec.getLsbD, Nat.testBit_eq_decide_div_mod_eq]; rfl

theorem be16_toNat (b : List Byte) (i : Nat) :
    (be16 b i).toNat = (b.getD i 0#8).toNat * 256 + (b.getD (i + 1) 0#8).toNat := by
  simp only [be16, byteAt, toNat_append_mul]; omega

theorem be24_toNat (b : List Byte) (i : Nat) :
    (be24 b i).toNat = (b.getD i 0#8).toNat * 65536 + (b.getD (i + 1) 0#8).toNat * 256 + (b.getD (i + 2) 0#8).toNat := by
  simp only [be24, byteAt, toNat_append_mul]; omega

theorem be32_toNat (b : List Byte) (i : Nat) :
    (be32 b i).toNat = (b.getD i 0#8).toNat * 16777216 + (b.getD (i + 1) 0#8).toNat * 65536 +
      (b.getD (i + 2) 0#8).toNat * 256 + (b.getD (i + 3) 0#8).toNat := by
  simp only [be32, byteAt, toNat_append_mul]; omega

theorem be48_toNat (b : List Byte) (o : Nat) :
    (be48 b o).toNat = (b.getD o 0#8).toNat * 2 ^ 40 + (b.getD (o + 1) 0#8).toNat * 2 ^ 32 +
      (b.getD (o + 2) 0#8).toNat * 2 ^ 24 + (b.getD (o + 3) 0#8).toNat * 2 ^ 16 + (b.getD (o + 4) 0#8).toNat * 2 ^ 8 +
      (b.getD (o + 5) 0#8).toNat := by
  simp only [be48, toNat_append_mul, be24_toNat]
  simp only [Nat.add_assoc, Nat.reduceAdd]
  omega

theorem clockBase_toNat (b : List Byte) (o : Nat) :
    (clockBase b o).toNat = (b.getD o 0#8).toNat * 2 ^ 25 + (b.getD (o + 1) 0#8).toNat * 2 ^ 17 +
      (b.getD (o + 2) 0#8).toNat * 2 ^ 9 + (b.getD (o + 3) 0#8).toNat * 2 + (b.getD (o + 4) 0#8).toNat / 128 := by
  have h0 := (b.getD o 0#8).isLt
  have h1 := (b.getD (o + 1) 0#8).isLt
  have h2 := (b.getD (o + 2) 0#8).isLt
  have h3 := (b.getD (o + 3) 0#8).isLt
  have h4 := (b.getD (o + 4) 0#8).isLt
  have h5 := (b.getD (o + 5) 0#8).isLt
  simp only [clockBase, toNat_field, be48_toNat]; omega

theorem clockExt_toNat (b : List Byte) (o : Nat) :
    (clockExt b o).toNat = (b.getD (o + 4) 0#8).toNat % 2 * 256 + (b.getD (o + 5) 0#8).toNat := by
  have h5 := (b.getD (o + 5) 0#8).isLt
  simp only [clockExt, toNat_field, be48_toNat]; omega

theorem timestampAt_toNat (b : List Byte) (o : Nat) :
    (timestampAt b o).toNat = (b.getD o 0#8).toNat / 2 % 8 * 2 ^ 30 +
      ((b.getD (o + 1) 0#8).toNat * 256 + (b.getD (o + 2) 0#8).toNat) / 2 * 2 ^ 15 +
      ((b.getD (o + 3) 0#8).toNat * 256 + (b.getD (o + 4) 0#8).toNat) / 2 := by
  have h0 := (b.getD o 0#8).isLt
  have h1 := (b.getD (o + 1) 0#8).isLt
  have h2 := (b.getD (o + 2) 0#8).isLt
  have h3 := (b.getD (o + 3) 0#8).isLt
  have h4 := (b.getD (o + 4) 0#8).isLt
  simp only [timestampAt, toNat_append_mul, toNat_field, be16_toNat, byteAt]
  simp only [Nat.add_assoc, Nat.reduceAdd]
  omega

theorem len12_toNat (b : List Byte) (i : Nat) :
    (len12 b i).toNat = ((b.getD i 0#8).toNat * 256 + (b.getD (i + 1) 0#8).toNat) % 4096 := by
  simp only [len12, toNat_field, be16_toNat]; omega

theorem pid13_toNat (b : List Byte) (i : Nat) :
    (pid13 b i).toNat = ((b.getD i 0#8).toNat * 256 + (b.getD (i + 1) 0#8).toNat) % 8192 := by
  simp only [pid13, toNat_field, be16_toNat]; omega

/-- A field is the number it is worth, as a word of its width. -/
theorem eq_ofNat_of_toNat {w n : Nat} {x : BitVec w} (h : x.toNat = n) : x = BitVec.ofNat w n := by
  apply BitVec.eq_of_toNat_eq; rw [BitVec.toNat_ofNat, ← h, Nat.mod_eq_of_lt x.isLt]

end Sys2Proof.Machine
end

