-- ==== Sys2Proof/Laws/State.lean ====
section
/-! SUPPORT. One lemma per field for each of the three shared updates of State, so that no proof unfolds one. -/

namespace Sys2Proof.Machine

/-! ## onFlight -/

@[simp] theorem onFlight_params (f : Flight → Flight) (s : State) : (onFlight f s).params = s.params := rfl
@[simp] theorem onFlight_ctrl (f : Flight → Flight) (s : State) : (onFlight f s).ctrl = s.ctrl := rfl
@[simp] theorem onFlight_irqEn (f : Flight → Flight) (s : State) : (onFlight f s).irqEn = s.irqEn := rfl
@[simp] theorem onFlight_errStatus (f : Flight → Flight) (s : State) : (onFlight f s).errStatus = s.errStatus := rfl
@[simp] theorem onFlight_pktIndex (f : Flight → Flight) (s : State) : (onFlight f s).pktIndex = s.pktIndex := rfl
@[simp] theorem onFlight_dropCount (f : Flight → Flight) (s : State) : (onFlight f s).dropCount = s.dropCount := rfl
@[simp] theorem onFlight_seq (f : Flight → Flight) (s : State) : (onFlight f s).seq = s.seq := rfl
@[simp] theorem onFlight_lastHdr (f : Flight → Flight) (s : State) : (onFlight f s).lastHdr = s.lastHdr := rfl
@[simp] theorem onFlight_lastAf (f : Flight → Flight) (s : State) : (onFlight f s).lastAf = s.lastAf := rfl
@[simp] theorem onFlight_evq (f : Flight → Flight) (s : State) : (onFlight f s).evq = s.evq := rfl
@[simp] theorem onFlight_uq (f : Flight → Flight) (s : State) : (onFlight f s).uq = s.uq := rfl
@[simp] theorem onFlight_unitRdptr (f : Flight → Flight) (s : State) : (onFlight f s).unitRdptr = s.unitRdptr := rfl
@[simp] theorem onFlight_ctx (f : Flight → Flight) (s : State) : (onFlight f s).ctx = s.ctx := rfl
@[simp] theorem onFlight_pat (f : Flight → Flight) (s : State) : (onFlight f s).pat = s.pat := rfl
@[simp] theorem onFlight_pmt (f : Flight → Flight) (s : State) : (onFlight f s).pmt = s.pmt := rfl
@[simp] theorem onFlight_flight (f : Flight → Flight) (s : State) : (onFlight f s).flight = f s.flight := rfl
@[simp] theorem onFlight_offers (f : Flight → Flight) (s : State) : (onFlight f s).offers = s.offers := rfl
@[simp] theorem onFlight_turns (f : Flight → Flight) (s : State) : (onFlight f s).turns = s.turns := rfl
@[simp] theorem onFlight_rdata (f : Flight → Flight) (s : State) : (onFlight f s).rdata = s.rdata := rfl

/-! ## onCtx -/

@[simp] theorem onCtx_params (i : Nat) (f : CtxState → CtxState) (s : State) : (onCtx i f s).params = s.params := rfl
@[simp] theorem onCtx_ctrl (i : Nat) (f : CtxState → CtxState) (s : State) : (onCtx i f s).ctrl = s.ctrl := rfl
@[simp] theorem onCtx_irqEn (i : Nat) (f : CtxState → CtxState) (s : State) : (onCtx i f s).irqEn = s.irqEn := rfl
@[simp] theorem onCtx_errStatus (i : Nat) (f : CtxState → CtxState) (s : State) : (onCtx i f s).errStatus = s.errStatus := rfl
@[simp] theorem onCtx_pktIndex (i : Nat) (f : CtxState → CtxState) (s : State) : (onCtx i f s).pktIndex = s.pktIndex := rfl
@[simp] theorem onCtx_dropCount (i : Nat) (f : CtxState → CtxState) (s : State) : (onCtx i f s).dropCount = s.dropCount := rfl
@[simp] theorem onCtx_seq (i : Nat) (f : CtxState → CtxState) (s : State) : (onCtx i f s).seq = s.seq := rfl
@[simp] theorem onCtx_lastHdr (i : Nat) (f : CtxState → CtxState) (s : State) : (onCtx i f s).lastHdr = s.lastHdr := rfl
@[simp] theorem onCtx_lastAf (i : Nat) (f : CtxState → CtxState) (s : State) : (onCtx i f s).lastAf = s.lastAf := rfl
@[simp] theorem onCtx_evq (i : Nat) (f : CtxState → CtxState) (s : State) : (onCtx i f s).evq = s.evq := rfl
@[simp] theorem onCtx_uq (i : Nat) (f : CtxState → CtxState) (s : State) : (onCtx i f s).uq = s.uq := rfl
@[simp] theorem onCtx_unitRdptr (i : Nat) (f : CtxState → CtxState) (s : State) : (onCtx i f s).unitRdptr = s.unitRdptr := rfl
@[simp] theorem onCtx_ctx (i : Nat) (f : CtxState → CtxState) (s : State) :
    (onCtx i f s).ctx = s.ctx.modify i (fun c => { c with st := f c.st }) := rfl
@[simp] theorem onCtx_pat (i : Nat) (f : CtxState → CtxState) (s : State) : (onCtx i f s).pat = s.pat := rfl
@[simp] theorem onCtx_pmt (i : Nat) (f : CtxState → CtxState) (s : State) : (onCtx i f s).pmt = s.pmt := rfl
@[simp] theorem onCtx_flight (i : Nat) (f : CtxState → CtxState) (s : State) : (onCtx i f s).flight = s.flight := rfl
@[simp] theorem onCtx_offers (i : Nat) (f : CtxState → CtxState) (s : State) : (onCtx i f s).offers = s.offers := rfl
@[simp] theorem onCtx_turns (i : Nat) (f : CtxState → CtxState) (s : State) : (onCtx i f s).turns = s.turns := rfl
@[simp] theorem onCtx_rdata (i : Nat) (f : CtxState → CtxState) (s : State) : (onCtx i f s).rdata = s.rdata := rfl

/-! ## pushEvent -/

@[simp] theorem pushEvent_params (e : EvRec) (s : State) : (pushEvent e s).params = s.params := rfl
@[simp] theorem pushEvent_ctrl (e : EvRec) (s : State) : (pushEvent e s).ctrl = s.ctrl := rfl
@[simp] theorem pushEvent_irqEn (e : EvRec) (s : State) : (pushEvent e s).irqEn = s.irqEn := rfl
@[simp] theorem pushEvent_errStatus (e : EvRec) (s : State) : (pushEvent e s).errStatus = s.errStatus := rfl
@[simp] theorem pushEvent_pktIndex (e : EvRec) (s : State) : (pushEvent e s).pktIndex = s.pktIndex := rfl
@[simp] theorem pushEvent_dropCount (e : EvRec) (s : State) : (pushEvent e s).dropCount = s.dropCount := rfl
@[simp] theorem pushEvent_seq (e : EvRec) (s : State) : (pushEvent e s).seq = s.seq := rfl
@[simp] theorem pushEvent_lastHdr (e : EvRec) (s : State) : (pushEvent e s).lastHdr = s.lastHdr := rfl
@[simp] theorem pushEvent_lastAf (e : EvRec) (s : State) : (pushEvent e s).lastAf = s.lastAf := rfl
@[simp] theorem pushEvent_evq (e : EvRec) (s : State) : (pushEvent e s).evq = s.evq ++ [e] := rfl
@[simp] theorem pushEvent_uq (e : EvRec) (s : State) : (pushEvent e s).uq = s.uq := rfl
@[simp] theorem pushEvent_unitRdptr (e : EvRec) (s : State) : (pushEvent e s).unitRdptr = s.unitRdptr := rfl
@[simp] theorem pushEvent_ctx (e : EvRec) (s : State) : (pushEvent e s).ctx = s.ctx := rfl
@[simp] theorem pushEvent_pat (e : EvRec) (s : State) : (pushEvent e s).pat = s.pat := rfl
@[simp] theorem pushEvent_pmt (e : EvRec) (s : State) : (pushEvent e s).pmt = s.pmt := rfl
@[simp] theorem pushEvent_flight (e : EvRec) (s : State) : (pushEvent e s).flight = s.flight := rfl
@[simp] theorem pushEvent_offers (e : EvRec) (s : State) : (pushEvent e s).offers = s.offers := rfl
@[simp] theorem pushEvent_turns (e : EvRec) (s : State) : (pushEvent e s).turns = s.turns := rfl
@[simp] theorem pushEvent_rdata (e : EvRec) (s : State) : (pushEvent e s).rdata = s.rdata := rfl

/-! ## Updates that meet -/

theorem onFlight_onFlight (f g : Flight → Flight) (s : State) : onFlight f (onFlight g s) = onFlight (fun x => f (g x)) s :=
  rfl

theorem onFlight_onCtx (f : Flight → Flight) (i : Nat) (g : CtxState → CtxState) (s : State) :
    onFlight f (onCtx i g s) = onCtx i g (onFlight f s) := rfl

@[simp] theorem ctxAt_onFlight (f : Flight → Flight) (s : State) (i : Nat) : ctxAt (onFlight f s) i = ctxAt s i := rfl

end Sys2Proof.Machine
end

