-- ==== Sys2Proof/Laws/Ops.lean ====
section
/-! SUPPORT. What each shared operation of Machine/Ops.lean does, as one equation on the state. -/

namespace Sys2Proof.Machine

/-- The mask of a cause under a condition. -/
def Cause.maskIf (c : Cause) (b : Bool) : BitVec 7 := if b then c.bit else 0#7

@[simp] theorem Cause.maskIf_true (c : Cause) : c.maskIf true = c.bit := rfl
@[simp] theorem Cause.maskIf_false (c : Cause) : c.maskIf false = 0#7 := rfl

theorem raise_eq (c : Cause) (s : State) :
    raise c s = { s with flight := { s.flight with errs := s.flight.errs ||| c.bit } } := rfl

theorem raiseIf_eq (b : Bool) (c : Cause) (s : State) :
    raiseIf b c s = { s with flight := { s.flight with errs := s.flight.errs ||| c.maskIf b } } := by
  cases b
  · simp [raiseIf, Cause.maskIf]
  · rfl

theorem pushEvent?_eq (e : Option EvRec) (s : State) : pushEvent? e s = { s with evq := s.evq ++ e.toList } := by
  cases e
  · simp [pushEvent?]
  · rfl

theorem pushUnit?_eq (u : Option UnitRec) (s : State) : pushUnit? u s = { s with uq := s.uq ++ u.toList } := by
  cases u
  · simp [pushUnit?]
  · rfl

/-- The ERR record of a frame, if it raised anything. -/
def errRecord? (c : Nat) (f : Flight) : Option EvRec := if f.errs = 0#7 then none else some (errRecord c f)

theorem reportErrors_eq (c : Nat) (s : State) :
    reportErrors c s = { s with evq := s.evq ++ (errRecord? c s.flight).toList } := by
  by_cases h : s.flight.errs = 0#7
  · simp [reportErrors, errRecord?, h]
  · simp [reportErrors, errRecord?, h, pushEvent]

/-! ## Contexts -/

theorem ctxAt_of {s : State} {i : Nat} {c : Context} (h : s.ctx[i]? = some c) : ctxAt s i = c := by
  simp [ctxAt, h]

theorem modify_of {l : List Context} {i : Nat} {c : Context} (h : l[i]? = some c) (f : Context → Context) :
    l.modify i f = l.set i (f c) := by
  rw [List.modify_eq_set_getElem?, h]; rfl

theorem onCtx_of {s : State} {i : Nat} {c : Context} (h : s.ctx[i]? = some c) (f : CtxState → CtxState) :
    onCtx i f s = { s with ctx := s.ctx.set i { c with st := f c.st } } := by
  simp only [onCtx, modify_of h]

theorem getElem?_set_of {l : List Context} {i : Nat} {c : Context} (h : l[i]? = some c) (d : Context) :
    (l.set i d)[i]? = some d := by
  rw [List.getElem?_set_self (List.getElem?_eq_some_iff.mp h).1]

/-! ## Reset -/

theorem resetBlock_reset : resetBlock State.reset = State.reset := rfl

end Sys2Proof.Machine
end

