-- ==== Sys2Proof/Laws/Frame.lean ====
section
/-! SUPPORT. What each operation inside a FRAME transaction can change: the fields it writes, named once, so that no
proof unfolds an operation to learn what it leaves alone. -/

namespace Sys2Proof.Machine

/-! ## Adaptation field -/

theorem pcrExtract_writes (s : State) :
    ∃ af errs, pcrExtract s = { s with flight := { s.flight with af := af, errs := errs } } := by
  unfold pcrExtract
  split
  · exact ⟨s.flight.af, s.flight.errs, rfl⟩
  · split
    · exact ⟨_, s.flight.errs, rfl⟩
    · exact ⟨s.flight.af, _, rfl⟩

theorem opcrExtract_writes (o : Nat) (s : State) :
    ∃ af errs, opcrExtract o s = { s with flight := { s.flight with af := af, errs := errs } } := by
  unfold opcrExtract
  split
  · exact ⟨s.flight.af, s.flight.errs, rfl⟩
  · split
    · exact ⟨_, s.flight.errs, rfl⟩
    · exact ⟨s.flight.af, _, rfl⟩

theorem afDecode_writes (s : State) :
    ∃ af ok errs, afDecode s = { s with flight := { s.flight with af := af, ok := ok, errs := errs } } := by
  unfold afDecode
  simp only
  split
  · exact ⟨_, _, _, rfl⟩
  · split
    · exact ⟨_, _, s.flight.errs, rfl⟩
    · split <;> split
      · obtain ⟨a, e, h⟩ := pcrExtract_writes (setAf (some (afWithFlags (afLen s.flight.p) (byteAt s.flight.p 5))) true s)
        rw [h]
        obtain ⟨a', e', h'⟩ := opcrExtract_writes (opcrOffset (byteAt s.flight.p 5)) { s with flight := { s.flight with
          af := a, ok := true, errs := e } }
        exact ⟨a', true, e', h'⟩
      · obtain ⟨a, e, h⟩ := opcrExtract_writes (opcrOffset (byteAt s.flight.p 5))
          (setAf (some (afWithFlags (afLen s.flight.p) (byteAt s.flight.p 5))) true s)
        exact ⟨a, true, e, h⟩
      · obtain ⟨a, e, h⟩ := pcrExtract_writes (setAf (some (afWithFlags (afLen s.flight.p) (byteAt s.flight.p 5))) true s)
        exact ⟨a, true, e, h⟩
      · exact ⟨_, _, s.flight.errs, rfl⟩

theorem afEvents_writes (c : Nat) (s : State) :
    ∃ evAf evOpcr, afEvents c s = { s with flight := { s.flight with evAf := evAf, evOpcr := evOpcr } } := by
  unfold afEvents
  split
  · exact ⟨s.flight.evAf, s.flight.evOpcr, rfl⟩
  · split
    · exact ⟨s.flight.evAf, s.flight.evOpcr, rfl⟩
    · exact ⟨_, _, rfl⟩

/-! ## Classes and routing -/

theorem pktHdr_eq (h : Word) (s : State) :
    pktHdr h s = { s with flight := { s.flight with
      h := h, errs := s.flight.errs ||| Cause.maskIf .sync (hdrSync h != 0x47#8) } } := by
  rw [pktHdr, raiseIf_eq]; rfl

theorem pktClass_writes (h : Word) (s : State) :
    ∃ af ok errs pl ra, pktClass h s = { s with flight := { s.flight with
      af := af, ok := ok, errs := errs, pl := pl, ra := ra } } := by
  unfold pktClass
  split
  · exact ⟨_, _, s.flight.errs, _, _, rfl⟩
  · split
    · exact ⟨_, _, s.flight.errs, _, _, rfl⟩
    · obtain ⟨a, o, e, h⟩ := afDecode_writes s
      split
      · simp only [pktAf, h]; exact ⟨_, _, _, _, _, rfl⟩
      · simp only [pktAfPayload, h]
        split
        · exact ⟨_, _, _, _, _, rfl⟩
        · exact ⟨_, _, _, _, _, rfl⟩

/-! ## Tables -/

theorem patDecode_writes (s : State) :
    ∃ pat errs ev, patDecode s = { s with pat := pat, flight := { s.flight with errs := errs, evTbl := ev } } := by
  unfold patDecode
  split
  · exact ⟨s.pat, s.flight.errs, s.flight.evTbl, rfl⟩
  · split
    · exact ⟨s.pat, _, s.flight.evTbl, rfl⟩
    · simp only [patCommit, raiseIf_eq]; exact ⟨_, _, _, rfl⟩

theorem pmtDecode_writes (s : State) :
    ∃ pmt errs ev, pmtDecode s = { s with pmt := pmt, flight := { s.flight with errs := errs, evTbl := ev } } := by
  unfold pmtDecode
  split
  · exact ⟨s.pmt, s.flight.errs, s.flight.evTbl, rfl⟩
  · split
    · exact ⟨s.pmt, _, s.flight.evTbl, rfl⟩
    · simp only [pmtCommit, raiseIf_eq]; exact ⟨_, _, _, rfl⟩

theorem decodeTable_writes (cfg : CtxCfg) (s : State) :
    ∃ pat pmt errs ev, decodeTable cfg s =
      { s with pat := pat, pmt := pmt, flight := { s.flight with errs := errs, evTbl := ev } } := by
  unfold decodeTable
  split
  · obtain ⟨a, b, c, h⟩ := patDecode_writes s; exact ⟨a, s.pmt, b, c, h⟩
  · obtain ⟨a, b, c, h⟩ := pmtDecode_writes s; exact ⟨s.pat, a, b, c, h⟩
  · exact ⟨s.pat, s.pmt, s.flight.errs, s.flight.evTbl, rfl⟩

/-! ## Reassembly -/

theorem set_self_of {l : List Context} {i : Nat} {c : Context} (h : l[i]? = some c) : l.set i c = l := by
  obtain ⟨hi, rfl⟩ := List.getElem?_eq_some_iff.mp h; exact List.set_getElem_self hi

/-- The reassembly state after APPEND of `b` to a buffer of capacity `cap` (42_section.md R278). -/
def appended (cap : Nat) (b : List Byte) (c : CtxState) : CtxState :=
  { c with buf := c.buf ++ b.take (cap - c.buf.length), ovf := c.ovf || decide (cap - c.buf.length < b.length) }

/-- The cause APPEND raises: the first bytes dropped from the unit (R278). -/
def overflowBit (cap : Nat) (b : List Byte) (c : CtxState) : BitVec 7 :=
  Cause.maskIf .bufOvf (decide (cap - c.buf.length < b.length) && !c.ovf)

theorem appendUnit_eq {s : State} {i : Nat} {c : Context} (h : s.ctx[i]? = some c) (b : List Byte) :
    appendUnit i b s = { s with
      ctx := s.ctx.set i { c with st := appended (s.params.bufBytes i) b c.st }
      flight := { s.flight with errs := s.flight.errs ||| overflowBit (s.params.bufBytes i) b c.st } } := by
  unfold appendUnit
  have hroom : roomAt s i = s.params.bufBytes i - c.st.buf.length := by rw [roomAt, ctxAt_of h]
  rw [hroom]
  by_cases hb : b.length ≤ s.params.bufBytes i - c.st.buf.length
  · rw [if_pos hb, onCtx_of h]
    simp [appended, overflowBit, List.take_of_length_le hb, Nat.not_lt.mpr hb]
  · rw [if_neg hb, ctxAt_of h, raiseIf_eq]
    simp only [onCtx, modify_of h]
    simp [appended, overflowBit, Nat.lt_of_not_le hb]

theorem beginUnit_eq {s : State} {i : Nat} {c : Context} (h : s.ctx[i]? = some c) :
    beginUnit i s = { s with ctx := s.ctx.set i ⟨c.cfg, ctxBegin s.flight.k⟩ } := by
  rw [beginUnit, onCtx_of h]

theorem flagPtrErr_eq {s : State} {i : Nat} {c : Context} (h : s.ctx[i]? = some c) (bad : Bool) :
    flagPtrErr bad i s = { s with ctx := s.ctx.set i ⟨c.cfg, { c.st with ptrErr := c.st.ptrErr || bad }⟩ } := by
  cases bad
  · have : s.ctx.set i c = s.ctx := set_self_of h
    simp [flagPtrErr, this]
  · simp [flagPtrErr, onCtx_of h]

/-- EMIT (42_section.md R279): the unit record, the sequence number, the table decode, and PENDING cleared. -/
theorem emitUnit_eq {s : State} {i : Nat} {c : Context} (h : s.ctx[i]? = some c) :
    emitUnit i s = onCtx i (fun c => { c with pending := false }) (decodeTable c.cfg { s with
      seq := s.seq + 1
      flight := { s.flight with unit := some (unitOf i c s.seq s.flight.k) } }) := by
  simp only [emitUnit, ctxAt_of h]; rfl

/-- The reassembly state that a section boundary closes: the bytes before the pointed-to byte, and PTR_ERR (R276, R280). -/
def closing (cap : Nat) (tail : List Byte) (bad : Bool) (c : CtxState) : CtxState :=
  { appended cap tail c with ptrErr := c.ptrErr || bad }

theorem closeSection_idle {s : State} {i : Nat} {c : Context} (h : s.ctx[i]? = some c) (hp : c.st.pending = false)
    (tail : List Byte) (bad : Bool) : closeSection i tail bad s = s := by
  rw [closeSection, ctxAt_of h, hp]; rfl

theorem closeSection_pending {s : State} {i : Nat} {c : Context} (h : s.ctx[i]? = some c) (hp : c.st.pending = true)
    (tail : List Byte) (bad : Bool) :
    closeSection i tail bad s = onCtx i (fun c => { c with pending := false }) (decodeTable c.cfg { s with
      seq := s.seq + 1
      ctx := s.ctx.set i ⟨c.cfg, closing (s.params.bufBytes i) tail bad c.st⟩
      flight := { s.flight with
        errs := s.flight.errs ||| overflowBit (s.params.bufBytes i) tail c.st
        unit := some (unitOf i ⟨c.cfg, closing (s.params.bufBytes i) tail bad c.st⟩ s.seq s.flight.k) } }) := by
  have hi := (List.getElem?_eq_some_iff.mp h).1
  rw [closeSection, ctxAt_of h, if_pos hp, appendUnit_eq h,
    flagPtrErr_eq (c := ⟨c.cfg, appended (s.params.bufBytes i) tail c.st⟩) (by simp [hi])]
  rw [emitUnit_eq (c := ⟨c.cfg, closing (s.params.bufBytes i) tail bad c.st⟩) (by simp [hi, closing, appended])]
  simp [closing, appended]

theorem openSection_eq {s : State} {i : Nat} {c : Context} (h : s.ctx[i]? = some c) (rest : List Byte) (bad : Bool) :
    openSection i rest bad s = { s with
      ctx := s.ctx.set i ⟨c.cfg, appended (s.params.bufBytes i) rest { ctxBegin s.flight.k with ptrErr := bad }⟩
      flight := { s.flight with
        errs := s.flight.errs ||| overflowBit (s.params.bufBytes i) rest (ctxBegin s.flight.k) } } := by
  have hi := (List.getElem?_eq_some_iff.mp h).1
  rw [openSection, beginUnit_eq h, flagPtrErr_eq (c := ⟨c.cfg, ctxBegin s.flight.k⟩) (by simp [hi]),
    appendUnit_eq (c := ⟨c.cfg, { ctxBegin s.flight.k with ptrErr := (ctxBegin s.flight.k).ptrErr || bad }⟩)
      (by simp [hi])]
  simp [ctxBegin, CtxState.reset, overflowBit]

theorem decodeTable_ctx (cfg : CtxCfg) (s : State) : (decodeTable cfg s).ctx = s.ctx := by
  obtain ⟨a, b, e, v, h⟩ := decodeTable_writes cfg s; rw [h]

end Sys2Proof.Machine
end

