-- ==== Sys2Proof/Laws/PerInstr.lean ====
section
/-! SUPPORT. For each operation: the word a well-formed one is encoded to satisfies its row of opcode_table.json,
(word & mask) = match (30_encoding.md R181), for the reference N_CTX = 8 that the table is written for. -/

namespace Sys2Proof.Laws.RowMatch

/-- (word & mask) = match, for the word that stands in an encoded operation, at its format's width. FRAME has no bits. -/
def Matches (mask val : Nat) : Encoded → Prop
  | .frame _ => mask = 0 ∧ val = 0
  | .host w => w &&& BitVec.ofNat 45 mask = BitVec.ofNat 45 val
  | .reset l => l &&& BitVec.ofNat 1 mask = BitVec.ofNat 1 val
  | .op (.header h) => h &&& BitVec.ofNat 32 mask = BitVec.ofNat 32 val
  | .op (.afcClass h) => h &&& BitVec.ofNat 32 mask = BitVec.ofNat 32 val
  | .op (.adaptation h) => h &&& BitVec.ofNat 32 mask = BitVec.ofNat 32 val
  | .op (.routing _ h) => h &&& BitVec.ofNat 32 mask = BitVec.ofNat 32 val
  | .op (.claimed _ _ h) => h &&& BitVec.ofNat 32 mask = BitVec.ofNat 32 val
  | .op (.pcr b) => b &&& BitVec.ofNat 8 mask = BitVec.ofNat 8 val
  | .op (.opcr b) => b &&& BitVec.ofNat 8 mask = BitVec.ofNat 8 val
  | .op (.table c) => c &&& BitVec.ofNat 32 mask = BitVec.ofNat 32 val
  | .op (.pesPrefix _ v) => v &&& BitVec.ofNat 24 mask = BitVec.ofNat 24 val
  | .op (.pesPts _ b) => b &&& BitVec.ofNat 8 mask = BitVec.ofNat 8 val
  | .op (.pesDts _ b) => b &&& BitVec.ofNat 8 mask = BitVec.ofNat 8 val

/-- The mask and the match of each row of opcode_table.json. -/
def row : Instr → Nat × Nat
  | .frame _ => (0, 0)
  | .pktHdr _ => (0, 0)
  | .route _ => (0, 0)
  | .drop _ => (0, 0)
  | .pktAfc00 _ => (0x30, 0x00)
  | .pktPayload _ => (0x30, 0x10)
  | .pktAf _ => (0x30, 0x20)
  | .pktAfPayload _ => (0x30, 0x30)
  | .ctxNone _ _ => (0, 0)
  | .afDecode _ => (0x20, 0x20)
  | .pcrExtract _ => (0x10, 0x10)
  | .opcrExtract _ => (0x08, 0x08)
  | .secCont _ _ => (0x00400000, 0x00000000)
  | .secStart _ _ => (0x00400000, 0x00400000)
  | .patDecode _ => (0x1E, 0x0A)
  | .pmtDecode _ => (0x1E, 0x12)
  | .pesCont _ _ => (0x00400000, 0x00000000)
  | .pesStart _ _ => (0x00400000, 0x00400000)
  | .pesHdrDecode _ => (0xFFFFFF, 0x000001)
  | .ptsDecode _ _ => (0x80, 0x80)
  | .dtsDecode _ _ => (0xC0, 0xC0)
  | .regRead _ => (0x100000000000, 0x000000000000)
  | .wrCtrl _ => (0x1FFC00000000, 0x100400000000)
  | .wrCtxCfg _ _ => (0x1FE000000000, 0x110000000000)
  | .wrIrqEn _ => (0x1FFC00000000, 0x101000000000)
  | .wrErrStatus _ => (0x1FFC00000000, 0x101800000000)
  | .wrUnitRdptr _ => (0x1FFC00000000, 0x107000000000)
  | .wrIgnored _ _ => (0x100000000000, 0x100000000000)
  | .cmdSoftReset => (0x1FFC00000001, 0x100800000001)
  | .cmdEvPop => (0x1FFC00000005, 0x100800000004)
  | .cmdClrTables => (0x1FFC00000003, 0x100800000002)
  | .cmdUnitPop => (0x1FFC00000009, 0x100800000008)
  | .reset => (1, 1)

/-- What is said of an operation: its word satisfies its row. -/
def Statement (i : Instr) : Prop := i.wellFormed 8 = true → Matches (row i).1 (row i).2 (encode i)

/-- A word with one field masked is that field in its place. -/
theorem field_row {w n k : Nat} {x : BitVec w} {v : BitVec k} (h : x.extractLsb' n k = v) :
    x &&& ((BitVec.allOnes k).setWidth w <<< n) = v.setWidth w <<< n := by
  subst h
  apply BitVec.eq_of_getLsbD_eq
  intro i hi
  simp only [BitVec.getLsbD_and, BitVec.getLsbD_shiftLeft, BitVec.getLsbD_setWidth, BitVec.getLsbD_allOnes,
    BitVec.getLsbD_extractLsb']
  by_cases hin : i < n
  · simp [hin]
  · have : n + (i - n) = i := by omega
    by_cases hk : i - n < k <;> simp [hin, hi, this, hk, Bool.and_comm]

theorem frame (fr : List Byte) : Statement (.frame fr) := fun _ => ⟨rfl, rfl⟩
theorem pktHdr (h : Word) : Statement (.pktHdr h) := fun _ => by simp [Matches, encode, row]
theorem route (h : Word) : Statement (.route h) := fun _ => by simp [Matches, encode, row]
theorem drop (h : Word) : Statement (.drop h) := fun _ => by simp [Matches, encode, row]
theorem pktAfc00 (h : Word) : Statement (.pktAfc00 h) := fun hw => field_row (n := 4) (x := h) (v := 0b00#2) (by simpa [Instr.wellFormed] using hw)
theorem pktPayload (h : Word) : Statement (.pktPayload h) := fun hw => field_row (n := 4) (x := h) (v := 0b01#2) (by simpa [Instr.wellFormed] using hw)
theorem pktAf (h : Word) : Statement (.pktAf h) := fun hw => field_row (n := 4) (x := h) (v := 0b10#2) (by simpa [Instr.wellFormed] using hw)
theorem pktAfPayload (h : Word) : Statement (.pktAfPayload h) := fun hw => field_row (n := 4) (x := h) (v := 0b11#2) (by simpa [Instr.wellFormed] using hw)
theorem ctxNone (i : Nat) (h : Word) : Statement (.ctxNone i h) := fun _ => by simp [Matches, encode, row]

/-- A word with one bit masked. -/
theorem single {w : Nat} (x : BitVec w) (n : Nat) (v : Bool) (h : x.getLsbD n = v) :
    x &&& ((BitVec.allOnes 1).setWidth w <<< n) = (BitVec.ofBool v).setWidth w <<< n :=
  field_row (by subst h; apply BitVec.eq_of_getLsbD_eq; intro i hi; have : i = 0 := by omega
                subst this; simp)

theorem afDecode (h : Word) : Statement (.afDecode h) := fun hw => single h 5 true (by simpa [Instr.wellFormed] using hw)
theorem pcrExtract (b : Byte) : Statement (.pcrExtract b) := fun hw => single b 4 true (by simpa [Instr.wellFormed] using hw)
theorem opcrExtract (b : Byte) : Statement (.opcrExtract b) := fun hw => single b 3 true (by simpa [Instr.wellFormed] using hw)
theorem secCont (i : Nat) (h : Word) : Statement (.secCont i h) := fun hw =>
  single h 22 false (by simp only [Instr.wellFormed, Bool.and_eq_true, Bool.not_eq_true'] at hw; exact hw.2)
theorem secStart (i : Nat) (h : Word) : Statement (.secStart i h) := fun hw =>
  single h 22 true (by simp only [Instr.wellFormed, Bool.and_eq_true] at hw; exact hw.2)

theorem patDecode (c : Word) : Statement (.patDecode c) := fun hw => field_row (n := 1) (x := c) (v := 0b0101#4) (by simpa [Instr.wellFormed] using hw)
theorem pmtDecode (c : Word) : Statement (.pmtDecode c) := fun hw => field_row (n := 1) (x := c) (v := 0b1001#4) (by simpa [Instr.wellFormed] using hw)
theorem pesCont (i : Nat) (h : Word) : Statement (.pesCont i h) := fun hw =>
  single h 22 false (by simp only [Instr.wellFormed, Bool.and_eq_true, Bool.not_eq_true'] at hw; exact hw.2)
theorem pesStart (i : Nat) (h : Word) : Statement (.pesStart i h) := fun hw =>
  single h 22 true (by simp only [Instr.wellFormed, Bool.and_eq_true] at hw; exact hw.2)
theorem pesHdrDecode (i : Nat) : Statement (.pesHdrDecode i) := fun _ => by show 1#24 &&& 0xFFFFFF#24 = 1#24; decide
theorem ptsDecode (i : Nat) (b : Byte) : Statement (.ptsDecode i b) := fun hw =>
  single b 7 true (by simp only [Instr.wellFormed, Bool.and_eq_true] at hw; exact hw.2)

theorem dtsDecode (i : Nat) (b : Byte) : Statement (.dtsDecode i b) := fun hw =>
  field_row (n := 6) (x := b) (v := 0b11#2) (by simp only [Instr.wellFormed, Bool.and_eq_true, beq_iff_eq] at hw; exact hw.2)

/-- A mask on the operation bit and the address of a register port word. -/
theorem port_row (o b : BitVec 1) (a m : Addr) (d : Word) {mask val : Nat} (hm : BitVec.ofNat 45 mask = b ++ m ++ 0#32)
    (hv : BitVec.ofNat 45 val = (o &&& b) ++ (a &&& m) ++ 0#32) : Matches mask val (.host (o ++ a ++ d)) := by
  show (o ++ a ++ d : BitVec 45) &&& BitVec.ofNat 45 mask = BitVec.ofNat 45 val
  rw [hm, hv]
  refine Eq.trans BitVec.and_append ?_
  rw [BitVec.and_append, BitVec.and_zero]

theorem regRead (a : Addr) : Statement (.regRead a) := fun _ =>
  port_row 0#1 1#1 a 0#12 0#32 (by simp only [row]; decide) (by simp only [row, BitVec.and_zero]; decide)
theorem wrCtrl (d : Word) : Statement (.wrCtrl d) := fun _ => port_row 1#1 1#1 0x004#12 0xFFC#12 d (by simp only [row]; decide) (by simp only [row]; decide)
theorem wrCtxCfg (i : Nat) (d : Word) : Statement (.wrCtxCfg i d) := fun hw => by
  have hi : i < 8 := by simpa [Instr.wellFormed] using hw
  refine port_row 1#1 1#1 (BitVec.ofNat 12 (0x100 + 4 * i)) 0xFE0#12 d (by simp only [row]; decide) ?_
  interval_cases i <;> (simp only [row]; decide)
theorem wrIrqEn (d : Word) : Statement (.wrIrqEn d) := fun _ => port_row 1#1 1#1 0x010#12 0xFFC#12 d (by simp only [row]; decide) (by simp only [row]; decide)
theorem wrErrStatus (d : Word) : Statement (.wrErrStatus d) := fun _ =>
  port_row 1#1 1#1 0x018#12 0xFFC#12 d (by simp only [row]; decide) (by simp only [row]; decide)
theorem wrUnitRdptr (d : Word) : Statement (.wrUnitRdptr d) := fun _ =>
  port_row 1#1 1#1 0x070#12 0xFFC#12 d (by simp only [row]; decide) (by simp only [row]; decide)
theorem wrIgnored (a : Addr) (d : Word) : Statement (.wrIgnored a d) := fun _ =>
  port_row 1#1 1#1 a 0#12 d (by simp only [row]; decide) (by simp only [row, BitVec.and_zero]; decide)
theorem cmdSoftReset : Statement .cmdSoftReset := fun _ => by simp only [Matches, row, encode]; decide
theorem cmdEvPop : Statement .cmdEvPop := fun _ => by simp only [Matches, row, encode]; decide
theorem cmdClrTables : Statement .cmdClrTables := fun _ => by simp only [Matches, row, encode]; decide
theorem cmdUnitPop : Statement .cmdUnitPop := fun _ => by simp only [Matches, row, encode]; decide
theorem reset : Statement .reset := fun _ => by simp only [Matches, row, encode]; decide

end Sys2Proof.Laws.RowMatch
end

