-- ==== Sys2Proof/Laws/Reassembly.lean ====
section
/-! SUPPORT. What a context's operation can change: its own reassembly state, SEQ, the tables and the transient variables
of the frame, and nothing else (42_section.md R270). Proved once for each operation, from the equations of Laws/Frame. -/

namespace Sys2Proof.Machine

/-- `t` is `s` but for the reassembly state of context i, SEQ, the two tables and the frame's transient variables. -/
structure Touches (i : Nat) (s t : State) : Prop where
  params    : t.params = s.params
  ctrl      : t.ctrl = s.ctrl
  irqEn     : t.irqEn = s.irqEn
  errStatus : t.errStatus = s.errStatus
  pktIndex  : t.pktIndex = s.pktIndex
  dropCount : t.dropCount = s.dropCount
  lastHdr   : t.lastHdr = s.lastHdr
  lastAf    : t.lastAf = s.lastAf
  evq       : t.evq = s.evq
  uq        : t.uq = s.uq
  unitRdptr : t.unitRdptr = s.unitRdptr
  offers    : t.offers = s.offers
  turns     : t.turns = s.turns
  rdata     : t.rdata = s.rdata
  k         : t.flight.k = s.flight.k
  p         : t.flight.p = s.flight.p
  h         : t.flight.h = s.flight.h
  pl        : t.flight.pl = s.flight.pl
  claim     : t.flight.claim = s.flight.claim
  evAf      : t.flight.evAf = s.flight.evAf
  evOpcr    : t.flight.evOpcr = s.flight.evOpcr
  length    : t.ctx.length = s.ctx.length
  others    : ∀ j, j ≠ i → t.ctx[j]? = s.ctx[j]?
  cfg       : ∀ c : Context, s.ctx[i]? = some c → ∃ st, t.ctx[i]? = some ⟨c.cfg, st⟩

theorem Touches.refl (i : Nat) (s : State) : Touches i s s := by
  constructor <;> intros <;> first | rfl | exact ⟨_, ‹_›⟩

theorem Touches.trans {i : Nat} {s t u : State} (h : Touches i s t) (g : Touches i t u) : Touches i s u := by
  constructor
  case others => exact fun j hj => (g.others j hj).trans (h.others j hj)
  case cfg => exact fun c hc => by obtain ⟨st, ht⟩ := h.cfg c hc; obtain ⟨st', hu⟩ := g.cfg _ ht; exact ⟨st', hu⟩
  case params => exact g.params.trans h.params
  case ctrl => exact g.ctrl.trans h.ctrl
  case irqEn => exact g.irqEn.trans h.irqEn
  case errStatus => exact g.errStatus.trans h.errStatus
  case pktIndex => exact g.pktIndex.trans h.pktIndex
  case dropCount => exact g.dropCount.trans h.dropCount
  case lastHdr => exact g.lastHdr.trans h.lastHdr
  case lastAf => exact g.lastAf.trans h.lastAf
  case evq => exact g.evq.trans h.evq
  case uq => exact g.uq.trans h.uq
  case unitRdptr => exact g.unitRdptr.trans h.unitRdptr
  case offers => exact g.offers.trans h.offers
  case turns => exact g.turns.trans h.turns
  case rdata => exact g.rdata.trans h.rdata
  case k => exact g.k.trans h.k
  case p => exact g.p.trans h.p
  case h => exact g.h.trans h.h
  case pl => exact g.pl.trans h.pl
  case claim => exact g.claim.trans h.claim
  case evAf => exact g.evAf.trans h.evAf
  case evOpcr => exact g.evOpcr.trans h.evOpcr
  case length => exact g.length.trans h.length

/-- The shared form of every step of a reassembly: context i's state, SEQ, the tables and some transient variables. -/
theorem touches_of (i : Nat) (s : State) (f : CtxState → CtxState) (seq : BitVec 16) (pat : PatTable) (pmt : PmtTable)
    (errs : BitVec 7) (unit : Option UnitRec) (ev : Option EvRec) (ptr : Option Byte) (ps : Option Nat) :
    Touches i s { onCtx i f s with
      seq := seq
      pat := pat
      pmt := pmt
      flight := { s.flight with errs := errs, unit := unit, evTbl := ev, ptr := ptr, ps := ps } } := by
  constructor
  case length => simp
  case others => intro j hj; simp [Ne.symm hj]
  case cfg => intro c hc; exact ⟨f c.st, by simp [hc]⟩
  all_goals rfl

theorem touches_onCtx (i : Nat) (f : CtxState → CtxState) (s : State) : Touches i s (onCtx i f s) :=
  touches_of i s f s.seq s.pat s.pmt s.flight.errs s.flight.unit s.flight.evTbl s.flight.ptr s.flight.ps

theorem modify_same (l : List Context) (i : Nat) : l.modify i (fun c => { c with st := c.st }) = l := by
  exact List.modify_id i l

theorem onCtx_same (i : Nat) (s : State) : onCtx i (fun c => c) s = s := by
  show { s with ctx := s.ctx.modify i (fun c => { c with st := c.st }) } = s
  rw [modify_same]

/-- A step that leaves the contexts alone. -/
theorem touches_flight (i : Nat) (s : State) (seq : BitVec 16) (pat : PatTable) (pmt : PmtTable)
    (errs : BitVec 7) (unit : Option UnitRec) (ev : Option EvRec) (ptr : Option Byte) (ps : Option Nat) :
    Touches i s { s with
      seq := seq
      pat := pat
      pmt := pmt
      flight := { s.flight with errs := errs, unit := unit, evTbl := ev, ptr := ptr, ps := ps } } := by
  have h := touches_of i s (fun c => c) seq pat pmt errs unit ev ptr ps
  rwa [onCtx_same] at h

theorem touches_raise (i : Nat) (c : Cause) (s : State) : Touches i s (raise c s) :=
  touches_flight i s s.seq s.pat s.pmt _ s.flight.unit s.flight.evTbl s.flight.ptr s.flight.ps

theorem touches_raiseIf (i : Nat) (b : Bool) (c : Cause) (s : State) : Touches i s (raiseIf b c s) := by
  cases b
  · exact Touches.refl i s
  · exact touches_raise i c s

theorem touches_appendUnit (i : Nat) (b : List Byte) (s : State) : Touches i s (appendUnit i b s) := by
  unfold appendUnit
  split
  · exact touches_onCtx i _ s
  · exact (touches_raiseIf i _ _ s).trans (touches_onCtx i _ _)

theorem touches_beginUnit (i : Nat) (s : State) : Touches i s (beginUnit i s) := touches_onCtx i _ s

theorem touches_flagPtrErr (bad : Bool) (i : Nat) (s : State) : Touches i s (flagPtrErr bad i s) := by
  cases bad
  · exact Touches.refl i s
  · exact touches_onCtx i (fun c => { c with ptrErr := true }) s

theorem touches_decodeTable (i : Nat) (cfg : CtxCfg) (s : State) : Touches i s (decodeTable cfg s) := by
  obtain ⟨pat, pmt, errs, ev, h⟩ := decodeTable_writes cfg s
  rw [h]; exact touches_flight i s s.seq pat pmt errs s.flight.unit ev s.flight.ptr s.flight.ps

theorem touches_emitUnit (i : Nat) (s : State) : Touches i s (emitUnit i s) := by
  unfold emitUnit
  exact ((touches_flight i s (s.seq + 1) s.pat s.pmt s.flight.errs (some (unitOf i (ctxAt s i) s.seq s.flight.k))
    s.flight.evTbl s.flight.ptr s.flight.ps).trans (touches_decodeTable i (ctxAt s i).cfg _)).trans
    (touches_onCtx i (fun c => { c with pending := false }) _)

theorem touches_secCont (i : Nat) (s : State) : Touches i s (secCont i s) := by
  unfold secCont
  split
  · exact touches_appendUnit i _ s
  · exact Touches.refl i s

theorem touches_closeSection (i : Nat) (tail : List Byte) (bad : Bool) (s : State) :
    Touches i s (closeSection i tail bad s) := by
  unfold closeSection
  split
  · exact ((touches_appendUnit i tail s).trans (touches_flagPtrErr bad i _)).trans (touches_emitUnit i _)
  · exact Touches.refl i s

theorem touches_openSection (i : Nat) (rest : List Byte) (bad : Bool) (s : State) :
    Touches i s (openSection i rest bad s) :=
  ((touches_beginUnit i s).trans (touches_flagPtrErr bad i _)).trans (touches_appendUnit i rest _)

theorem touches_secStart (i : Nat) (s : State) : Touches i s (secStart i s) := by
  unfold secStart
  simp only
  split
  · exact touches_raise i _ s
  · exact (((touches_flight i s s.seq s.pat s.pmt s.flight.errs s.flight.unit s.flight.evTbl _ s.flight.ps).trans
      (touches_raiseIf i _ _ _)).trans (touches_closeSection i _ _ _)).trans (touches_openSection i _ _ _)

theorem touches_pesCont (i : Nat) (s : State) : Touches i s (pesCont i s) := by
  unfold pesCont
  split
  · exact touches_appendUnit i _ s
  · exact Touches.refl i s

theorem touches_truncPes (i : Nat) (s : State) : Touches i s (truncPes i s) :=
  (touches_raise i _ s).trans (touches_onCtx i _ _)

theorem touches_setPs (i : Nat) (ps : Option Nat) (s : State) : Touches i s (setPs ps s) :=
  touches_flight i s s.seq s.pat s.pmt s.flight.errs s.flight.unit s.flight.evTbl s.flight.ptr ps

theorem touches_pesPts (i : Nat) (pdf : BitVec 2) (ps : Nat) (s : State) : Touches i s (pesPts i pdf ps s) := by
  unfold pesPts
  split
  · split
    · exact touches_onCtx i _ s
    · exact touches_truncPes i s
  · exact Touches.refl i s

theorem touches_pesDts (i : Nat) (pdf : BitVec 2) (ps : Nat) (s : State) : Touches i s (pesDts i pdf ps s) := by
  unfold pesDts
  split
  · split
    · exact touches_onCtx i _ s
    · exact touches_truncPes i s
  · exact Touches.refl i s

theorem touches_pesHdrDecode (i : Nat) (s : State) : Touches i s (pesHdrDecode i s) := by
  unfold pesHdrDecode
  simp only
  split
  · exact (touches_truncPes i s).trans (touches_setPs i _ _)
  · split
    · exact (touches_onCtx i _ s).trans (touches_setPs i _ _)
    · split
      · exact ((touches_onCtx i _ s).trans (touches_truncPes i _)).trans (touches_setPs i _ _)
      · split
        · exact (((touches_onCtx i _ s).trans (touches_onCtx i _ _)).trans (touches_truncPes i _)).trans
            (touches_setPs i _ _)
        · exact ((((touches_onCtx i _ s).trans (touches_onCtx i _ _)).trans (touches_pesPts i _ _ _)).trans
            (touches_pesDts i _ _ _)).trans (touches_setPs i _ _)

theorem touches_pesOpenHeader (i : Nat) (s : State) : Touches i s (pesOpenHeader i s) := by
  unfold pesOpenHeader
  simp only
  split
  · exact (touches_onCtx i _ s).trans (touches_pesHdrDecode i _)
  · exact ((touches_onCtx i _ s).trans (touches_pesHdrDecode i _)).trans (touches_appendUnit i _ _)

theorem touches_pesStart (i : Nat) (s : State) : Touches i s (pesStart i s) := by
  have h : Touches i s (beginUnit i (if (ctxAt s i).st.pending then emitUnit i s else s)) := by
    split
    · exact (touches_emitUnit i s).trans (touches_beginUnit i _)
    · exact touches_beginUnit i s
  unfold pesStart
  dsimp only
  generalize beginUnit i (if (ctxAt s i).st.pending then emitUnit i s else s) = t at h ⊢
  by_cases hs : hasStartCode t.flight.pl = true
  · rw [if_pos hs]; exact h.trans (touches_pesOpenHeader i t)
  · rw [if_neg hs]; exact h.trans (touches_appendUnit i _ t)

/-- The operation of the claiming context c. -/
theorem touches_contextOp (c : Nat) (h : Word) (s : State) : Touches c s (contextOp c h s) := by
  unfold contextOp
  split
  · exact Touches.refl c s
  · split
    · exact touches_secStart c s
    · exact touches_secCont c s
  · split
    · exact touches_pesStart c s
    · exact touches_pesCont c s

end Sys2Proof.Machine
end

