-- ==== Sys2Proof/Laws/Words.lean ====
section
/-! SUPPORT. What each register word is worth as a number, field by field. -/

namespace Sys2Proof.Machine

@[simp] theorem bit_toNat (b : Bool) : (bit b).toNat = b.toNat := by cases b <;> rfl

theorem bool_toNat_lt (b : Bool) : b.toNat < 2 := by cases b <;> decide

theorem idWord_toNat : idWord.toNat = 0x54534631 := rfl

theorem paramsWord_toNat (p : Params) :
    (paramsWord p).toNat = p.nCtx % 32 + 256 * (p.evqDepth % 256) + 65536 * (p.uqDepth % 256) := by
  simp only [paramsWord, toNat_append_mul, BitVec.toNat_ofNat]; omega

theorem params2Word_toNat (p : Params) : (params2Word p).toNat = p.patMax % 512 + 65536 * (p.pmtEsMax % 256) := by
  simp only [params2Word, toNat_append_mul, BitVec.toNat_ofNat]; omega

theorem ctrlWord_toNat (c : Ctrl) : (ctrlWord c).toNat = c.en.toNat + 2 * c.frameSize.code.toNat := by
  simp only [ctrlWord, toNat_append_mul, bit_toNat, BitVec.toNat_ofNat]; omega

theorem ctxCfgWord_toNat (c : CtxCfg) :
    (ctxCfgWord c).toNat = c.en.toNat + 2 * (kindCode c.kind).toNat + 8 * c.parse.code.toNat + 32 * c.afev.toNat
      + 65536 * c.pid.toNat := by
  simp only [ctxCfgWord, toNat_append_mul, bit_toNat, BitVec.toNat_ofNat]; omega

theorem statusWord_toNat (s : State) :
    (statusWord s).toNat = (decide (0 < s.evq.length)).toNat + 2 * (decide (0 < s.uq.length)).toNat
      + 4 * (held s).toNat + 256 * (s.evq.length % 256) + 65536 * (s.uq.length % 256) := by
  simp only [statusWord, toNat_append_mul, bit_toNat, BitVec.toNat_ofNat]; omega

theorem irqStatusWord_toNat (s : State) :
    (irqStatusWord s).toNat = (decide (0 < s.evq.length)).toNat + 2 * (decide (0 < s.uq.length)).toNat
      + 4 * (s.errStatus != 0#7).toNat + 8 * (irq s).toNat := by
  simp only [irqStatusWord, toNat_append_mul, bit_toNat, BitVec.toNat_ofNat]; omega

theorem ctxStatWord_toNat (c : CtxState) :
    (ctxStatWord c).toNat = c.pending.toNat + 2 * c.ovf.toNat + 4 * c.ptrErr.toNat + 8 * c.hdrErr.toNat
      + 256 * (c.buf.length % 2 ^ 24) := by
  simp only [ctxStatWord, toNat_append_mul, bit_toNat, BitVec.toNat_ofNat]; omega

theorem lastAfWord_toNat (h : Word) (p : List Byte) :
    (lastAfWord h p).toNat =
      if hdrHasAf h then
        (afLen p).toNat + 256 * (if 0 < (afLen p).toNat then (byteAt p 5).toNat else 0) + 65536
          + 131072 * (decide (0 < (afLen p).toNat)).toNat
      else 0 := by
  simp only [lastAfWord]
  split
  · simp only [toNat_append_mul, bit_toNat, BitVec.toNat_ofNat, decide_eq_true_eq]
    split
    · omega
    · simp only [BitVec.toNat_ofNat]; omega
  · rfl

theorem udescWord_zero (u : UnitRec) :
    (udescWord u 0).toNat = u.ctx.toNat + 16 * u.isPes.toNat + 32 * u.ovf.toNat + 64 * u.ptrErr.toNat
      + 128 * u.hdrErr.toNat + 256 * u.pesHdr.toNat + 512 * u.ptsV.toNat + 1024 * u.dtsV.toNat
      + 65536 * u.seq.toNat := by
  simp only [udescWord, toNat_append_mul, bit_toNat, BitVec.toNat_ofNat]; omega

theorem udescWord_one (u : UnitRec) : (udescWord u 1).toNat = u.data.length % 2 ^ 24 := by
  simp only [udescWord, toNat_append_mul, BitVec.toNat_ofNat]; omega

theorem udescWord_four (u : UnitRec) :
    (udescWord u 4).toNat = if u.isPes && u.pesHdr then u.ppl.toNat + 65536 * u.sid.toNat + 16777216 * u.hdl.toNat else 0 := by
  simp only [udescWord]
  split
  · simp only [toNat_append_mul]; omega
  · rfl

/-- The timestamps a descriptor shows (30_encoding.md R175). -/
def shownPts (u : UnitRec) : Nat := if u.isPes && u.pesHdr && u.ptsV then u.pts.toNat else 0
def shownDts (u : UnitRec) : Nat := if u.isPes && u.pesHdr && u.dtsV then u.dts.toNat else 0

theorem udescWord_five (u : UnitRec) : (udescWord u 5).toNat = shownPts u % 2 ^ 32 := by
  simp only [udescWord, shownPts, toNat_field]
  split <;> simp

theorem udescWord_six (u : UnitRec) : (udescWord u 6).toNat = shownDts u % 2 ^ 32 := by
  simp only [udescWord, shownDts, toNat_field]
  split <;> simp

theorem udescWord_seven (u : UnitRec) :
    (udescWord u 7).toNat = if u.isPes && u.pesHdr then
      shownPts u / 2 ^ 32 + 2 * (shownDts u / 2 ^ 32) + 4 * u.pdf.toNat else 0 := by
  have e1 := u.pts.isLt
  have e2 := u.dts.isLt
  simp only [udescWord]
  by_cases h : (u.isPes && u.pesHdr) = true
  · rw [if_pos h, if_pos h]
    simp only [toNat_append_mul, toNat_field, BitVec.toNat_ofNat]
    simp only [h, shownPts, shownDts, Bool.true_and]
    split <;> split <;> simp <;> omega
  · rw [if_neg h, if_neg h]; rfl

theorem unitDataWord_toNat {s : State} {u : UnitRec} {us : List UnitRec} (h : s.uq = u :: us) :
    (unitDataWord s).toNat = (u.data.getD s.unitRdptr.toNat 0#8).toNat * 16777216 +
      (u.data.getD (s.unitRdptr.toNat + 1) 0#8).toNat * 65536 + (u.data.getD (s.unitRdptr.toNat + 2) 0#8).toNat * 256 +
      (u.data.getD (s.unitRdptr.toNat + 3) 0#8).toNat := by
  simp only [unitDataWord, h, be32_toNat]

theorem patH0Word_toNat (t : PatTable) :
    (patH0Word t).toNat = t.tableId.toNat + 256 * t.version.toNat + 2 ^ 31 * t.valid.toNat := by
  simp only [patH0Word, toNat_append_mul, bit_toNat, BitVec.toNat_ofNat]; omega

theorem patH1Word_toNat (t : PatTable) : (patH1Word t).toNat = t.tsId.toNat + 65536 * t.sectionLength.toNat := by
  simp only [patH1Word, toNat_append_mul, BitVec.toNat_ofNat]; omega

theorem patCountWord_toNat (t : PatTable) : (patCountWord t).toNat = t.n.toNat + 2 ^ 31 * t.trunc.toNat := by
  simp only [patCountWord, toNat_append_mul, bit_toNat, BitVec.toNat_ofNat]; omega

theorem patEntryWord_toNat (t : PatTable) (k : Nat) :
    (patEntryWord t k).toNat = match t.entries[k]? with
      | none => 0
      | some e => 65536 * e.programNumber.toNat + e.pid.toNat := by
  simp only [patEntryWord]
  cases t.entries[k]? with
  | none => rfl
  | some e => simp only [toNat_append_mul, BitVec.toNat_ofNat]; omega

theorem pmtH0Word_toNat (t : PmtTable) :
    (pmtH0Word t).toNat = t.programNumber.toNat + 65536 * t.pcrPid.toNat + 2 ^ 31 * t.valid.toNat := by
  simp only [pmtH0Word, toNat_append_mul, bit_toNat, BitVec.toNat_ofNat]; omega

theorem pmtH1Word_toNat (t : PmtTable) : (pmtH1Word t).toNat = t.programInfoLength.toNat + 65536 * t.tableId.toNat := by
  simp only [pmtH1Word, toNat_append_mul, BitVec.toNat_ofNat]; omega

theorem pmtH2Word_toNat (t : PmtTable) : (pmtH2Word t).toNat = t.sectionLength.toNat := by
  simp only [pmtH2Word, toNat_append_mul, BitVec.toNat_ofNat]; omega

theorem pmtEsCountWord_toNat (t : PmtTable) :
    (pmtEsCountWord t).toNat = t.es.length % 65536 + 2 ^ 31 * t.trunc.toNat := by
  simp only [pmtEsCountWord, toNat_append_mul, bit_toNat, BitVec.toNat_ofNat]; omega

theorem pmtEsAWord_toNat (t : PmtTable) (k : Nat) :
    (pmtEsAWord t k).toNat = match t.es[k]? with
      | none => 0
      | some e => e.streamType.toNat + 65536 * e.pid.toNat := by
  simp only [pmtEsAWord]
  cases t.es[k]? with
  | none => rfl
  | some e => simp only [toNat_append_mul, BitVec.toNat_ofNat]; omega

theorem pmtEsBWord_toNat (t : PmtTable) (k : Nat) :
    (pmtEsBWord t k).toNat = match t.es[k]? with
      | none => 0
      | some e => e.esInfoLength.toNat := by
  simp only [pmtEsBWord]
  cases t.es[k]? with
  | none => rfl
  | some e => simp only [toNat_append_mul, BitVec.toNat_ofNat]; omega

end Sys2Proof.Machine
end

