-- ==== Sys2Proof/Laws/Registers.lean ====
section
/-! SUPPORT. The register port: the fields of a host word, what a read of an address returns, and where the indexed
registers of the map lie. -/

namespace Sys2Proof.Machine

/-! ## The fields of a host word (30_encoding.md R160) -/

theorem hostWrite_addr (a : Addr) (d : Word) : (hostWrite a d).extractLsb' 32 12 = a := by
  apply BitVec.eq_of_toNat_eq
  simp only [toNat_field, hostWrite, toNat_append_mul, BitVec.toNat_ofNat]
  have := a.isLt
  have := d.isLt
  omega

theorem hostWrite_data (a : Addr) (d : Word) : (hostWrite a d).extractLsb' 0 32 = d := by
  apply BitVec.eq_of_toNat_eq
  simp only [toNat_field, hostWrite, toNat_append_mul, BitVec.toNat_ofNat]
  have := a.isLt
  have := d.isLt
  omega

theorem hostWrite_op (a : Addr) (d : Word) : (hostWrite a d).getLsbD 44 = true := by
  rw [getLsbD_eq_beq, beq_iff_eq]
  simp only [hostWrite, toNat_append_mul, BitVec.toNat_ofNat]
  have := a.isLt
  have := d.isLt
  omega

theorem hostRead_addr (a : Addr) : (hostRead a).extractLsb' 32 12 = a := by
  apply BitVec.eq_of_toNat_eq
  simp only [toNat_field, hostRead, toNat_append_mul, BitVec.toNat_ofNat]
  have := a.isLt
  omega

theorem hostRead_op (a : Addr) : (hostRead a).getLsbD 44 = false := by
  rw [getLsbD_eq_beq, beq_eq_false_iff_ne]
  simp only [hostRead, toNat_append_mul, BitVec.toNat_ofNat]
  have := a.isLt
  omega

theorem decodeHost_write (n : Nat) (a : Addr) (d : Word) : decodeHost n (hostWrite a d) = decodeWrite n a d := by
  simp only [decodeHost, hostWrite_addr, hostWrite_data, hostWrite_op, if_true]

theorem decodeHost_read (n : Nat) (a : Addr) : decodeHost n (hostRead a) = [.regRead a] := by
  simp only [decodeHost, hostRead_addr, hostRead_op]
  rfl

theorem perform_write (s : State) (a : Addr) (d : Word) :
    perform (.host (hostWrite a d)) s = execAll (decodeWrite s.params.nCtx a d) s := by
  simp only [perform, decode, decodeHost_write]

/-! ## The register map (10_state.md R36) -/

theorem word_ofNat {a : Nat} (h : a < 4096) : Addr.word (BitVec.ofNat 12 a) = a / 4 := by
  simp [Addr.word, Nat.mod_eq_of_lt h]

theorem readReg_of {s : State} {a : Addr} {r : Reg} (h : regOf s.params a = some r) : readReg s a = regValue s r := by
  simp [readReg, h]

theorem readReg_congr (s : State) {a b : Addr} (h : b.toNat / 4 = a.toNat / 4) : readReg s b = readReg s a := by
  simp only [readReg, regOf, Addr.word, h]
  rfl

theorem regOf_ctxCfg {p : Params} {i : Nat} (hl : p.nCtx ≤ 16) (hi : i < p.nCtx) :
    regOf p (BitVec.ofNat 12 (0x100 + 4 * i)) = some (.ctxCfg i) := by
  rw [regOf, word_ofNat (by omega), show (0x100 + 4 * i) / 4 = 64 + i by omega]
  simp (disch := omega) only [if_pos, if_neg, Nat.add_sub_cancel_left]

theorem regOf_ctxStat {p : Params} {i : Nat} (hl : p.nCtx ≤ 16) (hi : i < p.nCtx) :
    regOf p (BitVec.ofNat 12 (0x140 + 4 * i)) = some (.ctxStat i) := by
  rw [regOf, word_ofNat (by omega), show (0x140 + 4 * i) / 4 = 80 + i by omega]
  simp (disch := omega) only [if_pos, if_neg, Nat.add_sub_cancel_left]

/-- The PAT and PMT header registers. -/
theorem regOf_table {p : Params} (hl : p.nCtx ≤ 16) {j : Nat} (hj : j < 8) :
    regOf p (BitVec.ofNat 12 (0x200 + 4 * j)) = tableReg j := by
  rw [regOf, word_ofNat (by omega), show (0x200 + 4 * j) / 4 = 128 + j by omega]
  simp (disch := omega) only [if_pos, if_neg, Nat.add_sub_cancel_left]

theorem regOf_patEntry {p : Params} {k : Nat} (hl : p.nCtx ≤ 16) (hm : p.patMax ≤ 256) (hk : k < p.patMax) :
    regOf p (BitVec.ofNat 12 (0x400 + 4 * k)) = some (.patEntry k) := by
  rw [regOf, word_ofNat (by omega), show (0x400 + 4 * k) / 4 = 256 + k by omega]
  simp (disch := omega) only [if_pos, if_neg, Nat.add_sub_cancel_left]

theorem regOf_pmtEsA {p : Params} {k : Nat} (hl : p.nCtx ≤ 16) (hm : p.patMax ≤ 256) (hm' : p.pmtEsMax ≤ 128)
    (hk : k < p.pmtEsMax) : regOf p (BitVec.ofNat 12 (0x800 + 8 * k)) = some (.pmtEsA k) := by
  rw [regOf, word_ofNat (by omega), show (0x800 + 8 * k) / 4 = 512 + 2 * k by omega]
  simp (disch := omega) only [if_pos, if_neg, Nat.add_sub_cancel_left]
  congr 2
  omega

theorem regOf_pmtEsB {p : Params} {k : Nat} (hl : p.nCtx ≤ 16) (hm : p.patMax ≤ 256) (hm' : p.pmtEsMax ≤ 128)
    (hk : k < p.pmtEsMax) : regOf p (BitVec.ofNat 12 (0x804 + 8 * k)) = some (.pmtEsB k) := by
  rw [regOf, word_ofNat (by omega), show (0x804 + 8 * k) / 4 = 513 + 2 * k by omega]
  simp (disch := omega) only [if_pos, if_neg]
  congr 2
  omega

/-- A configuration write leaves the context at its reset state under the stored configuration (R411). -/
theorem execWrCtxCfg_of {s : State} {i : Nat} {c : Context} (h : s.ctx[i]? = some c) (d : Word) :
    execWrCtxCfg i d s = .next { s with ctx := s.ctx.set i ⟨ctxCfgOf d, .reset⟩ } := by
  rw [execWrCtxCfg, modify_of h]

end Sys2Proof.Machine
end

