-- ==== Sys2Proof/Tests/Slice0.lean ====
section
/-! SUPPORT. Tests of the model: ill-formed terms refused, words written out from the spec's encodings, single steps whose
expected values are those of 95_test_vectors.md, and a witness for the hypotheses of each statement. -/

open Sys2Proof Sys2Proof.Machine Sys2Proof.Claims

namespace Sys2Proof.Tests

set_option Elab.async false

/-! ## Helpers -/

/-- A test of the next state. -/
def nextIs (o : Host.Outcome State Fault Refusal) (p : State → Bool) : Bool :=
  match o with | .next t => p t | .fault _ => false | .refused _ => false

/-- Bytes of numerals. -/
def bytes (l : List Nat) : List Byte := l.map (BitVec.ofNat 8)

/-- Bytes padded with 0xFF to a packet (30_encoding.md R191). -/
def packet188 (l : List Nat) : List Byte := bytes l ++ List.replicate (188 - l.length) 0xFF#8

/-- A context of a kind on a PID, with a reassembly state. -/
def context (kind : Kind) (parse : Parse) (afev : Bool) (pid : Pid) (st : CtxState) : Context :=
  ⟨⟨true, kind, parse, afev, pid⟩, st⟩

/-- A unit in progress with some bytes, begun by packet 0. -/
def pendingWith (b : List Byte) : CtxState := { CtxState.reset with pending := true, buf := b }

/-- The reference instance running 188-byte frames, with context 0 given. -/
def running (c : Context) : State :=
  { State.reset with ctrl := ⟨true, .b188⟩, ctx := State.reset.ctx.set 0 c }

/-- The unit in progress of the "first boundary" of 95_test_vectors.md: AA BB and 181 bytes FF. -/
def firstBoundary : CtxState := pendingWith (bytes [0xAA, 0xBB] ++ List.replicate 181 0xFF#8)

/-- S-SEC after its first boundary; packet index 1. -/
def secState : State := { running (context .sec .none false 0x010#13 firstBoundary) with pktIndex := 1 }

/-- A payload in the frame in progress of context 0. -/
def onPayload (c : Context) (b : List Byte) : State :=
  { running c with flight := { Flight.idle with pl := b } }

/-- A packet in the frame in progress. -/
def onPacket (p : List Byte) : State := { State.reset with flight := { Flight.idle with p := p } }

/-- A unit in the frame in progress. -/
def onUnit (b : List Byte) : State :=
  { State.reset with flight := { Flight.idle with
      unit := some (closed 0 false (begun 0 4352 b false) 0 0) } }

/-- An adaptation field in progress, of length L. -/
def onAf (p : List Byte) (len flags : Byte) : State :=
  { State.reset with flight := { Flight.idle with p := p, af := some (afWithFlags len flags) } }

/-- A PES context in progress with a payload. -/
def onPes (b : List Byte) : State := onPayload (context .pes .none false 0x020#13 { CtxState.reset with pending := true }) b

/-! ## Ill-formed terms are refused, one for each check -/

theorem smoke_frame_length : (Instr.frame (List.replicate 187 0)).wellFormed 8 = false := by decide +kernel
theorem smoke_afc00 : (Instr.pktAfc00 0x10#32).wellFormed 8 = false := by decide
theorem smoke_payload : (Instr.pktPayload 0x30#32).wellFormed 8 = false := by decide
theorem smoke_af : (Instr.pktAf 0x30#32).wellFormed 8 = false := by decide
theorem smoke_afPayload : (Instr.pktAfPayload 0x20#32).wellFormed 8 = false := by decide
theorem smoke_afDecode : (Instr.afDecode 0x1F#32).wellFormed 8 = false := by decide
theorem smoke_pcr : (Instr.pcrExtract 0xEF#8).wellFormed 8 = false := by decide
theorem smoke_opcr : (Instr.opcrExtract 0xF7#8).wellFormed 8 = false := by decide
theorem smoke_context_index :
    [Instr.ctxNone 8 0, .secCont 8 0, .secStart 8 0x00400000#32, .pesCont 8 0, .pesStart 8 0x00400000#32, .pesHdrDecode 8,
      .ptsDecode 8 0x80#8, .dtsDecode 8 0xC0#8, .wrCtxCfg 8 0].all (fun i => !i.wellFormed 8) = true := by decide
theorem smoke_pusi :
    [Instr.secCont 0 0x00400000#32, .secStart 0 0xFFBFFFFF#32, .pesCont 0 0x00400000#32,
      .pesStart 0 0#32].all (fun i => !i.wellFormed 8) = true := by decide
theorem smoke_table :
    [Instr.patDecode 0x12#32, .patDecode 0x08#32, .pmtDecode 0x0A#32, .pmtDecode 0x14#32].all
      (fun i => !i.wellFormed 8) = true := by decide
theorem smoke_timestamp_flags :
    [Instr.ptsDecode 0 0x7F#8, .dtsDecode 0 0x80#8, .dtsDecode 0 0x40#8].all (fun i => !i.wellFormed 8) = true := by decide
theorem smoke_ignored_write_of_a_register :
    [Instr.wrIgnored 0x004 0, .wrIgnored 0x008 4, .wrIgnored 0x010 0, .wrIgnored 0x018 0, .wrIgnored 0x070 0,
      .wrIgnored 0x100 0, .wrIgnored 0x11F 0].all (fun i => !i.wellFormed 8) = true := by decide

/-! ## Words written out from the spec's encodings (30_encoding.md R140 to R151, R160, R180) -/

/-- sync 47, TEI 0, PUSI, TP 0, PID, TSC 00, AFC, CC (R140). -/
def headerWord (pusi : BitVec 1) (pid : BitVec 13) (afc : BitVec 2) (cc : BitVec 4) : Word :=
  0b01000111#8 ++ 0b0#1 ++ pusi ++ 0b0#1 ++ pid ++ 0b00#2 ++ afc ++ cc

theorem test_decode_frame : decode 8 (.frame (List.replicate 204 0x47)) = .ok [.frame (List.replicate 204 0x47)] := by
  decide +kernel
theorem test_decode_frame_length : decode 8 (.frame (List.replicate 200 0x47)) = .error .frameLength := by decide +kernel
theorem test_decode_header : decode 8 (.op (.header 0x47410011#32)) =
    .ok [.pktHdr (headerWord 0b1#1 0b0000100000000#13 0b01#2 0b0001#4)] := by decide
theorem test_decode_routing : decode 8 (.op (.routing true 0x471FFF10#32)) =
      .ok [.route (headerWord 0b0#1 0b1111111111111#13 0b01#2 0b0000#4)] ∧
    decode 8 (.op (.routing false 0x471FFF10#32)) = .ok [.drop 0x471FFF10#32] := by decide
theorem test_decode_classes :
    decode 8 (.op (.afcClass 0x47010001#32)) = .ok [.pktAfc00 (headerWord 0#1 0b0000100000000#13 0b00#2 0b0001#4)] ∧
    decode 8 (.op (.afcClass 0x47010011#32)) = .ok [.pktPayload (headerWord 0#1 0b0000100000000#13 0b01#2 0b0001#4)] ∧
    decode 8 (.op (.afcClass 0x47010021#32)) = .ok [.pktAf (headerWord 0#1 0b0000100000000#13 0b10#2 0b0001#4)] ∧
    decode 8 (.op (.afcClass 0x47010031#32)) = .ok [.pktAfPayload (headerWord 0#1 0b0000100000000#13 0b11#2 0b0001#4)] := by
  decide
theorem test_decode_adaptation : decode 8 (.op (.adaptation 0x47010020#32)) = .ok [.afDecode 0x47010020#32] ∧
    decode 8 (.op (.adaptation 0x47010010#32)) = .error .noAdaptation := by decide
theorem test_decode_clocks :
    decode 8 (.op (.pcr 0b00010000#8)) = .ok [.pcrExtract 0x10#8] ∧
    decode 8 (.op (.opcr 0b00001000#8)) = .ok [.opcrExtract 0x08#8] ∧
    decode 8 (.op (.pcr 0b11101111#8)) = .error .noPcrFlag ∧
    decode 8 (.op (.opcr 0b11110111#8)) = .error .noOpcrFlag := by decide
theorem test_decode_claimed :
    decode 8 (.op (.claimed 1 .none 0x47410011#32)) = .ok [.ctxNone 1 0x47410011#32] ∧
    decode 8 (.op (.claimed 1 .sec 0x47010011#32)) = .ok [.secCont 1 0x47010011#32] ∧
    decode 8 (.op (.claimed 1 .sec 0x47410011#32)) = .ok [.secStart 1 0x47410011#32] ∧
    decode 8 (.op (.claimed 7 .pes 0x47010011#32)) = .ok [.pesCont 7 0x47010011#32] ∧
    decode 8 (.op (.claimed 7 .pes 0x47410011#32)) = .ok [.pesStart 7 0x47410011#32] ∧
    decode 8 (.op (.claimed 8 .pes 0x47410011#32)) = .error .noContext := by decide
theorem test_decode_tables :
    decode 8 (.op (.table (0#3 ++ 0b0000000000000#13 ++ 0#10 ++ 0b0#1 ++ 0b01#2 ++ 0b01#2 ++ 0b1#1))) =
      .ok [.patDecode 0x0000000B#32] ∧
    decode 8 (.op (.table (0#3 ++ 0b0000100000000#13 ++ 0#10 ++ 0b0#1 ++ 0b10#2 ++ 0b01#2 ++ 0b1#1))) =
      .ok [.pmtDecode 0x01000013#32] ∧
    decode 8 (.op (.table 0x00000003#32)) = .error .noTable := by decide
theorem test_decode_pes :
    decode 8 (.op (.pesPrefix 0 0b000000000000000000000001#24)) = .ok [.pesHdrDecode 0] ∧
    decode 8 (.op (.pesPrefix 0 0x000002#24)) = .error .noStartCode ∧
    decode 8 (.op (.pesPts 0 0b10000000#8)) = .ok [.ptsDecode 0 0x80#8] ∧
    decode 8 (.op (.pesDts 0 0b11000000#8)) = .ok [.dtsDecode 0 0xC0#8] ∧
    decode 8 (.op (.pesPts 0 0b01000000#8)) = .error .noPtsFlag ∧
    decode 8 (.op (.pesDts 0 0b10000000#8)) = .error .noDtsFlag := by decide
theorem test_decode_reads : decode 8 (.host (0b0#1 ++ 0b010000000000#12 ++ 0#32)) = .ok [.regRead 0x400#12] := by decide
theorem test_decode_writes :
    decode 8 (.host (0b1#1 ++ 0b000000000100#12 ++ 0x00000005#32)) = .ok [.wrCtrl 5#32] ∧
    decode 8 (.host (0b1#1 ++ 0b000100011111#12 ++ 0x0000000B#32)) = .ok [.wrCtxCfg 7 0xB#32] ∧
    decode 8 (.host (0b1#1 ++ 0b000100100000#12 ++ 0x0000000B#32)) = .ok [.wrIgnored 0x120#12 0xB#32] ∧
    decode 8 (.host (0b1#1 ++ 0b000000010000#12 ++ 0x00000007#32)) = .ok [.wrIrqEn 7#32] ∧
    decode 8 (.host (0b1#1 ++ 0b000000011000#12 ++ 0x0000007F#32)) = .ok [.wrErrStatus 0x7F#32] ∧
    decode 8 (.host (0b1#1 ++ 0b000001110000#12 ++ 0x00000004#32)) = .ok [.wrUnitRdptr 4#32] := by decide
theorem test_decode_commands :
    decode 8 (.host (0b1#1 ++ 0b000000001000#12 ++ 0b1111#32)) = .ok [.cmdSoftReset] ∧
    decode 8 (.host (0b1#1 ++ 0b000000001000#12 ++ 0b0010#32)) = .ok [.cmdClrTables] ∧
    decode 8 (.host (0b1#1 ++ 0b000000001000#12 ++ 0b0100#32)) = .ok [.cmdEvPop] ∧
    decode 8 (.host (0b1#1 ++ 0b000000001000#12 ++ 0b1000#32)) = .ok [.cmdUnitPop] ∧
    decode 8 (.host (0b1#1 ++ 0b000000001000#12 ++ 0x10#32)) = .ok [.wrIgnored 0x008#12 0x10#32] := by decide
theorem test_decode_reset : decode 8 (.reset 1#1) = .ok [.reset] ∧ decode 8 (.reset 0#1) = .ok [] := by decide
theorem test_table_words :
    decodeTableWord 45 0x110000000000 = some (.wrCtxCfg 0 0#32) ∧ decodeTableWord 32 0x30 = some (.pktAfPayload 0x30#32) ∧
    decodeTableWord 8 0x10 = some (.pcrExtract 0x10#8) ∧ decodeTableWord 1 1 = some .reset := by decide

/-! ## Single steps, expected values from 95_test_vectors.md (the row is named in each comment) -/

/-- FR-1: 183 + 184 = 0x16F bytes pending. -/
theorem test_frame_appends_payload :
    nextIs (exec (.frame (packet188 [0x47, 0x00, 0x10, 0x11, 0xCC])) secState)
      (fun t => readReg t 0x140#12 == 0x00016F01#32 && t.pktIndex == 2#32 && t.flight == .idle) = true := by decide +kernel
/-- AF-3: the AF event of a claimed frame, with its PCR. -/
theorem test_frame_pushes_af_event :
    nextIs (exec (.frame (packet188 [0x47, 0x00, 0x10, 0x20, 183, 0x10, 0x91, 0xA2, 0xB3, 0xC4, 0xFE, 0xAB]))
        (running (context .none .none true 0x010#13 .reset)))
      (fun t => t.evq == [⟨0x00B71001#32, 0#32, 0x23456789#32, 0x800002AB#32⟩]) = true := by decide +kernel
/-- FR-8: a sync byte of 0x00 raises SYNC. -/
theorem test_pktHdr_bad_sync :
    nextIs (exec (.pktHdr 0x00001010#32) State.reset) (fun t => t.flight.errs == 0x01#7 && t.flight.h == 0x00001010#32) =
      true := by decide
/-- FR-9: of two contexts with the PID, the lower index claims. -/
theorem test_route_lowest :
    nextIs (exec (.route 0x47401010#32) { State.reset with ctx :=
        [.reset, context .sec .none false 0x010#13 .reset, context .pes .none false 0x010#13 .reset] })
      (fun t => t.flight.claim == some 1) = true := by decide
/-- FR-10: a disabled context never claims. -/
theorem test_route_disabled :
    nextIs (exec (.route 0x47401010#32) { State.reset with ctx := [⟨⟨false, .sec, .none, false, 0x010#13⟩, .reset⟩] })
      (fun t => t.flight.claim == none) = true := by decide
/-- R32: DROP_COUNT wraps. -/
theorem test_drop_wraps :
    nextIs (exec (.drop 0#32) { State.reset with dropCount := 0xFFFFFFFF#32 }) (fun t => t.dropCount == 0#32) = true := by
  decide
/-- FR-2: no payload and no reassembly. -/
theorem test_pktAfc00 :
    nextIs (exec (.pktAfc00 0x47401000#32) (onPacket (packet188 [0x47, 0x40, 0x10, 0x00])))
      (fun t => t.flight.pl == [] && !t.flight.ra && t.flight.errs == 0#7) = true := by decide +kernel
/-- FR-1: the 184 bytes from byte 4. -/
theorem test_pktPayload :
    nextIs (exec (.pktPayload 0x47001011#32) (onPacket (packet188 [0x47, 0x00, 0x10, 0x11, 0xCC])))
      (fun t => t.flight.pl == 0xCC#8 :: List.replicate 183 0xFF#8 && t.flight.ra) = true := by decide +kernel
/-- FR-3: an adaptation field alone has an empty payload. -/
theorem test_pktAf :
    nextIs (exec (.pktAf 0x47001020#32) (onPacket (packet188 [0x47, 0x00, 0x10, 0x20, 0x01, 0x00])))
      (fun t => t.flight.pl == [] && t.flight.ra && t.flight.errs == 0#7) = true := by decide +kernel
/-- FR-5 and FR-6: L = 183 is legal and leaves no payload; L = 184 raises AF_LEN. -/
theorem test_pktAfPayload_full :
    nextIs (exec (.pktAfPayload 0x47001030#32) (onPacket (packet188 [0x47, 0x00, 0x10, 0x30, 0xB7, 0x00])))
      (fun t => t.flight.pl == [] && t.flight.ra && t.flight.errs == 0#7) = true := by decide +kernel
theorem test_pktAfPayload_too_long :
    nextIs (exec (.pktAfPayload 0x47001030#32) (onPacket (packet188 [0x47, 0x00, 0x10, 0x30, 0xB8, 0xFF])))
      (fun t => t.flight.pl == [] && !t.flight.ra && t.flight.errs == 0x02#7) = true := by decide +kernel
/-- R214: nothing happens. -/
theorem test_ctxNone : nextIs (exec (.ctxNone 0 0x47001011#32) secState) (fun t => t == secState) = true := by decide +kernel
/-- AF-1: L = 0 has no flags byte; AF-8: a PCR flagged with L = 6 raises AF_LEN. -/
theorem test_afDecode_bare :
    nextIs (exec (.afDecode 0x4701FF30#32) (onPacket (bytes [0x47, 0x01, 0xFF, 0x30, 0x00, 0xFF])))
      (fun t => t.flight.af == some (afBare 0) && t.flight.ok && t.flight.errs == 0#7) = true := by decide
theorem test_afDecode_short_pcr :
    nextIs (exec (.afDecode 0x4701FF20#32)
        (onPacket (bytes [0x47, 0x01, 0xFF, 0x20, 6, 0x10, 0x91, 0xA2, 0xB3, 0xC4, 0xFE])))
      (fun t => t.flight.ok && t.flight.errs == 0x02#7 && (t.flight.af.map (·.pcrV)) == some false) = true := by decide
/-- AF-3 and AF-6: base 0x123456789 and extension 0xAB; an extension of 511 is kept as read. -/
theorem test_pcrExtract :
    nextIs (exec (.pcrExtract 0x10#8)
        (onAf (bytes [0x47, 0x01, 0xFF, 0x20, 7, 0x10, 0x91, 0xA2, 0xB3, 0xC4, 0xFE, 0xAB]) 7 0x10))
      (fun t => t.flight.af.map (fun a => (a.pcrV, a.pcrBase, a.pcrExt)) == some (true, 0x123456789#33, 0xAB#9)) = true := by
  decide
theorem test_pcrExtract_ext :
    nextIs (exec (.pcrExtract 0x10#8)
        (onAf (bytes [0x47, 0x01, 0xFF, 0x20, 7, 0x10, 0xFF, 0xFF, 0xFF, 0xFF, 0xFF, 0xFF]) 7 0x10))
      (fun t => t.flight.af.map (fun a => (a.pcrV, a.pcrBase, a.pcrExt)) == some (true, 0x1FFFFFFFF#33, 511#9)) = true := by
  decide
/-- AF-12: bit 7 of the fifth byte is base bit 0; AF-13: with a PCR before it, L = 12 is short. -/
theorem test_opcrExtract :
    nextIs (exec (.opcrExtract 0x08#8)
        (onAf (bytes [0x47, 0x01, 0xFF, 0x20, 7, 0x08, 0x00, 0x00, 0x00, 0x00, 0xFE, 0x01]) 7 0x08))
      (fun t => t.flight.af.map (fun a => (a.opcrV, a.opcrBase, a.opcrExt)) == some (true, 1#33, 1#9)) = true := by decide
theorem test_opcrExtract_short :
    nextIs (exec (.opcrExtract 0x18#8) (onAf [] 12 0x18)) (fun t => t.flight.errs == 0x02#7) = true := by decide
/-- SEC-1: a continuation before the first boundary is discarded. -/
theorem test_secCont_before_boundary :
    nextIs (exec (.secCont 0 0#32) (onPayload (context .sec .none false 0x010#13 .reset) (bytes [0x11, 0x22])))
      (fun t => readReg t 0x140#12 == 0#32) = true := by decide +kernel
/-- SEC-11: at 4231 bytes held, 121 of 184 fit and BUF_OVF is raised. -/
theorem test_secCont_overflow :
    nextIs (exec (.secCont 0 0#32) (onPayload (context .sec .none false 0x010#13 (pendingWith (List.replicate 4231 0xFF#8)))
        (List.replicate 184 0xCC#8)))
      (fun t => readReg t 0x140#12 == 0x00110003#32 && t.flight.errs == 0x20#7) = true := by decide +kernel
/-- SEC-5: the two bytes before the pointed-to byte close the unit in progress. -/
theorem test_secStart_tail :
    nextIs (exec (.secStart 0 0x00400000#32) (onPayload (context .sec .none false 0x010#13 firstBoundary)
        (bytes [0x02, 0xCC, 0xDD, 0x00, 0xB0] ++ List.replicate 179 0xFF#8)))
      (fun t => t.flight.unit.map (fun u => (u.data.length, u.ptrErr)) == some (0xB9, false)
        && readReg t 0x140#12 == 0x0000B501#32) = true := by decide +kernel
/-- SEC-7: a pointer past the payload is clamped and flags both units. -/
theorem test_secStart_bad_pointer :
    nextIs (exec (.secStart 0 0x00400000#32) (onPayload (context .sec .none false 0x010#13 firstBoundary)
        (bytes [0xB8, 0xCC] ++ List.replicate 182 0xFF#8)))
      (fun t => t.flight.unit.map (fun u => (u.data.length, u.ptrErr)) == some (0x16E, true)
        && readReg t 0x140#12 == 0x00000005#32 && t.flight.errs == 0x04#7 && t.flight.ptr == some 0xB8#8) = true := by
  decide +kernel
/-- PAT-2: `pat1` gives one record. -/
theorem test_patDecode :
    nextIs (exec (.patDecode 0xB#32) (onUnit (bytes [0x00, 0xB0, 0x0D, 0x00, 0x01, 0xC1, 0x00, 0x00, 0x00, 0x01, 0xE1, 0x00,
        0xE8, 0xF9, 0x5E, 0x7D, 0xFF])))
      (fun t => readReg t 0x200#12 == 0x80000000#32 && readReg t 0x204#12 == 0x000D0001#32 &&
        readReg t 0x208#12 == 1#32 && readReg t 0x400#12 == 0x00010100#32 && readReg t 0x404#12 == 0#32) = true := by
  decide +kernel
/-- PAT-4: SL = 8 raises TRUNC_SECTION and writes nothing. -/
theorem test_patDecode_short :
    nextIs (exec (.patDecode 0xB#32) (onUnit (bytes [0x00, 0xB0, 0x08, 0x00, 0x01, 0xC1, 0x00, 0x00, 0x11, 0x22, 0x33, 0x44])))
      (fun t => t.pat == .empty && t.flight.errs == 0x08#7 && t.flight.evTbl == none) = true := by decide +kernel
/-- PMT-1: `pmt1` gives two records. -/
theorem test_pmtDecode :
    nextIs (exec (.pmtDecode 0x13#32) (onUnit (bytes [0x02, 0xB0, 0x17, 0x00, 0x01, 0xC1, 0x00, 0x00, 0xE1, 0x01, 0xF0, 0x00,
        0x02, 0xE1, 0x01, 0xF0, 0x00, 0x81, 0xE1, 0x02, 0xF0, 0x00, 0xD8, 0xA8, 0xB5, 0xB5])))
      (fun t => readReg t 0x210#12 == 0x81010001#32 && readReg t 0x218#12 == 0x17#32 && readReg t 0x21C#12 == 2#32 &&
        readReg t 0x800#12 == 0x01010002#32 && readReg t 0x808#12 == 0x01020081#32) = true := by decide +kernel
/-- PMT-7: an ES_info_length past the end raises TRUNC_SECTION and writes nothing. -/
theorem test_pmtDecode_short :
    nextIs (exec (.pmtDecode 0x13#32) (onUnit (bytes [0x02, 0xB0, 0x14, 0x00, 0x01, 0xC1, 0x00, 0x00, 0xE1, 0x01, 0xF0, 0x00,
        0x02, 0xE1, 0x01, 0xF0, 0x04, 0x52, 0x01, 0xD7, 0xE4, 0x32, 0x2F])))
      (fun t => t.pmt == .empty && t.flight.errs == 0x08#7 && t.flight.evTbl == none) = true := by decide +kernel
/-- R360: bytes are appended to the unit in progress. -/
theorem test_pesCont :
    nextIs (exec (.pesCont 0 0#32) (onPes (bytes [1, 2, 3]))) (fun t => (ctxAt t 0).st.buf == bytes [1, 2, 3]) = true := by
  decide
/-- PES-1: the data starts at byte 14. -/
theorem test_pesStart_header :
    nextIs (exec (.pesStart 0 0x00400000#32) (onPes (bytes [0, 0, 1, 0xE0, 0, 0, 0x80, 0x80, 5, 0x21, 0x00, 0x05, 0xBF, 0x21,
        0xAA])))
      (fun t => (ctxAt t 0).st.buf == [0xAA#8] && (ctxAt t 0).st.pts == 90000#33 && (ctxAt t 0).st.ptsV &&
        t.flight.unit.isSome) = true := by decide +kernel
/-- PES-3: no start code, a raw unit of the whole payload. -/
theorem test_pesStart_raw :
    nextIs (exec (.pesStart 0 0x00400000#32) (onPes (bytes [0x47, 0x11, 0x22])))
      (fun t => (ctxAt t 0).st.buf == bytes [0x47, 0x11, 0x22] && !(ctxAt t 0).st.pesHdr) = true := by decide +kernel
/-- PES-7: a header-less stream, data from byte 6, PPL 0x10. -/
theorem test_pesHdrDecode_headerless :
    nextIs (exec (.pesHdrDecode 0) (onPes (bytes [0, 0, 1, 0xBE, 0x00, 0x10, 0xFF, 0xFF])))
      (fun t => t.flight.ps == some 6 && (ctxAt t 0).st.ppl == 0x10#16 && t.flight.errs == 0#7) = true := by decide +kernel
/-- PES-11: PDF 11 with HDL 5 has a PTS and no DTS, and raises TRUNC_PES. -/
theorem test_pesHdrDecode_no_dts :
    nextIs (exec (.pesHdrDecode 0) (onPes (bytes [0, 0, 1, 0xE0, 0, 0, 0x80, 0xC0, 5, 0x21, 0x00, 0x05, 0xBF, 0x21, 0xAA])))
      (fun t => t.flight.ps == some 14 && (ctxAt t 0).st.ptsV && !(ctxAt t 0).st.dtsV && (ctxAt t 0).st.hdrErr &&
        t.flight.errs == 0x10#7) = true := by decide +kernel
/-- E2: 0x123456789; and FE FF FE FF FE decodes to 2^33 - 1, marker bits not checked. -/
theorem test_ptsDecode :
    nextIs (exec (.ptsDecode 0 0x80#8) (onPes (bytes [0, 0, 1, 0xE0, 0, 0, 0x80, 0x80, 5, 0x29, 0x8D, 0x15, 0xCF, 0x13])))
      (fun t => (ctxAt t 0).st.pts == 0x123456789#33 && (ctxAt t 0).st.ptsV) = true := by decide
theorem test_ptsDecode_markers :
    nextIs (exec (.ptsDecode 0 0x80#8) (onPes (bytes [0, 0, 1, 0xE0, 0, 0, 0x80, 0x80, 5, 0xFE, 0xFF, 0xFE, 0xFF, 0xFE])))
      (fun t => (ctxAt t 0).st.pts == 0x1FFFFFFFF#33) = true := by decide
/-- PES-2: DTS 896400. -/
theorem test_dtsDecode :
    nextIs (exec (.dtsDecode 0 0xC0#8) (onPes (bytes [0, 0, 1, 0xE0, 0x12, 0x34, 0x80, 0xC0, 10, 0x31, 0x00, 0x37, 0x77, 0x41,
        0x11, 0x00, 0x37, 0x5B, 0x21])))
      (fun t => (ctxAt t 0).st.dts == 896400#33 && (ctxAt t 0).st.dtsV && !(ctxAt t 0).st.ptsV) = true := by decide
/-- R37: PARAMS of the reference instance; HI-10: four bytes of the head unit from the pointer. -/
theorem test_regRead_params :
    nextIs (exec (.regRead 0x02C#12) State.reset) (fun t => t.rdata == 0x00021008#32) = true := by decide
theorem test_regRead_unitData :
    nextIs (exec (.regRead 0x074#12) { State.reset with
        uq := [closed 0 false (begun 0 4352 (bytes [0x00, 0xB0, 0x0D, 0x00, 0x01, 0xC1]) false) 0 1], unitRdptr := 1 })
      (fun t => t.rdata == 0xB00D0001#32) = true := by decide +kernel
/-- HI-2: FRAME_SIZE 3 is refused; HI-3: FRAME_SIZE is kept while EN = 1. -/
theorem test_wrCtrl_size3 :
    nextIs (exec (.wrCtrl 0xFFFFFFFF#32) State.reset) (fun t => readReg t 0x004#12 == 1#32) = true := by decide
theorem test_wrCtrl_running :
    nextIs (exec (.wrCtrl 0x3#32) { State.reset with ctrl := ⟨true, .b204⟩ }) (fun t => readReg t 0x004#12 == 5#32) =
      true := by decide
/-- HI-4: KIND 3 and PARSE 3 are stored as 0; SEC-14: the unit in progress is discarded. -/
theorem test_wrCtxCfg_reserved :
    nextIs (exec (.wrCtxCfg 0 0xFFFFFFFF#32) State.reset) (fun t => readReg t 0x100#12 == 0x1FFF0021#32) = true := by decide
theorem test_wrCtxCfg_discards :
    nextIs (exec (.wrCtxCfg 0 0x00100003#32) secState)
      (fun t => readReg t 0x140#12 == 0#32 && readReg t 0x100#12 == 0x00100003#32) = true := by decide +kernel
/-- HI-8. -/
theorem test_wrIrqEn : nextIs (exec (.wrIrqEn 0xFF#32) State.reset) (fun t => readReg t 0x010#12 == 7#32) = true := by decide
/-- EX-3: writing 1 to a clear bit does nothing; a bit written 1 is cleared. -/
theorem test_wrErrStatus :
    nextIs (exec (.wrErrStatus 0x2#32) { State.reset with errStatus := 0x05#7 }) (fun t => t.errStatus == 0x05#7) &&
    nextIs (exec (.wrErrStatus 0x4#32) { State.reset with errStatus := 0x05#7 }) (fun t => t.errStatus == 0x01#7) = true := by
  decide
/-- HI-9: the pointer has 24 bits. -/
theorem test_wrUnitRdptr :
    nextIs (exec (.wrUnitRdptr 0xFFFFFFFF#32) State.reset) (fun t => readReg t 0x070#12 == 0x00FFFFFF#32) = true := by decide
/-- HI-6: a write beyond N_CTX changes nothing. -/
theorem test_wrIgnored :
    nextIs (exec (.wrIgnored 0x120#12 0xB#32) State.reset) (fun t => t == State.reset) = true := by decide +kernel
/-- HI-12: CTRL and CTX_CFG[0] read 0, STATUS reads 4. -/
theorem test_cmdSoftReset :
    nextIs (exec .cmdSoftReset secState)
      (fun t => readReg t 0x00C#12 == 4#32 && readReg t 0x004#12 == 0#32 && readReg t 0x100#12 == 0#32) = true := by
  decide +kernel
/-- HI-14: a pop of an empty queue does nothing. -/
theorem test_cmdEvPop :
    nextIs (exec .cmdEvPop { State.reset with evq := [⟨1, 2, 3, 4⟩, ⟨5, 6, 7, 8⟩] }) (fun t => t.evq == [⟨5, 6, 7, 8⟩]) &&
    nextIs (exec .cmdEvPop State.reset) (fun t => t == State.reset) = true := by decide +kernel
/-- PMT-11: CLR_TABLES empties the list. -/
theorem test_cmdClrTables :
    nextIs (exec .cmdClrTables { State.reset with
        pmt := { PmtTable.empty with valid := true, es := [⟨2, 0x101, 0⟩] }, pat := { PatTable.empty with valid := true } })
      (fun t => readReg t 0x210#12 == 0#32 && readReg t 0x21C#12 == 0#32 && readReg t 0x200#12 == 0#32) = true := by decide
/-- HI-11 and HI-14: the pointer is zeroed, also when the queue is empty. -/
theorem test_cmdUnitPop :
    nextIs (exec .cmdUnitPop { State.reset with unitRdptr := 4 }) (fun t => t.unitRdptr == 0#24 && t.uq == []) = true := by
  decide
/-- EX-4: reset values. -/
theorem test_reset :
    nextIs (exec .reset { secState with errStatus := 1, dropCount := 3 })
      (fun t => t == State.reset) = true := by decide +kernel

/-! ## Witnesses: the hypotheses of each statement are met -/

/-- A check that gives the invariant. -/
def invCheck (s : State) : Bool :=
  decide s.params.legal && decide (s.ctx.length = s.params.nCtx) &&
    (List.range s.ctx.length).all (fun i => match s.ctx[i]? with
      | none => true
      | some c => decide (c.st.buf.length ≤ s.params.bufBytes i) && (c.st.pending ||
          (c.st.buf == [] && !c.st.ovf && !c.st.ptrErr && !c.st.hdrErr && !c.st.pesHdr && !c.st.ptsV && !c.st.dtsV))) &&
    decide (s.evq.length ≤ s.params.evqDepth) && decide (s.uq.length ≤ s.params.uqDepth) &&
    s.uq.all (fun u => decide (u.data.length < 2 ^ 24)) &&
    decide (s.pat.entries.length = min s.pat.n.toNat s.params.patMax) &&
    decide (s.pat.trunc = decide (s.params.patMax < s.pat.n.toNat)) &&
    decide (s.pmt.es.length ≤ s.params.pmtEsMax) && decide (s.pmt.es.map EsEntry.pid).Nodup &&
    s.lastAf.extractLsb' 18 14 == 0#14 && s.flight == .idle &&
    s.turns.all (fun t => match t with | .op _ => false | .input => true | .host _ => true | .reset _ => true)

theorem inv_of_check {s : State} (h : invCheck s = true) : s.Inv := by
  simp only [invCheck, Bool.and_eq_true, decide_eq_true_eq, beq_iff_eq, List.all_eq_true, List.mem_range] at h
  obtain ⟨⟨⟨⟨⟨⟨⟨⟨⟨⟨⟨⟨h1, h2⟩, h3⟩, h4⟩, h5⟩, h6⟩, h7⟩, h8⟩, h9⟩, h10⟩, h11⟩, h12⟩, h13⟩ := h
  refine ⟨h1, h2, fun i c hc => ?_, h4, h5, h6, h7, h8, h9, h10, h11, h12, fun sel hs => ?_⟩
  · have := h3 i (List.getElem?_eq_some_iff.mp hc).1
    simp only [hc, Bool.and_eq_true, decide_eq_true_eq, Bool.or_eq_true, beq_iff_eq, Bool.not_eq_true'] at this
    refine ⟨this.1, fun hp => ?_⟩
    simp only [hp, Bool.false_eq_true, false_or] at this
    obtain ⟨-, ⟨⟨⟨⟨⟨⟨a, b⟩, c⟩, d⟩, e⟩, f⟩, g⟩⟩ := this
    exact ⟨a, b, c, d, e, f, g⟩
  · exact absurd (h13 _ hs) (by simp)

/-- Context 0 claims the PID it holds. -/
theorem claimedBy_zero {s : State} {c : Context} (h : s.ctx[0]? = some c) (he : c.cfg.en = true) :
    ClaimedBy s c.cfg.pid.toNat 0 := ⟨⟨c, h, he, rfl⟩, fun j hj => absurd hj (Nat.not_lt_zero j)⟩

/-- A sound state in use: a section context on PID 0x010 in the middle of a unit, an event and a unit queued, both tables
filled, and a host turn to come. -/
def busy : State :=
  { secState with
    irqEn := 7
    errStatus := 0x21
    evq := [⟨0x00000003, 0, 1, 0⟩, ⟨0x0000010F, 1, 0, 0⟩]
    uq := [closed 1 true { begun 0 4352 (bytes [1, 2, 3, 4, 5]) false with pesHdr := true, ptsV := true, pts := 0x123456789 }
      0 1]
    unitRdptr := 2
    pat := ⟨true, 0, 1, 1, 13, 1, false, [⟨1, 0x100⟩]⟩
    pmt := ⟨true, 1, 0x101, 0, 2, 23, false, [⟨2, 0x101, 0⟩, ⟨0x81, 0x102, 0⟩]⟩
    turns := [.host 0x100800000002#45] }

theorem busy_inv : busy.Inv := inv_of_check (by decide +kernel)

/-- A frame of context 0's PID, and a frame that no context claims. -/
def claimedFrame : List Byte := packet188 [0x47, 0x40, 0x10, 0x11, 0x02, 0xCC, 0xDD, 0x00, 0xB0]
def strayFrame : List Byte := packet188 [0x00, 0x1F, 0xFF, 0x30, 0xB8, 0xFF]

theorem accepts_claimed : Accepts busy claimedFrame := by unfold Accepts; decide +kernel
theorem accepts_stray : Accepts busy strayFrame := by unfold Accepts; decide +kernel
theorem pidOf_claimed : pidOf (packet claimedFrame) = 0x010 := by decide +kernel
theorem busy_ctx : busy.ctx[0]? = some (context .sec .none false 0x010#13 firstBoundary) := by decide +kernel
theorem busy_claims : ClaimedBy busy (pidOf (packet claimedFrame)) 0 := by
  rw [pidOf_claimed]; exact claimedBy_zero busy_ctx rfl

theorem witness_DecodeEncodeAgree : (16 : Nat) ≤ 16 ∧ (Instr.wrCtxCfg 15 0xFFFFFFFF#32).wellFormed 16 = true ∧
    (Instr.wrIgnored 0x008#12 0xFFFFFFF0#32).wellFormed 16 = true ∧ (Instr.dtsDecode 15 0xFF#8).wellFormed 16 = true := by
  decide

theorem witness_DecodedOperationsAreWellFormed : decode 8 (.host 0x10080000000E#45) =
      .ok [.cmdClrTables, .cmdEvPop, .cmdUnitPop] ∧ Instr.cmdUnitPop ∈ [Instr.cmdClrTables, .cmdEvPop, .cmdUnitPop] := by
  decide

theorem witness_StepRunsTheDecodedOperations_input :
    ∃ (s : State) (fr : List Byte), s.turns = [.input] ∧ s.offers = [fr] ∧ Accepts s fr :=
  ⟨{ busy with turns := [.input], offers := [claimedFrame] }, claimedFrame, rfl, rfl, accepts_claimed⟩

theorem witness_StepRunsTheDecodedOperations_host :
    decodeHost 8 0x100800000002#45 = [.cmdClrTables] ∧ busy.turns = .host 0x100800000002#45 :: [] ∧
    decodeHost 8 0x10080000000E#45 = .cmdClrTables :: [.cmdEvPop, .cmdUnitPop] ∧
    ∃ t, exec .cmdClrTables busy = .next t := ⟨by decide, rfl, by decide, _, rfl⟩

theorem witness_StepRunsTheDecodedOperations_op : decodeOp 8 (.adaptation 0x20#32) = .ok (.afDecode 0x20#32) ∧
    ({ busy with turns := [.op (.adaptation 0x20#32)] } : State).turns = [.op (.adaptation 0x20#32)] := ⟨by decide, rfl⟩

/-- The three ways the port is held, each at its boundary; a wrong length at an open port. -/
theorem witness_HeldFrameWaits :
    Held State.reset ∧
    Held { busy with evq := List.replicate 13 ⟨0, 0, 0, 0⟩ } ∧ ¬ Held { busy with evq := List.replicate 12 ⟨0, 0, 0, 0⟩ } ∧
    Held { busy with uq := busy.uq ++ busy.uq } ∧
    ¬ Held busy ∧ ¬ Accepts busy (List.replicate 187 0#8) ∧ Accepts busy claimedFrame := by
  unfold Held Accepts; decide +kernel

theorem witness_RegisterAddressIsAWordAddress : (0x100#12).toNat / 4 = (0x103#12).toNat / 4 ∧
    (0xFFC#12).toNat / 4 = (0xFFF#12).toNat / 4 := by decide

theorem witness_IdentificationIsConstant : State.reset.params.legal ∧ ∃ t, step busy = .next t := ⟨by decide, _, rfl⟩

theorem witness_StatusReadsQueuesAndHold : busy.Inv ∧ (false = true ↔ Held busy) ∧ ∃ t, exec .reset busy = .next t :=
  ⟨busy_inv, ⟨fun h => absurd h (by decide), fun h => absurd h (by unfold Held; decide +kernel)⟩, _, rfl⟩

/-- For EventWordsReadTheHead, UnitDescriptorLayout, UnitDataReadsFromThePointer and EventPopRemovesTheHead. -/
theorem witness_heads : State.reset.evq = [] ∧ State.reset.uq = [] ∧ (∃ e es, busy.evq = e :: es) ∧
    ∃ u us, busy.uq = u :: us ∧ u.data.length < 2 ^ 24 := ⟨rfl, rfl, ⟨_, _, rfl⟩, _, _, rfl, by decide +kernel⟩

theorem witness_ContextStatusReads : busy.Inv ∧ ∃ c, busy.ctx[7]? = some c := ⟨busy_inv, _, rfl⟩

theorem witness_TableRegistersRead : busy.Inv ∧ (63 : Nat) < busy.params.patMax ∧ (31 : Nat) < busy.params.pmtEsMax :=
  ⟨busy_inv, by decide, by decide⟩

/-- A hole in each block of the map, at the edges: after the last of each indexed block, and a gap among the tables. -/
theorem witness_ReservedOffsets : busy.params.legal ∧
    ∀ a ∈ [0x034, 0x03F, 0x078, 0x120, 0x160, 0x20C, 0x20F, 0x220, 0x500, 0x900, 0xFFF],
      (BitVec.ofNat 12 a).toNat / 4 * 4 ∉ mapOffsets busy.params := by decide +kernel

theorem witness_CtrlWriteResult : busy.ctrl.en = true ∧ State.reset.ctrl.en = false ∧ (6#32).toNat / 2 % 4 = 3 ∧
    (0#32).toNat / 2 % 4 = 0 ∧ (2#32).toNat / 2 % 4 = 1 ∧ (4#32).toNat / 2 % 4 = 2 := by decide

theorem witness_ContextWriteResult : busy.Inv ∧ busy.ctx[0]? = some (context .sec .none false 0x010#13 firstBoundary) :=
  ⟨busy_inv, busy_ctx⟩

theorem witness_IgnoredWriteChangesNothing :
    ∀ a ∈ [0x000#12, 0x00C#12, 0x0FF#12, 0x120#12], a.toNat / 4 * 4 ∉ [0x004, 0x008, 0x010, 0x018, 0x070] ∧
      ∀ i < busy.params.nCtx, a.toNat / 4 * 4 ≠ 0x100 + 4 * i := by decide

/-- For ClearTablesEmptiesBothTables and ResetLeavesTheResetValues. -/
theorem witness_legal : busy.params.legal ∧ 0x200 ≤ (0x200#12).toNat ∧
    (0x004#12).toNat / 4 * 4 ∉ [0x000, 0x00C, 0x02C, 0x030] := by decide

theorem witness_CommandWrite : (0xF#32).toNat % 2 = 1 ∧ (0xFFFFFFFE#32).toNat % 2 = 0 := by decide

/-- For PayloadClassesResult, AdaptationClassesFollowAfDecode and AdaptationFieldDecode: L = 183 and L = 184. -/
theorem witness_packets :
    (onPacket (packet188 [0x47, 0, 0x10, 0x30, 183, 0x18])).flight.p.length = 188 ∧
    byte (onPacket (packet188 [0x47, 0, 0x10, 0x30, 183, 0x18])).flight.p 4 ≤ 183 ∧
    183 < byte (onPacket (packet188 [0x47, 0, 0x10, 0x30, 184, 0x18])).flight.p 4 := by decide +kernel

/-- L = 7 and 6 for a PCR; L = 7 and 6, 13 and 12 for an OPCR without (flags 0x08) and with (0x18) a PCR before it. -/
theorem witness_ClockExtraction : ∀ len ∈ [6#8, 7#8, 12#8, 13#8], ∀ flags ∈ [0x08#8, 0x18#8],
    let s := onAf (packet188 [0x47, 0, 0x10, 0x20, len.toNat, flags.toNat]) len flags
    s.flight.af = some (afWithFlags len flags) ∧ s.flight.p.length = 188 ∧ (afWithFlags len flags).len = len := by
  decide +kernel

theorem witness_ClockAndTimestampRoundTrips :
    (∃ rest, (onAf (bytes [0x47, 0, 0x10, 0x20, 7, 0x10] ++ clockBytes (2576980377599 / 300) 63 (2576980377599 % 300))
      7 0x10).flight.p = bytes [0x47, 0, 0x10, 0x20, 7, 0x10] ++ clockBytes (2576980377599 / 300) 63 (2576980377599 % 300)
        ++ rest) ∧ 2576980377599 < 2 ^ 33 * 300 ∧ 7 ≤ (afWithFlags 7 0x10).len.toNat ∧
    (onPes (bytes [0, 0, 1, 0xE0, 0, 0, 0x80, 0x80, 5] ++ timestampBytes 15 8589934591)).flight.pl =
      bytes [0, 0, 1, 0xE0, 0, 0, 0x80, 0x80, 5] ++ timestampBytes 15 8589934591 ++ [] ∧ (8589934591 : Nat) < 2 ^ 33 ∧
    (bytes [0, 0, 1, 0xE0, 0, 0, 0x80, 0x80, 5]).length = 9 ∧
    (bytes [0, 0, 1, 0xE0, 0, 0, 0x80, 0xC0, 10, 0x31, 0, 0x37, 0x77, 0x41]).length = 14 :=
  ⟨⟨[], by decide⟩, by decide, by decide, by decide, by decide, by decide, by decide⟩

theorem witness_RouteFindsTheLowestContext : ClaimedBy busy ((0x47401011#32).toNat / 256 % 8192) 0 ∧
    ∀ (i : Nat) (c : Context), busy.ctx[i]? = some c →
      ¬ (c.cfg.en = true ∧ c.cfg.pid.toNat = (0x471FFF11#32).toNat / 256 % 8192) := by
  refine ⟨claimedBy_zero busy_ctx rfl, fun i c hc => ?_⟩
  have h : ∀ c ∈ busy.ctx, ¬ (c.cfg.en = true ∧ c.cfg.pid.toNat = (0x471FFF11#32).toNat / 256 % 8192) := by decide +kernel
  exact h c (List.mem_of_getElem? hc)

/-- Nothing pending; pending with room for all but one byte. -/
theorem witness_ContinuationAppends :
    let s := onPayload (context .sec .none false 0x010#13 (pendingWith (List.replicate 4169 0xFF#8)))
      (List.replicate 184 0xCC#8)
    (∃ c, s.ctx[0]? = some c ∧ c.st.pending = true ∧ c.st.buf.length ≤ s.params.bufBytes 0 ∧
      s.params.bufBytes 0 < c.st.buf.length + s.flight.pl.length) ∧
    ∃ c, s.ctx[1]? = some c ∧ c.st.pending = false ∧ c.st.buf.length ≤ s.params.bufBytes 1 :=
  ⟨⟨_, rfl, rfl, by decide +kernel, by decide +kernel⟩, _, rfl, rfl, by decide⟩

theorem witness_SectionStartBegins :
    (∃ c, (onPayload .reset []).ctx[0]? = some c ∧ (onPayload .reset []).flight.pl = []) ∧
    ∃ c, (onPayload .reset [1#8]).ctx[0]? = some c ∧ (onPayload .reset [1#8]).flight.pl ≠ [] ∧ c.st.pending = false :=
  ⟨⟨_, rfl, rfl⟩, _, rfl, by decide, rfl⟩

/-- A boundary with a table decode. -/
theorem witness_SectionBoundaryEmits :
    let c := context .sec .pat false 0x010#13 firstBoundary
    let s := onPayload c (bytes [0x02, 0xCC, 0xDD, 0x00])
    s.ctx[0]? = some c ∧ c.st.buf.length ≤ s.params.bufBytes 0 ∧ c.cfg.kind = .sec ∧ s.flight.pl ≠ [] ∧
      c.st.pending = true ∧ ∀ (emitted : State) (cfg : Word), ∃ u, Answers (.patDecode cfg) emitted u :=
  ⟨rfl, by decide +kernel, rfl, by decide, rfl, fun _ _ => ⟨_, rfl⟩⟩

/-- For PesStartRaw and PesStartWithHeader. -/
theorem witness_PesStart :
    let c := context .pes .none false 0x020#13 { CtxState.reset with pending := true }
    (onPes (bytes [0, 0])).ctx[0]? = some c ∧ c.cfg.kind = .pes ∧ (onPes (bytes [0, 0])).flight.pl.take 3 ≠ [0#8, 0#8, 1#8] ∧
    (onPes (bytes [0, 0, 1])).flight.pl.take 3 = [0#8, 0#8, 1#8] := by decide +kernel

/-- For PesHeaderDecode, the five cases at their boundary lengths: 5; 6 with a header-less stream; 8;
13 with HDL 5; 14 with HDL 5. -/
theorem witness_PesHeaderDecode :
    (∃ c, (onPes []).ctx[0]? = some c) ∧
    (bytes [0, 0, 1, 0xE0, 0]).length < 6 ∧
    byte (bytes [0, 0, 1, 0xFF, 0, 0]) 3 ∈ [0xBC, 0xBE, 0xBF, 0xF0, 0xF1, 0xF2, 0xF8, 0xFF] ∧
    byte (bytes [0, 0, 1, 0xE0, 0, 0, 0x80, 0x80]) 3 ∉ [0xBC, 0xBE, 0xBF, 0xF0, 0xF1, 0xF2, 0xF8, 0xFF] ∧
    (bytes [0, 0, 1, 0xE0, 0, 0, 0x80, 0x80]).length < 9 ∧
    (bytes [0, 0, 1, 0xE0, 0, 0, 0x80, 0x80, 5, 0x21, 0, 1, 0]).length < 9 + 5 ∧
    9 + 5 ≤ (bytes [0, 0, 1, 0xE0, 0, 0, 0x80, 0x80, 5, 0x21, 0, 1, 0, 1]).length :=
  ⟨⟨_, rfl⟩, by decide, by decide, by decide, by decide, by decide, by decide⟩

/-- Payloads of exactly 14 and of exactly 19 bytes. -/
theorem witness_TimestampDecode : (∃ c, (onPes []).ctx[0]? = some c) ∧
    14 ≤ (onPes (bytes [0, 0, 1, 0xE0, 0, 0, 0x80, 0x80, 5, 0x29, 0x8D, 0x15, 0xCF, 0x13])).flight.pl.length ∧
    19 ≤ (onPes (bytes [0, 0, 1, 0xE0, 0, 0, 0x80, 0xC0, 10, 0x31, 0, 0x37, 0x77, 0x41, 0x11, 0, 0x37, 0x5B,
      0x21])).flight.pl.length := ⟨⟨_, rfl⟩, by decide, by decide⟩

/-- SL = 9 in exactly 12 bytes decodes; SL = 8, 11 bytes, 2 bytes and SL = 10 are malformed. -/
theorem witness_PatDecodeResult :
    (∀ d ∈ [bytes [0, 0xB0], bytes [0, 0xB0, 0x08, 0, 1, 0xC1, 0, 0, 1, 2, 3, 4], bytes [0, 0xB0, 0x09, 0, 1, 0xC1, 0, 0, 1, 2, 3],
        bytes [0, 0xB0, 0x0A, 0, 1, 0xC1, 0, 0, 1, 2, 3, 4, 5]],
      (∃ u, (onUnit d).flight.unit = some u ∧ u.data = d) ∧ (d.length < 3 ∨ pair d 1 % 4096 < 9 ∨
        d.length < 3 + pair d 1 % 4096 ∨ (pair d 1 % 4096 - 9) % 4 ≠ 0)) ∧
    let d := bytes [0, 0xB0, 0x09, 0, 1, 0xC1, 0, 0, 1, 2, 3, 4]
    3 ≤ d.length ∧ 9 ≤ pair d 1 % 4096 ∧ 3 + pair d 1 % 4096 ≤ d.length ∧ (pair d 1 % 4096 - 9) % 4 = 0 := by
  refine ⟨fun d hd => ⟨?_, ?_⟩, by decide +kernel⟩
  · fin_cases hd <;> exact ⟨_, rfl, by decide +kernel⟩
  · revert d; decide +kernel

theorem witness_PatSectionRoundTrip :
    ∃ u, (onUnit (patSection 0 11 1 0xC1 0 0 [(0, 0xE010), (1, 0xE100)] (bytes [1, 2, 3, 4]) ++ [0xFF#8])).flight.unit = some u ∧
      u.data = patSection 0 11 1 0xC1 0 0 [(0, 0xE010), (1, 0xE100)] (bytes [1, 2, 3, 4]) ++ [0xFF#8] :=
  ⟨_, rfl, by decide +kernel⟩

/-- For PmtSectionRoundTrip and PmtDecodeIsAllOrNothing: two records, the first with a descriptor. -/
def esRecords : List (Byte × Nat × Nat × List Byte) := [(2, 0xE101, 15, bytes [0x52, 1, 1]), (0x0F, 0xE103, 15, [])]

theorem witness_PmtSectionRoundTrip :
    ∃ u, (onUnit (pmtSection 2 11 1 0xC3 0 0 0xE101 15 (bytes [0x0E, 1, 0x80]) esRecords (bytes [1, 2, 3, 4]))).flight.unit =
        some u ∧ (∀ r ∈ esRecords, r.2.2.1 < 16) ∧ 13 + 3 + (esRecords.map esBytes).flatten.length < 4096 ∧
      u.data = pmtSection 2 11 1 0xC3 0 0 0xE101 15 (bytes [0x0E, 1, 0x80]) esRecords (bytes [1, 2, 3, 4]) ++ [] :=
  ⟨_, rfl, by decide, by decide +kernel, by decide +kernel⟩

theorem witness_PmtMergeIsTheUnion : busy.pmt.es.length ≤ 2 ∧ (busy.pmt.es.map EsEntry.pid).Nodup := by decide

/-- For FrameRunsItsOperations and AcceptedFrameLatchesItsHeader. -/
theorem witness_FrameRunsItsOperations : busy.Inv ∧ Accepts busy claimedFrame ∧ Accepts busy strayFrame :=
  ⟨busy_inv, accepts_claimed, accepts_stray⟩

theorem witness_UnclaimedFrameIsDropped : Accepts busy strayFrame ∧ ∀ (i : Nat) (c : Context), busy.ctx[i]? = some c →
    ¬ (c.cfg.en = true ∧ c.cfg.pid.toNat = pidOf (packet strayFrame)) := by
  refine ⟨accepts_stray, fun i c hc => ?_⟩
  have h : ∀ c ∈ busy.ctx, ¬ (c.cfg.en = true ∧ c.cfg.pid.toNat = pidOf (packet strayFrame)) := by decide +kernel
  exact h c (List.mem_of_getElem? hc)

theorem witness_ReportOnlyFrame :
    let s := running (context .none .pat true 0x010#13 .reset)
    s.Inv ∧ Accepts s claimedFrame ∧ ClaimedBy s (pidOf (packet claimedFrame)) 0 ∧
      ∃ c, s.ctx[0]? = some c ∧ c.cfg.kind = .none := by
  refine ⟨inv_of_check (by decide +kernel), by unfold Accepts; decide +kernel, ?_, _, rfl, rfl⟩
  rw [pidOf_claimed]
  exact claimedBy_zero (c := context .none .pat true 0x010#13 .reset) rfl rfl

theorem witness_ClaimedFrameTouchesOnlyItsContext : busy.Inv ∧ Accepts busy claimedFrame ∧
    ClaimedBy busy (pidOf (packet claimedFrame)) 0 ∧ ∃ c, busy.ctx[0]? = some c :=
  ⟨busy_inv, accepts_claimed, busy_claims, _, busy_ctx⟩

/-- Two packets that differ in TEI, TP, TSC and CC. -/
theorem witness_IgnoredHeaderBits :
    let fr' := packet188 [0x47, 0xE0, 0x10, 0xDF, 0x02, 0xCC, 0xDD, 0x00, 0xB0]
    Accepts busy claimedFrame ∧ Accepts busy fr' ∧ byte (packet claimedFrame) 0 = byte (packet fr') 0 ∧
      pidOf (packet claimedFrame) = pidOf (packet fr') ∧ pusiOf (packet claimedFrame) = pusiOf (packet fr') ∧
      hasAf (packet claimedFrame) = hasAf (packet fr') ∧ hasPayload (packet claimedFrame) = hasPayload (packet fr') ∧
      (packet claimedFrame).drop 4 = (packet fr').drop 4 ∧ claimedFrame ≠ fr' := by
  unfold Accepts; decide +kernel

/-- The three frames of a section, as in 95_test_vectors.md SEC-5, with a continuation between. -/
def secFirst : List Byte := packet188 [0x47, 0x40, 0x10, 0x10, 0x01, 0x11, 0xAA, 0xBB]
def secCont1 : List Byte := packet188 [0x47, 0x00, 0x10, 0x11, 0xCC]
def secLast : List Byte := packet188 [0x47, 0x40, 0x10, 0x12, 0x02, 0xCC, 0xDD, 0x00, 0xB0]

/-- A check of a frame for a context on PID 0x010. -/
def cleanCheck (fr : List Byte) : Bool :=
  fr.length == 188 && pidOf (packet fr) == 0x010 && byte (packet fr) 0 == 0x47 && !afBad (packet fr)

theorem clean_zero {kind : Kind} {fr : List Byte} (h : cleanCheck fr = true) :
    Clean (running (context kind .none false 0x010#13 .reset)) 0 fr := by
  simp only [cleanCheck, Bool.and_eq_true, beq_iff_eq, Bool.not_eq_true'] at h
  obtain ⟨⟨⟨hl, hp⟩, h0⟩, ha⟩ := h
  refine ⟨hl, ?_, h0, ha⟩
  rw [hp]
  exact claimedBy_zero (c := context kind .none false 0x010#13 .reset) rfl rfl

theorem clean_all {kind : Kind} {frs : List (List Byte)} (h : frs.all cleanCheck = true) :
    ∀ fr ∈ frs, Clean (running (context kind .none false 0x010#13 .reset)) 0 fr :=
  fun fr hfr => clean_zero (List.all_eq_true.mp h fr hfr)

theorem witness_SectionReassemblyRoundTrip :
    let c := context .sec .none false 0x010#13 .reset
    let s := running c
    let b0 := bytes [0xAA, 0xBB] ++ List.replicate 180 0xFF#8
    s.Inv ∧ Open s ∧ s.ctx[0]? = some c ∧ (∀ fr ∈ secFirst :: secLast :: [secCont1], Clean s 0 fr) ∧
      pusiOf (packet secCont1) = false ∧ pusiOf (packet secFirst) = true ∧ pusiOf (packet secLast) = true ∧
      payload (packet secFirst) = 0x01#8 :: (bytes [0x11] ++ b0) ∧
      payload (packet secLast) = 0x02#8 :: (bytes [0xCC, 0xDD] ++ (bytes [0x00, 0xB0] ++ List.replicate 179 0xFF#8)) ∧
      (b0 ++ ([secCont1].map (fun fr => payload (packet fr))).flatten ++ bytes [0xCC, 0xDD]).length ≤ s.params.bufBytes 0 := by
  refine ⟨inv_of_check (by decide +kernel), by unfold Open; decide, rfl, clean_all (by decide +kernel), ?_⟩
  decide +kernel

/-- A PES header with PTS 900000 and DTS 896400 (95_test_vectors.md PES-2), a continuation, the next start packet. -/
def pesFirst : List Byte := packet188 [0x47, 0x40, 0x10, 0x10, 0, 0, 1, 0xE0, 0x12, 0x34, 0x80, 0xC0, 10, 0x31, 0, 0x37, 0x77,
  0x41, 0x11, 0, 0x37, 0x5B, 0x21, 0xAA]

theorem witness_PesUnitCarriesItsOwnHeader :
    let c := context .pes .none false 0x010#13 .reset
    let s := running c
    let e := payload (packet pesFirst)
    s.Inv ∧ Open s ∧ s.ctx[0]? = some c ∧ (∀ fr ∈ pesFirst :: secLast :: [secCont1], Clean s 0 fr) ∧
      pusiOf (packet secCont1) = false ∧ pusiOf (packet pesFirst) = true ∧ pusiOf (packet secLast) = true ∧
      (hasAf (packet secLast) || hasPayload (packet secLast)) = true ∧
      9 ≤ e.length ∧ e.take 3 = [0#8, 0#8, 1#8] ∧ byte e 3 ∉ [0xBC, 0xBE, 0xBF, 0xF0, 0xF1, 0xF2, 0xF8, 0xFF] ∧
      9 + byte e 8 ≤ e.length ∧ byte e 7 / 64 = 3 ∧ 10 ≤ byte e 8 ∧
      (e.drop (9 + byte e 8) ++ ([secCont1].map (fun fr => payload (packet fr))).flatten).length ≤ s.params.bufBytes 0 := by
  refine ⟨inv_of_check (by decide +kernel), by unfold Open; decide, rfl, clean_all (by decide +kernel), ?_⟩
  decide +kernel

/-- A step from a sound state, one that clears a sticky bit, and one that keeps a PMT entry. -/
theorem witness_StepKeepsTheInvariant : busy.Inv ∧ ∃ t, step busy = .next t := ⟨busy_inv, _, rfl⟩

theorem witness_ErrorBitsAreSticky :
    nextIs (step { busy with turns := [.host (hostWrite 0x018#12 0x1#32)] })
      (fun t => busy.errStatus.getLsbD 0 && !t.errStatus.getLsbD 0 && t.errStatus.getLsbD 5) = true := by decide +kernel

theorem witness_PmtEntriesAreNeverRemoved :
    busy.pmt.es[1]? = some ⟨0x81, 0x102, 0⟩ ∧ ∃ t, step { busy with turns := [.host (hostWrite 0x010#12 0#32)] } = .next t :=
  ⟨by decide, _, rfl⟩

end Sys2Proof.Tests
end

section
/-! PROOFS. What a step does with each kind of turn, and what a transaction performs (00_scope.md R6, R7; 20_memory.md
R111). -/

namespace Sys2Proof.Machine

open Sys2Proof.Claims

/-! ## Operations in order -/

@[simp] theorem execAll_nil (s : State) : execAll [] s = .next s := rfl

theorem execAll_cons_of_next {i : Instr} {s t : State} (h : exec i s = .next t) (is : List Instr) :
    execAll (i :: is) s = execAll is t := by
  simp only [execAll, h]

@[simp] theorem execAll_singleton (i : Instr) (s : State) : execAll [i] s = exec i s := by
  simp only [execAll]
  cases exec i s <;> rfl

/-! ## Transactions -/

theorem perform_of_decode {e : Encoded} {s : State} {is : List Instr} (h : decode s.params.nCtx e = .ok is) :
    perform e s = execAll is s := by
  simp only [perform, h]

@[simp] theorem perform_host (w : PortWord) (s : State) :
    perform (.host w) s = execAll (decodeHost s.params.nCtx w) s := rfl

@[simp] theorem perform_reset_high (s : State) : perform (.reset 1#1) s = exec .reset s :=
  (perform_of_decode rfl).trans (execAll_singleton .reset s)

@[simp] theorem perform_reset_low (s : State) : perform (.reset 0#1) s = .next s := rfl

theorem perform_op {sel : Selector} {s : State} {i : Instr} (h : decodeOp s.params.nCtx sel = .ok i) :
    perform (.op sel) s = exec i s := by
  have hd : decode s.params.nCtx (.op sel) = .ok [i] := by simp only [decode, h]; rfl
  rw [perform_of_decode hd, execAll_singleton]

/-- A frame of a physical length is one operation, FRAME. -/
theorem perform_frame {fr : List Byte} (h : fr.length = 188 ∨ fr.length = 192 ∨ fr.length = 204) (s : State) :
    perform (.frame fr) s = exec (.frame fr) s := by
  have hd : decode s.params.nCtx (.frame fr) = .ok [.frame fr] := if_pos h
  rw [perform_of_decode hd, execAll_singleton]

/-! ## The input port (40_framer.md R201, R202) -/

theorem held_iff (s : State) : held s = true ↔ Held s := by
  have hslots : s.params.evqDepth - s.evq.length < 4 ↔ s.params.evqDepth < s.evq.length + 4 := by omega
  simp only [held, Held, Bool.or_eq_true, Bool.not_eq_true', decide_eq_true_eq, beq_iff_eq, hslots, or_assoc]

theorem not_held_of_accepts {s : State} {fr : List Byte} (h : Accepts s fr) : ¬ Held s := by
  obtain ⟨hen, hslots, hunits, -⟩ := h
  rintro (hoff | hfew | hfull)
  · simp [hen] at hoff
  · omega
  · exact hunits hfull

theorem length_of_accepts {s : State} {fr : List Byte} (h : Accepts s fr) :
    fr.length = 188 ∨ fr.length = 192 ∨ fr.length = 204 := by
  obtain ⟨-, -, -, hlen⟩ := h
  cases hsize : s.ctrl.frameSize <;> simp [hlen, hsize]

/-- INPUT's offer of an acceptable frame is FRAME, with the frame taken from the offers. -/
theorem offerFrame_of_accepts {s : State} {fr : List Byte} {more : List (List Byte)} (ho : s.offers = fr :: more)
    (h : Accepts s fr) : offerFrame s = exec (.frame fr) { s with offers := more } := by
  have hopen : ¬ held s = true := fun hh => not_held_of_accepts h ((held_iff s).mp hh)
  simp only [offerFrame, ho, if_neg hopen, perform_frame (length_of_accepts h)]

/-! ## The turn that a step takes -/

theorem step_of_no_turn {s : State} (h : s.turns = []) : step s = .next s := by
  simp only [step, h]

theorem step_of_input {s : State} {rest : List Turn} (h : s.turns = .input :: rest) :
    step s = offerFrame { s with turns := rest } := by
  simp only [step, h]

theorem step_of_host {s : State} {rest : List Turn} {w : PortWord} (h : s.turns = .host w :: rest) :
    step s = execAll (decodeHost s.params.nCtx w) { s with turns := rest } := by
  simp only [step, h, perform_host]

theorem step_of_reset {s : State} {rest : List Turn} {level : BitVec 1} (h : s.turns = .reset level :: rest) :
    step s = perform (.reset level) { s with turns := rest } := by
  simp only [step, h]

theorem step_of_op {s : State} {rest : List Turn} {sel : Selector} (h : s.turns = .op sel :: rest) :
    step s = perform (.op sel) { s with turns := rest } := by
  simp only [step, h]

/-- Settles O5: each clause is the equation of `step` for its turn, followed by what the turn's word performs. -/
theorem stepRunsTheDecodedOperations : Obligations.StepRunsTheDecodedOperations := by
  refine ⟨?input, ?hostOne, ?hostSeveral, ?resetHigh, ?resetLow, ?noTurn, ?op⟩
  case input =>
    intro s rest fr more ht ho hacc
    -- `Accepts` and the offers do not look at the turns.
    exact (step_of_input ht).trans (offerFrame_of_accepts (s := { s with turns := rest }) ho hacc)
  case hostOne =>
    intro s rest w i ht hd
    rw [step_of_host ht, hd, execAll_singleton]
  case hostSeveral =>
    intro s t rest w i is ht hd hi
    rw [step_of_host ht, hd, execAll_cons_of_next hi]
  case resetHigh =>
    intro s rest ht
    rw [step_of_reset ht, perform_reset_high]
  case resetLow =>
    intro s rest ht
    rw [step_of_reset ht, perform_reset_low]
  case noTurn =>
    intro s ht
    exact step_of_no_turn ht
  case op =>
    intro s rest sel i ht hd
    exact (step_of_op ht).trans (perform_op (s := { s with turns := rest }) hd)

end Sys2Proof.Machine
end

section
/-! PROOFS. What every operation but the three that clear ERR_STATUS carries over: the parameters of the block and the
sticky error bits (10_state.md R37, R43; 60_exceptions.md R505). -/

namespace Sys2Proof.Machine

open Sys2Proof.Claims

/-! ## A frame up to its claim, and its end -/

/-- The state at the claim of a FRAME transaction: header, class, LAST_HDR and LAST_AF, and ROUTE are done (40_framer.md
R200). -/
def atClaim (fr : List Byte) (s : State) : State :=
  let s := beginFrame fr s
  let h := be32 s.flight.p 0
  route h (latchLast (pktClass h (pktHdr h s)))

/-- Up to its claim a frame writes LAST_HDR, LAST_AF and the transient variables, and emits nothing. -/
theorem atClaim_writes (fr : List Byte) (s : State) : ∃ hdr p f,
    atClaim fr s = { s with lastHdr := hdr, lastAf := lastAfWord hdr p, flight := f } ∧ f.unit = none := by
  unfold atClaim
  extract_lets t h
  obtain ⟨af, ok, errs, pl, ra, hclass⟩ := pktClass_writes h (pktHdr h t)
  rw [hclass, pktHdr_eq]
  exact ⟨_, _, _, rfl, rfl⟩

theorem frameBody_eq (fr : List Byte) (s : State) : frameBody fr s =
    match (atClaim fr s).flight.claim with
    | none => atClaim fr s
    | some c => claimedFrame c (be32 (beginFrame fr s).flight.p 0) (atClaim fr s) := by
  unfold frameBody atClaim
  rfl

/-- A frame does nothing more than `atClaim`, or a context that the block has claims it. -/
theorem frameBody_cases (fr : List Byte) (s : State) : frameBody fr s = atClaim fr s ∨
    ∃ c ctx h, (atClaim fr s).ctx[c]? = some ctx ∧ frameBody fr s = claimedFrame c h (atClaim fr s) := by
  rw [frameBody_eq]
  split
  · exact .inl rfl
  next c hc =>
    have hroute : routeOf (hdrPid (be32 (beginFrame fr s).flight.p 0)) (atClaim fr s).ctx = some c := hc
    obtain ⟨hlt, -⟩ := List.findIdx?_eq_some_iff_getElem.mp hroute
    exact .inr ⟨c, _, _, List.getElem?_eq_getElem hlt, rfl⟩

/-- What a claimed frame does to its context (40_framer.md R200). -/
theorem touches_claimedFrame (c : Nat) (h : Word) (s : State) :
    ∃ evAf evOpcr, Touches c { s with flight := { s.flight with evAf := evAf, evOpcr := evOpcr } }
      (claimedFrame c h s) := by
  obtain ⟨evAf, evOpcr, he⟩ := afEvents_writes c s
  refine ⟨evAf, evOpcr, ?_⟩
  simp only [claimedFrame, he]
  split
  · exact touches_contextOp c h _
  · exact Touches.refl c _

/-- FINALIZE (40_framer.md R215): the unit and at most four events are queued and the causes are latched. -/
theorem finalize_eq (s : State) : ∃ evs : List EvRec, evs.length ≤ 4 ∧ ∃ drops, finalize s = { s with
    uq := s.uq ++ s.flight.unit.toList
    evq := s.evq ++ evs
    dropCount := drops
    errStatus := s.errStatus ||| s.flight.errs
    pktIndex := s.flight.k + 1
    flight := .idle } := by
  cases hc : s.flight.claim with
  | none =>
    refine ⟨[], by simp, s.dropCount + 1, ?_⟩
    simp [finalize, finalizeEvents, pushUnit?_eq, hc, drop, latchErrors]
  | some c =>
    refine ⟨s.flight.evAf.toList ++ s.flight.evOpcr.toList ++ s.flight.evTbl.toList ++ (errRecord? c s.flight).toList,
      ?_, s.dropCount, ?_⟩
    · have hone (e : Option EvRec) : e.toList.length ≤ 1 := by cases e <;> simp
      have := hone s.flight.evAf
      have := hone s.flight.evOpcr
      have := hone s.flight.evTbl
      have := hone (errRecord? c s.flight)
      simp only [List.length_append]
      omega
    · simp [finalize, finalizeEvents, pushUnit?_eq, pushEvent?_eq, reportErrors_eq, hc, latchErrors]

/-! ## What is carried over -/

/-- From `s` to `t` the parameters stay and no sticky error bit is lost. -/
structure Carries (s t : State) : Prop where
  params : t.params = s.params
  sticky : ∀ n, s.errStatus.getLsbD n = true → t.errStatus.getLsbD n = true

theorem Carries.of_eq {s t : State} (hp : t.params = s.params) (he : t.errStatus = s.errStatus) : Carries s t :=
  ⟨hp, fun n hn => by rw [he]; exact hn⟩

theorem Carries.trans {s t u : State} (h : Carries s t) (g : Carries t u) : Carries s u :=
  ⟨g.params.trans h.params, fun n hn => g.sticky n (h.sticky n hn)⟩

theorem Touches.carries {i : Nat} {s t : State} (h : Touches i s t) : Carries s t := .of_eq h.params h.errStatus

theorem carries_finalize (s : State) : Carries s (finalize s) := by
  obtain ⟨evs, -, drops, h⟩ := finalize_eq s
  rw [h]
  exact ⟨rfl, fun n hn => by simp [hn]⟩

theorem carries_atClaim (fr : List Byte) (s : State) : Carries s (atClaim fr s) := by
  obtain ⟨hdr, p, f, h, -⟩ := atClaim_writes fr s
  rw [h]; exact .of_eq rfl rfl

theorem carries_claimedFrame (c : Nat) (h : Word) (s : State) : Carries s (claimedFrame c h s) := by
  obtain ⟨evAf, evOpcr, ht⟩ := touches_claimedFrame c h s
  exact .of_eq ht.params ht.errStatus

theorem carries_frameBody (fr : List Byte) (s : State) : Carries s (frameBody fr s) := by
  obtain hbody | ⟨c, ctx, h, -, hbody⟩ := frameBody_cases fr s
  · rw [hbody]; exact carries_atClaim fr s
  · rw [hbody]; exact (carries_atClaim fr s).trans (carries_claimedFrame c h _)

theorem carries_execFrame {fr : List Byte} {s t : State} (h : execFrame fr s = .next t) : Carries s t := by
  unfold execFrame at h
  split at h
  · cases h; exact .of_eq rfl rfl
  · split at h
    · cases h; exact (carries_frameBody fr s).trans (carries_finalize _)
    · cases h

/-! ### The operations of a frame by themselves -/

theorem carries_afDecode (s : State) : Carries s (afDecode s) := by
  obtain ⟨af, ok, errs, h⟩ := afDecode_writes s
  rw [h]; exact .of_eq rfl rfl

theorem carries_pktHdr (h : Word) (s : State) : Carries s (pktHdr h s) := by
  rw [pktHdr_eq]; exact .of_eq rfl rfl

theorem carries_setPayload (pl : List Byte) (ra : Bool) (s : State) : Carries s (setPayload pl ra s) := .of_eq rfl rfl

theorem carries_pktAfPayload (s : State) : Carries s (pktAfPayload s) := by
  unfold pktAfPayload
  simp only
  split
  · exact (carries_afDecode s).trans (carries_setPayload _ _ _)
  · exact (carries_afDecode s).trans (carries_setPayload _ _ _)

theorem carries_pcrExtract (s : State) : Carries s (pcrExtract s) := by
  obtain ⟨af, errs, h⟩ := pcrExtract_writes s
  rw [h]; exact .of_eq rfl rfl

theorem carries_opcrExtract (o : Nat) (s : State) : Carries s (opcrExtract o s) := by
  obtain ⟨af, errs, h⟩ := opcrExtract_writes o s
  rw [h]; exact .of_eq rfl rfl

theorem carries_patDecode (s : State) : Carries s (patDecode s) := by
  obtain ⟨pat, errs, ev, h⟩ := patDecode_writes s
  rw [h]; exact .of_eq rfl rfl

theorem carries_pmtDecode (s : State) : Carries s (pmtDecode s) := by
  obtain ⟨pmt, errs, ev, h⟩ := pmtDecode_writes s
  rw [h]; exact .of_eq rfl rfl

/-! ### Every operation -/

/-- The operations that can clear a sticky error bit: the two resets and the host's acknowledgement. -/
def clearsErrors : Instr → Bool
  | .wrErrStatus _ | .cmdSoftReset | .reset => true
  | _ => false

/-- An operation that answers a function of the state carries over what the function does. -/
theorem Carries.of_next {s t u : State} (hu : Carries s u)
    (h : (Host.Outcome.next u : Host.Outcome State Fault Refusal) = .next t) : Carries s t := by
  cases h; exact hu

theorem carries_exec {i : Instr} {s t : State} (hi : clearsErrors i = false) (h : exec i s = .next t) : Carries s t := by
  cases i with
  | frame fr => exact carries_execFrame h
  | pktHdr hd => exact (carries_pktHdr hd s).of_next h
  | pktAf => exact ((carries_afDecode s).trans (carries_setPayload _ _ _)).of_next h
  | pktAfPayload => exact (carries_pktAfPayload s).of_next h
  | afDecode => exact (carries_afDecode s).of_next h
  | pcrExtract => exact (carries_pcrExtract s).of_next h
  | opcrExtract => exact (carries_opcrExtract _ s).of_next h
  | secCont c => exact (touches_secCont c s).carries.of_next h
  | secStart c => exact (touches_secStart c s).carries.of_next h
  | patDecode => exact (carries_patDecode s).of_next h
  | pmtDecode => exact (carries_pmtDecode s).of_next h
  | pesCont c => exact (touches_pesCont c s).carries.of_next h
  | pesStart c => exact (touches_pesStart c s).carries.of_next h
  | pesHdrDecode c => exact (touches_pesHdrDecode c s).carries.of_next h
  | wrErrStatus | cmdSoftReset | reset => cases hi
  -- The other operations write fields that are neither the parameters nor ERR_STATUS.
  | _ => cases h; exact .of_eq rfl rfl

theorem carries_execAll {is : List Instr} {s t : State} (hi : ∀ i ∈ is, clearsErrors i = false)
    (h : execAll is s = .next t) : Carries s t := by
  induction is generalizing s with
  | nil => cases h; exact .of_eq rfl rfl
  | cons i rest ih =>
    obtain ⟨hhead, hrest⟩ := List.forall_mem_cons.mp hi
    simp only [execAll] at h
    split at h
    next u hu => exact (carries_exec hhead hu).trans (ih hrest h)
    all_goals cases h

/-! ## What a host word selects (30_encoding.md R160, R181) -/

/-- The operations of the register port. -/
def isPortOp : Instr → Bool
  | .regRead _ | .wrCtrl _ | .wrCtxCfg _ _ | .wrIrqEn _ | .wrErrStatus _ | .wrUnitRdptr _ | .wrIgnored _ _
  | .cmdSoftReset | .cmdEvPop | .cmdClrTables | .cmdUnitPop => true
  | _ => false

/-- A word selects one operation of the register port, or some of the commands that one write to CMD combines. -/
def PortSelection (is : List Instr) : Prop :=
  (∃ i, isPortOp i = true ∧ is = [i]) ∨ ∀ i ∈ is, i = .cmdClrTables ∨ i = .cmdEvPop ∨ i = .cmdUnitPop

theorem PortSelection.one {i : Instr} (h : isPortOp i = true) : PortSelection [i] := .inl ⟨i, h, rfl⟩

theorem decodeCmd_selects (a : Addr) (d : Word) : PortSelection (decodeCmd a d) := by
  unfold decodeCmd
  split
  · exact .one rfl
  · split
    · exact .one rfl
    · refine .inr fun i hi => ?_
      simp only [List.mem_append, List.mem_ite_nil_right, List.mem_singleton] at hi
      obtain (⟨-, h⟩ | ⟨-, h⟩) | ⟨-, h⟩ := hi
      · exact .inl h
      · exact .inr (.inl h)
      · exact .inr (.inr h)

theorem decodeHost_selects (n : Nat) (w : PortWord) : PortSelection (decodeHost n w) := by
  unfold decodeHost
  split
  · unfold decodeWrite
    -- Of the branches of the register map only CMD's selects by the data written.
    repeat' split
    case isTrue.isFalse.isTrue => exact decodeCmd_selects _ _
    all_goals exact .one rfl
  · exact .one rfl

theorem isPortOp_of_mem {n : Nat} {w : PortWord} {i : Instr} (h : i ∈ decodeHost n w) : isPortOp i = true := by
  obtain ⟨j, hj, hw⟩ | hw := decodeHost_selects n w
  · rw [hw, List.mem_singleton] at h; rw [h]; exact hj
  · obtain rfl | rfl | rfl := hw i h <;> rfl

/-- An operation that clears sticky bits stands alone in its word. -/
theorem decodeHost_of_clears {n : Nat} {w : PortWord} {i : Instr} (h : i ∈ decodeHost n w)
    (hi : clearsErrors i = true) : decodeHost n w = [i] := by
  obtain ⟨j, -, hw⟩ | hw := decodeHost_selects n w
  · rw [hw, List.mem_singleton] at h; rw [hw, h]
  · obtain rfl | rfl | rfl := hw i h <;> cases hi

/-- No operation inside a frame clears sticky bits: no branch of the decoder names one that does. -/
theorem not_clears_of_decodeOp {n : Nat} {sel : Selector} {i : Instr} (h : decodeOp n sel = .ok i) :
    clearsErrors i = false := by
  unfold decodeOp decodeClass decodeClaimed at h
  repeat' split at h
  all_goals cases h
  all_goals rfl

/-! ## The operations of a step -/

theorem perform_next {e : Encoded} {s t : State} (h : perform e s = .next t) :
    ∃ is, decode s.params.nCtx e = .ok is ∧ execAll is s = .next t := by
  unfold perform at h
  split at h
  next is hd => exact ⟨is, hd, h⟩
  all_goals cases h

theorem eq_frame_of_decode {n : Nat} {fr : List Byte} {is : List Instr} (h : decode n (.frame fr) = .ok is) :
    is = [.frame fr] := by
  change decodeFrame fr = .ok is at h
  unfold decodeFrame at h
  split at h
  · exact (Except.ok.inj h).symm
  · cases h

theorem mem_reset_of_decode {n : Nat} {level : BitVec 1} {is : List Instr} (h : decode n (.reset level) = .ok is)
    {i : Instr} (hi : i ∈ is) : level = 1#1 ∧ i = .reset ∧ is = [i] := by
  obtain rfl : (if level = 1#1 then [Instr.reset] else []) = is := Except.ok.inj h
  obtain ⟨hlevel, hi⟩ := List.mem_ite_nil_right.mp hi
  rw [List.mem_singleton] at hi
  exact ⟨hlevel, hi, by rw [if_pos hlevel, hi]⟩

theorem decodeOp_of_decode {n : Nat} {sel : Selector} {is : List Instr} (h : decode n (.op sel) = .ok is) :
    ∃ i, decodeOp n sel = .ok i ∧ is = [i] := by
  change (decodeOp n sel).map (fun i => [i]) = .ok is at h
  cases hop : decodeOp n sel with
  | error why => rw [hop] at h; cases h
  | ok i => rw [hop] at h; exact ⟨i, rfl, (Except.ok.inj h).symm⟩

/-- INPUT performs FRAME or nothing. -/
theorem offerFrame_performs {s t : State} (h : offerFrame s = .next t) : ∃ is offers,
    execAll is { s with offers := offers } = .next t ∧ ∀ i ∈ is, clearsErrors i = false := by
  have hnone (hs : (Host.Outcome.next s : Host.Outcome State Fault Refusal) = .next t) : ∃ is offers,
      execAll is { s with offers := offers } = .next t ∧ ∀ i ∈ is, clearsErrors i = false :=
    ⟨[], s.offers, hs, by simp⟩
  unfold offerFrame at h
  split at h
  · exact hnone h
  next fr more _ =>
    split at h
    · exact hnone h
    · obtain ⟨is, hd, he⟩ := perform_next h
      refine ⟨is, more, he, fun i hi => ?_⟩
      rw [eq_frame_of_decode hd, List.mem_singleton] at hi
      rw [hi]; rfl

/-- The operation that clears sticky bits in this step: the reset input or the host's one. -/
def ClearingTurn (s : State) (i : Instr) : Prop :=
  (i = .reset ∧ ∃ rest, s.turns = .reset 1#1 :: rest) ∨
    ∃ w rest, s.turns = .host w :: rest ∧ decodeHost s.params.nCtx w = [i]

/-- A step performs operations in order, with the agents' ports moved on; one that clears sticky bits is the only one,
and the turn's. -/
theorem step_performs {s t : State} (h : step s = .next t) : ∃ is offers turns,
    execAll is { s with offers := offers, turns := turns } = .next t ∧
      ∀ i ∈ is, clearsErrors i = true → is = [i] ∧ ClearingTurn s i := by
  cases hturns : s.turns with
  | nil =>
    rw [step_of_no_turn hturns] at h
    exact ⟨[], s.offers, s.turns, h, by simp⟩
  | cons turn rest =>
    cases turn with
    | input =>
      rw [step_of_input hturns] at h
      obtain ⟨is, offers, he, hi⟩ := offerFrame_performs h
      exact ⟨is, offers, rest, he, fun i hm hc => by simp [hi i hm] at hc⟩
    | host w =>
      rw [step_of_host hturns] at h
      refine ⟨_, s.offers, rest, h, fun i hm hc => ?_⟩
      have hone := decodeHost_of_clears hm hc
      exact ⟨hone, .inr ⟨w, rest, hturns, hone⟩⟩
    | reset level =>
      rw [step_of_reset hturns] at h
      obtain ⟨is, hd, he⟩ := perform_next h
      refine ⟨is, s.offers, rest, he, fun i hm _ => ?_⟩
      obtain ⟨hlevel, hreset, hone⟩ := mem_reset_of_decode hd hm
      exact ⟨hone, .inl ⟨hreset, rest, by rw [hturns, hlevel]⟩⟩
    | op sel =>
      rw [step_of_op hturns] at h
      obtain ⟨is, hd, he⟩ := perform_next h
      refine ⟨is, s.offers, rest, he, fun i hm hc => ?_⟩
      obtain ⟨j, hop, rfl⟩ := decodeOp_of_decode hd
      rw [List.mem_singleton.mp hm, not_clears_of_decodeOp hop] at hc
      cases hc

/-- What clears sticky bits leaves the parameters too. -/
theorem exec_params {i : Instr} {s t : State} (h : exec i s = .next t) : t.params = s.params := by
  cases hi : clearsErrors i with
  | false => exact (carries_exec hi h).params
  | true =>
    cases i with
    | wrErrStatus | cmdSoftReset | reset => cases h; rfl
    | _ => cases hi

theorem execAll_params {is : List Instr} {s t : State} (h : execAll is s = .next t) : t.params = s.params := by
  induction is generalizing s with
  | nil => cases h; rfl
  | cons i rest ih =>
    simp only [execAll] at h
    split at h
    next u hu => exact (ih h).trans (exec_params hu)
    all_goals cases h

theorem step_params {s t : State} (h : step s = .next t) : t.params = s.params := by
  obtain ⟨is, offers, turns, he, -⟩ := step_performs h
  have hparams := execAll_params he
  exact hparams

/-- A bit that a write of ERR_STATUS clears is one that it writes 1 to (45_host_interface.md R413). -/
theorem written_of_cleared {d : Word} {s : State} {n : Nat} (hs : s.errStatus.getLsbD n = true)
    (ht : (clearErrors d s).errStatus.getLsbD n = false) : d.getLsbD n = true := by
  have hn : n < 7 := BitVec.lt_of_getLsbD hs
  simpa [clearErrors, hs, hn] using ht

/-- Settles O58: a step without an operation that clears sticky bits carries them over; of the three that do, the two
resets make the turn a reset, and a write of ERR_STATUS clears only the bits it writes 1 to. -/
theorem errorBitsAreSticky : Obligations.ErrorBitsAreSticky := by
  unfold Obligations.ErrorBitsAreSticky
  intro s t n hstep hs ht
  obtain ⟨is, offers, turns, he, hclears⟩ := step_performs hstep
  by_cases hnone : ∀ i ∈ is, clearsErrors i = false
  · rw [(carries_execAll hnone he).sticky n hs] at ht
    cases ht
  · obtain ⟨i, hmem, hi⟩ : ∃ i ∈ is, clearsErrors i = true := by simpa using hnone
    obtain ⟨rfl, hturn⟩ := hclears i hmem hi
    rw [execAll_singleton] at he
    obtain ⟨hreset, rest, hturns⟩ | ⟨w, rest, hturns, hw⟩ := hturn
    · exact .inl (.inl ⟨rest, hturns⟩)
    · cases i with
      | wrErrStatus d =>
        cases he
        exact .inr ⟨w, rest, d, hturns, hw, written_of_cleared hs ht⟩
      | cmdSoftReset => exact .inl (.inr ⟨w, rest, hturns, by simp [hw]⟩)
      | reset =>
        have : isPortOp .reset = true := isPortOp_of_mem (by rw [hw]; exact List.mem_singleton_self _)
        cases this
      | _ => cases hi

end Sys2Proof.Machine
end

section
/-! PROOFS. The invariant between transactions and what keeps it (10_state.md R35, 40_framer.md R201, 43_psi_tables.md
R318). -/

namespace Sys2Proof.Machine

open Sys2Proof.Claims

theorem bufBytes_lt_of_legal {p : Params} (h : p.legal) (i : Nat) : p.bufBytes i < 2 ^ 24 := by
  obtain ⟨-, -, hcap, -⟩ := h
  unfold Params.bufBytes
  rw [List.getD_eq_getElem?_getD]
  cases hi : p.ctxBufBytes[i]? with
  | none => simp
  | some b => exact (hcap b (List.mem_of_getElem? hi)).2

/-! ## The tables (43_psi_tables.md R318, R330) -/

/-- A PAT table within a capacity of `max` entries, its count and TRUNC as R318 says. -/
def PatTable.Sound (max : Nat) (t : PatTable) : Prop :=
  t.entries.length = min t.n.toNat max ∧ t.trunc = decide (max < t.n.toNat)

/-- A PMT list within a capacity of `max` entries, of distinct PIDs. -/
def SoundEs (max : Nat) (es : List EsEntry) : Prop := es.length ≤ max ∧ (es.map EsEntry.pid).Nodup

theorem PatTable.sound_empty (max : Nat) : PatTable.Sound max .empty := ⟨(Nat.zero_min max).symm, rfl⟩

theorem soundEs_nil (max : Nat) : SoundEs max [] := ⟨Nat.zero_le max, List.nodup_nil⟩

/-- The 12-bit section_length leaves room for fewer than 2^10 records of a PAT section. -/
theorem patParse_records_lt {b : List Byte} {sec : PatSection} (h : patParse b = some sec) :
    sec.records.length < 2 ^ 16 := by
  have hsl := (len12 b 1).isLt
  simp only [patParse] at h
  split at h
  · cases h
  · split at h
    · cases h
    · split at h
      · cases h
      · obtain rfl := Option.some.inj h
        simp only [List.length_map, List.length_range]
        omega

theorem patTableOf_sound (max : Nat) {sec : PatSection} (h : sec.records.length < 2 ^ 16) :
    (patTableOf max sec).Sound max := by
  have hn : (patTableOf max sec).n.toNat = sec.records.length := by
    simp only [patTableOf, BitVec.toNat_ofNat, Nat.mod_eq_of_lt h]
  constructor
  · rw [hn]; simp [patTableOf, Nat.min_comm]
  · rw [hn]; rfl

theorem patDecode_sound {s : State} (h : s.pat.Sound s.params.patMax) :
    (patDecode s).pat.Sound s.params.patMax := by
  unfold patDecode
  split
  · exact h
  · split
    · exact h
    next sec hsec =>
      simp only [patCommit, raiseIf_eq]
      exact patTableOf_sound _ (patParse_records_lt hsec)

/-- An update in place keeps the list of PIDs; a new PID is appended only while there is room. -/
theorem mergeOne_soundEs {max : Nat} {m : Merge} (r : EsEntry) (h : SoundEs max m.es) :
    SoundEs max (mergeOne max m r).es := by
  obtain ⟨hlen, hnodup⟩ := h
  unfold mergeOne
  split
  next j hj =>
    obtain ⟨hlt, hpid, -⟩ := List.findIdx?_eq_some_iff_getElem.mp hj
    have hsame : (m.es.set j r).map EsEntry.pid = m.es.map EsEntry.pid := by
      have hr : r.pid = (m.es.map EsEntry.pid)[j]'(by simpa using hlt) := by simp [beq_iff_eq.mp hpid]
      rw [List.map_set, hr, List.set_getElem_self]
    exact ⟨by simpa using hlen, by rw [hsame]; exact hnodup⟩
  next hnone =>
    split
    · have hnew : r.pid ∉ m.es.map EsEntry.pid := by
        simpa [List.findIdx?_eq_none_iff] using hnone
      refine ⟨by simp; omega, ?_⟩
      rw [List.map_append]
      exact hnodup.append (List.nodup_singleton _) (by simpa using hnew)
    · exact ⟨hlen, hnodup⟩

theorem foldl_mergeOne_soundEs {max : Nat} (recs : List EsEntry) {m : Merge} (h : SoundEs max m.es) :
    SoundEs max (recs.foldl (mergeOne max) m).es := by
  induction recs generalizing m with
  | nil => exact h
  | cons r rest ih => exact ih (mergeOne_soundEs r h)

theorem pmtMerge_soundEs {max : Nat} {es : List EsEntry} (h : SoundEs max es) (recs : List EsEntry) :
    SoundEs max (pmtMerge max es recs).es := foldl_mergeOne_soundEs (m := ⟨es, 0, false⟩) recs h

theorem pmtDecode_soundEs {s : State} (h : SoundEs s.params.pmtEsMax s.pmt.es) :
    SoundEs s.params.pmtEsMax (pmtDecode s).pmt.es := by
  unfold pmtDecode
  split
  · exact h
  · split
    · exact h
    · simp only [pmtCommit, raiseIf_eq]
      exact pmtMerge_soundEs h _

/-! ## The claimed context (42_section.md R270 to R281, 44_pes.md R360 to R370) -/

/-- What a frame of context i has emitted so far is sound: the unit fits the context's capacity, the tables theirs. -/
structure Emitted (i : Nat) (s : State) : Prop where
  unit : ∀ u, s.flight.unit = some u → u.data.length ≤ s.params.bufBytes i
  pat  : s.pat.Sound s.params.patMax
  pmt  : SoundEs s.params.pmtEsMax s.pmt.es

/-- Context i has a unit in progress whose bytes fit, in a frame that has emitted nothing unsound. -/
structure Assembling (i : Nat) (s : State) : Prop extends Emitted i s where
  inProgress : ∃ c, s.ctx[i]? = some c ∧ c.st.pending = true ∧ c.st.buf.length ≤ s.params.bufBytes i

/-- Context i is sound, in a frame that has emitted nothing unsound. -/
structure SoundAt (i : Nat) (s : State) : Prop extends Emitted i s where
  ctx : ∃ c, s.ctx[i]? = some c ∧ c.st.Sound (s.params.bufBytes i)

theorem Assembling.soundAt {i : Nat} {s : State} (h : Assembling i s) : SoundAt i s := by
  obtain ⟨c, hc, hp, hfit⟩ := h.inProgress
  exact ⟨h.toEmitted, c, hc, hfit, fun hidle => by simp [hp] at hidle⟩

theorem SoundAt.assembling {i : Nat} {s : State} (h : SoundAt i s) (hp : (ctxAt s i).st.pending = true) :
    Assembling i s := by
  obtain ⟨c, hc, hfit, -⟩ := h.ctx
  exact ⟨h.toEmitted, c, hc, by rwa [ctxAt_of hc] at hp, hfit⟩

section
variable {i : Nat} {s : State}

theorem Emitted.onFlight {f : Flight → Flight} (h : Emitted i s) (hf : (f s.flight).unit = s.flight.unit) :
    Emitted i (onFlight f s) := ⟨fun u hu => h.unit u (hf ▸ hu), h.pat, h.pmt⟩

theorem Assembling.onFlight {f : Flight → Flight} (h : Assembling i s) (hf : (f s.flight).unit = s.flight.unit) :
    Assembling i (onFlight f s) := ⟨h.toEmitted.onFlight hf, h.inProgress⟩

theorem SoundAt.onFlight {f : Flight → Flight} (h : SoundAt i s) (hf : (f s.flight).unit = s.flight.unit) :
    SoundAt i (onFlight f s) := ⟨h.toEmitted.onFlight hf, h.ctx⟩

theorem Assembling.raise (h : Assembling i s) (c : Cause) : Assembling i (raise c s) :=
  h.onFlight (f := fun f => { f with errs := f.errs ||| c.bit }) rfl

theorem SoundAt.raise (h : SoundAt i s) (c : Cause) : SoundAt i (raise c s) :=
  h.onFlight (f := fun f => { f with errs := f.errs ||| c.bit }) rfl

theorem SoundAt.raiseIf (h : SoundAt i s) (b : Bool) (c : Cause) : SoundAt i (raiseIf b c s) := by
  cases b
  · exact h
  · exact h.raise c

/-- A change of context i that leaves PENDING and the buffer. -/
theorem Assembling.onCtx {f : CtxState → CtxState} (h : Assembling i s)
    (hf : ∀ c, (f c).pending = c.pending ∧ (f c).buf = c.buf) : Assembling i (onCtx i f s) := by
  obtain ⟨c, hc, hp, hfit⟩ := h.inProgress
  obtain ⟨hpending, hbuf⟩ := hf c.st
  rw [onCtx_of hc]
  exact ⟨⟨h.unit, h.pat, h.pmt⟩, _, getElem?_set_of hc _, hpending.trans hp, hbuf ▸ hfit⟩

theorem Assembling.appendUnit (h : Assembling i s) (b : List Byte) : Assembling i (appendUnit i b s) := by
  obtain ⟨c, hc, hp, hfit⟩ := h.inProgress
  rw [appendUnit_eq hc]
  refine ⟨⟨h.unit, h.pat, h.pmt⟩, _, getElem?_set_of hc _, hp, ?_⟩
  simp only [appended, List.length_append, List.length_take]
  omega

theorem Assembling.flagPtrErr (h : Assembling i s) (bad : Bool) : Assembling i (flagPtrErr bad i s) := by
  cases bad
  · exact h
  · exact h.onCtx (f := fun c => { c with ptrErr := true }) fun _ => ⟨rfl, rfl⟩

/-- BEGIN opens a unit whatever the context held. -/
theorem Emitted.beginUnit {c : Context} (h : Emitted i s) (hc : s.ctx[i]? = some c) : Assembling i (beginUnit i s) := by
  rw [beginUnit_eq hc]
  exact ⟨⟨h.unit, h.pat, h.pmt⟩, _, getElem?_set_of hc _, rfl, Nat.zero_le _⟩

theorem Emitted.decodeTable (h : Emitted i s) (cfg : CtxCfg) : Emitted i (decodeTable cfg s) := by
  unfold Machine.decodeTable
  split
  · have hpat := patDecode_sound h.pat
    obtain ⟨pat, errs, ev, hw⟩ := patDecode_writes s
    rw [hw] at hpat ⊢
    exact ⟨h.unit, hpat, h.pmt⟩
  · have hpmt := pmtDecode_soundEs h.pmt
    obtain ⟨pmt, errs, ev, hw⟩ := pmtDecode_writes s
    rw [hw] at hpmt ⊢
    exact ⟨h.unit, h.pat, hpmt⟩
  · exact h

/-- EMIT takes the unit's bytes from the buffer. -/
theorem Assembling.emitUnit (h : Assembling i s) :
    Emitted i (emitUnit i s) ∧ ∃ c, (emitUnit i s).ctx[i]? = some c := by
  obtain ⟨c, hc, -, hfit⟩ := h.inProgress
  rw [emitUnit_eq hc]
  generalize hu : unitOf i c s.seq s.flight.k = u
  have hunit : u.data.length ≤ s.params.bufBytes i := hu ▸ hfit
  have he : Emitted i { s with seq := s.seq + 1, flight := { s.flight with unit := some u } } :=
    ⟨fun v hv => Option.some.inj hv ▸ hunit, h.pat, h.pmt⟩
  have hd := he.decodeTable c.cfg
  exact ⟨⟨hd.unit, hd.pat, hd.pmt⟩, by simp [decodeTable_ctx, hc]⟩

/-! ### Sections -/

theorem SoundAt.closeSection (h : SoundAt i s) (tail : List Byte) (bad : Bool) :
    Emitted i (closeSection i tail bad s) ∧ ∃ c, (closeSection i tail bad s).ctx[i]? = some c := by
  unfold Machine.closeSection
  split
  next hp => exact (((h.assembling hp).appendUnit tail).flagPtrErr bad).emitUnit
  · obtain ⟨c, hc, -⟩ := h.ctx
    exact ⟨h.toEmitted, c, hc⟩

theorem SoundAt.secStart (h : SoundAt i s) : SoundAt i (secStart i s) := by
  unfold Machine.secStart
  simp only
  split
  · exact h.raise _
  · have hptr := h.onFlight (f := fun f => { f with ptr := some (byteAt s.flight.pl 0) }) rfl
    obtain ⟨he, c, hc⟩ := (hptr.raiseIf _ _).closeSection _ _
    exact (((he.beginUnit hc).flagPtrErr _).appendUnit _).soundAt

theorem SoundAt.secCont (h : SoundAt i s) : SoundAt i (secCont i s) := by
  unfold Machine.secCont
  split
  next hp => exact ((h.assembling hp).appendUnit _).soundAt
  · exact h

/-! ### PES packets -/

theorem Assembling.truncPes (h : Assembling i s) : Assembling i (truncPes i s) :=
  (h.raise _).onCtx fun _ => ⟨rfl, rfl⟩

theorem Assembling.setPs (h : Assembling i s) (ps : Option Nat) : Assembling i (setPs ps s) :=
  h.onFlight (f := fun f => { f with ps := ps }) rfl

theorem Assembling.pesPts (h : Assembling i s) (pdf : BitVec 2) (ps : Nat) : Assembling i (pesPts i pdf ps s) := by
  unfold Machine.pesPts
  split
  · split
    · exact h.onCtx fun _ => ⟨rfl, rfl⟩
    · exact h.truncPes
  · exact h

theorem Assembling.pesDts (h : Assembling i s) (pdf : BitVec 2) (ps : Nat) : Assembling i (pesDts i pdf ps s) := by
  unfold Machine.pesDts
  split
  · split
    · exact h.onCtx fun _ => ⟨rfl, rfl⟩
    · exact h.truncPes
  · exact h

theorem Assembling.pesHdrDecode (h : Assembling i s) : Assembling i (pesHdrDecode i s) := by
  unfold Machine.pesHdrDecode
  extract_lets e s₁ pdf ps s₂
  have h₁ : Assembling i s₁ := h.onCtx fun _ => ⟨rfl, rfl⟩
  have h₂ : Assembling i s₂ := h₁.onCtx fun _ => ⟨rfl, rfl⟩
  split
  · exact h.truncPes.setPs _
  · split
    · exact h₁.setPs _
    · split
      · exact h₁.truncPes.setPs _
      · split
        · exact h₂.truncPes.setPs _
        · exact ((h₂.pesPts _ _).pesDts _ _).setPs _

theorem Assembling.pesOpenHeader (h : Assembling i s) : Assembling i (pesOpenHeader i s) := by
  have hd := (h.onCtx (f := fun c => { c with pesHdr := true }) fun _ => ⟨rfl, rfl⟩).pesHdrDecode
  unfold Machine.pesOpenHeader
  simp only
  split
  · exact hd
  · exact hd.appendUnit _

theorem SoundAt.pesStart (h : SoundAt i s) : SoundAt i (pesStart i s) := by
  have hclosed : ∃ c, Emitted i (if (ctxAt s i).st.pending then Machine.emitUnit i s else s) ∧
      (if (ctxAt s i).st.pending then Machine.emitUnit i s else s).ctx[i]? = some c := by
    split
    next hp =>
      obtain ⟨he, c, hc⟩ := (h.assembling hp).emitUnit
      exact ⟨c, he, hc⟩
    · obtain ⟨c, hc, -⟩ := h.ctx
      exact ⟨c, h.toEmitted, hc⟩
  obtain ⟨c, he, hc⟩ := hclosed
  have hb := he.beginUnit hc
  unfold Machine.pesStart
  extract_lets s₁ s₂
  split
  · exact (Assembling.pesOpenHeader hb).soundAt
  · exact (Assembling.appendUnit hb _).soundAt

theorem SoundAt.pesCont (h : SoundAt i s) : SoundAt i (pesCont i s) := by
  unfold Machine.pesCont
  split
  next hp => exact ((h.assembling hp).appendUnit _).soundAt
  · exact h

theorem SoundAt.contextOp (h : SoundAt i s) (hd : Word) : SoundAt i (contextOp i hd s) := by
  unfold Machine.contextOp
  split
  · exact h
  · split
    · exact h.secStart
    · exact h.secCont
  · split
    · exact h.pesStart
    · exact h.pesCont

theorem SoundAt.claimedFrame (h : SoundAt i s) (hd : Word) : SoundAt i (claimedFrame i hd s) := by
  obtain ⟨evAf, evOpcr, he⟩ := afEvents_writes i s
  have hs : SoundAt i (afEvents i s) := by rw [he]; exact ⟨⟨h.unit, h.pat, h.pmt⟩, h.ctx⟩
  unfold Machine.claimedFrame
  extract_lets s₁
  split
  · exact hs.contextOp hd
  · exact hs

end

/-! ## A FRAME transaction (40_framer.md R200, R201, R215) -/

/-- The invariant inside a FRAME transaction: room for the four events and the unit that R201 keeps free, and what the
frame has emitted is sound. -/
structure MidFrame (s : State) : Prop where
  legal     : s.params.legal
  contexts  : s.ctx.length = s.params.nCtx
  sound     : ∀ (i : Nat) (c : Context), s.ctx[i]? = some c → c.st.Sound (s.params.bufBytes i)
  events    : s.evq.length + 4 ≤ s.params.evqDepth
  units     : s.uq.length < s.params.uqDepth
  unitBytes : ∀ u ∈ s.uq, u.data.length < 2 ^ 24
  unit      : ∀ u, s.flight.unit = some u → u.data.length < 2 ^ 24
  pat       : s.pat.Sound s.params.patMax
  pmt       : SoundEs s.params.pmtEsMax s.pmt.es
  lastAf    : s.lastAf.extractLsb' 18 14 = 0#14
  ports     : ∀ sel, Turn.op sel ∉ s.turns

theorem lastAfWord_reserved (h : Word) (p : List Byte) : (lastAfWord h p).extractLsb' 18 14 = 0#14 := by
  have hlt : (lastAfWord h p).toNat < 2 ^ 18 := by
    have hlen := (afLen p).isLt
    have hflags := (byteAt p 5).isLt
    have hfp := bool_toNat_lt (decide (0 < (afLen p).toNat))
    rw [lastAfWord_toNat]
    split
    · split <;> omega
    · decide
  apply BitVec.eq_of_toNat_eq
  rw [toNat_field, Nat.div_eq_of_lt hlt]; rfl

theorem MidFrame.atClaim {s : State} (hs : s.Inv) (hopen : ¬ Held s) (fr : List Byte) : MidFrame (atClaim fr s) := by
  obtain ⟨hdr, p, f, hw, hunit⟩ := atClaim_writes fr s
  have hevents : s.evq.length + 4 ≤ s.params.evqDepth := Nat.not_lt.mp fun hfew => hopen (.inr (.inl hfew))
  have hunits : s.uq.length ≠ s.params.uqDepth := fun hfull => hopen (.inr (.inr hfull))
  rw [hw]
  exact {
    legal := hs.legal
    contexts := hs.contexts
    sound := hs.sound
    events := hevents
    units := Nat.lt_of_le_of_ne hs.units hunits
    unitBytes := hs.unitBytes
    unit := fun u hu => by simp [hunit] at hu
    pat := ⟨hs.patStored, hs.patTrunc⟩
    pmt := ⟨hs.pmtStored, hs.pmtPids⟩
    lastAf := lastAfWord_reserved hdr p
    ports := hs.ports }

theorem MidFrame.claimedFrame {s : State} {c : Nat} {ctx : Context} (hs : MidFrame s) (hunit : s.flight.unit = none)
    (hc : s.ctx[c]? = some ctx) (h : Word) : MidFrame (claimedFrame c h s) := by
  have hat : SoundAt c s := ⟨⟨fun u hu => by simp [hunit] at hu, hs.pat, hs.pmt⟩, ctx, hc, hs.sound c ctx hc⟩
  obtain ⟨he, ctx', hc', hsound⟩ := hat.claimedFrame h
  obtain ⟨evAf, evOpcr, ht⟩ := touches_claimedFrame c h s
  exact {
    legal := ht.params ▸ hs.legal
    contexts := by rw [ht.length, ht.params]; exact hs.contexts
    sound := by
      intro j d hd
      by_cases hj : j = c
      · subst hj
        obtain rfl : ctx' = d := Option.some.inj (hc'.symm.trans hd)
        exact hsound
      · rw [ht.params]; exact hs.sound j d ((ht.others j hj).symm.trans hd)
    events := by rw [ht.evq, ht.params]; exact hs.events
    units := by rw [ht.uq, ht.params]; exact hs.units
    unitBytes := by rw [ht.uq]; exact hs.unitBytes
    unit := fun u hu => (he.unit u hu).trans_lt (bufBytes_lt_of_legal (ht.params ▸ hs.legal) c)
    pat := he.pat
    pmt := he.pmt
    lastAf := by rw [ht.lastAf]; exact hs.lastAf
    ports := by rw [ht.turns]; exact hs.ports }

theorem MidFrame.frameBody {s : State} (hs : s.Inv) (hopen : ¬ Held s) (fr : List Byte) : MidFrame (frameBody fr s) := by
  have hclaim := MidFrame.atClaim hs hopen fr
  obtain hbody | ⟨c, ctx, h, hc, hbody⟩ := frameBody_cases fr s
  · rw [hbody]; exact hclaim
  · obtain ⟨hdr, p, f, hw, hunit⟩ := atClaim_writes fr s
    rw [hbody]
    exact hclaim.claimedFrame (by rw [hw]; exact hunit) hc h

theorem MidFrame.finalize {s : State} (hs : MidFrame s) : (finalize s).Inv := by
  obtain ⟨evs, hevs, drops, hf⟩ := finalize_eq s
  have hroom := hs.events
  have hunits := hs.units
  obtain ⟨hpatStored, hpatTrunc⟩ := hs.pat
  obtain ⟨hpmtStored, hpmtPids⟩ := hs.pmt
  rw [hf]
  exact {
    legal := hs.legal
    contexts := hs.contexts
    sound := hs.sound
    events := by simp only [List.length_append]; omega
    units := by
      have : s.flight.unit.toList.length ≤ 1 := by cases s.flight.unit <;> simp
      simp only [List.length_append]; omega
    unitBytes := by
      intro u hu
      obtain hu | hu := List.mem_append.mp hu
      · exact hs.unitBytes u hu
      · exact hs.unit u (Option.mem_toList.mp hu)
    patStored := hpatStored
    patTrunc := hpatTrunc
    pmtStored := hpmtStored
    pmtPids := hpmtPids
    lastAf := hs.lastAf
    idle := rfl
    ports := hs.ports }

/-! ## Every step -/

/-- A sound outcome, in which the next state meets the invariant. -/
def KeepsInv (o : Host.Outcome State Fault Refusal) : Prop := SoundOutcome o ∧ ∀ t, o = .next t → t.Inv

theorem keepsInv_next {t : State} (h : t.Inv) : KeepsInv (.next t) :=
  ⟨.inl ⟨t, rfl⟩, fun _ ht => Host.Outcome.next.inj ht ▸ h⟩

theorem keepsInv_frameLength : KeepsInv (.refused .frameLength) := ⟨.inr rfl, fun _ ht => by cases ht⟩

theorem execFrame_keepsInv {s : State} (hs : s.Inv) (fr : List Byte) : KeepsInv (execFrame fr s) := by
  unfold execFrame
  split
  · exact keepsInv_next hs
  next hheld =>
    split
    · have hopen : ¬ Held s := fun h => hheld ((held_iff s).mpr h)
      exact keepsInv_next (MidFrame.frameBody hs hopen fr).finalize
    · exact keepsInv_frameLength

/-! ### The register port and the reset -/

theorem CtxState.sound_reset (cap : Nat) : CtxState.reset.Sound cap :=
  ⟨Nat.zero_le cap, fun _ => ⟨rfl, rfl, rfl, rfl, rfl, rfl, rfl⟩⟩

theorem resetBlock_inv {s : State} (hs : s.Inv) : (resetBlock s).Inv where
  legal := hs.legal
  contexts := List.length_replicate
  sound := by
    intro i c hc
    rw [List.eq_of_mem_replicate (List.mem_of_getElem? hc)]
    exact CtxState.sound_reset _
  events := Nat.zero_le _
  units := Nat.zero_le _
  unitBytes := fun u hu => by cases hu
  patStored := (PatTable.sound_empty _).1
  patTrunc := (PatTable.sound_empty _).2
  pmtStored := (soundEs_nil s.params.pmtEsMax).1
  pmtPids := (soundEs_nil s.params.pmtEsMax).2
  lastAf := show (0 : Word).extractLsb' 18 14 = 0#14 by decide
  idle := rfl
  ports := hs.ports

theorem wrCtxCfg_inv {s : State} (hs : s.Inv) (i : Nat) (cfg : CtxCfg) :
    State.Inv { s with ctx := s.ctx.modify i (fun _ => ⟨cfg, .reset⟩) } :=
  { hs with
    contexts := by simpa using hs.contexts
    sound := by
      intro j c hc
      rw [List.getElem?_modify] at hc
      split at hc
      · obtain ⟨d, -, rfl⟩ := Option.map_eq_some_iff.mp hc
        exact CtxState.sound_reset _
      · exact hs.sound j c (by simpa using hc) }

theorem popEvent_inv {s : State} (hs : s.Inv) : (popEvent s).Inv :=
  { hs with events := (List.length_tail ▸ Nat.sub_le _ _ : s.evq.tail.length ≤ _).trans hs.events }

theorem popUnit_inv {s : State} (hs : s.Inv) : (popUnit s).Inv :=
  { hs with
    units := (List.length_tail ▸ Nat.sub_le _ _ : s.uq.tail.length ≤ _).trans hs.units
    unitBytes := fun u hu => hs.unitBytes u (List.mem_of_mem_tail hu) }

theorem clearTables_inv {s : State} (hs : s.Inv) : (clearTables s).Inv :=
  { hs with
    patStored := (PatTable.sound_empty _).1
    patTrunc := (PatTable.sound_empty _).2
    pmtStored := (soundEs_nil s.params.pmtEsMax).1
    pmtPids := (soundEs_nil s.params.pmtEsMax).2 }

/-- Every operation of the register port goes on and keeps the invariant. -/
theorem exec_port_inv {i : Instr} {s : State} (hi : isPortOp i = true) (hs : s.Inv) :
    ∃ t, exec i s = .next t ∧ t.Inv := by
  cases i with
  | regRead | wrCtrl | wrIrqEn | wrErrStatus | wrUnitRdptr | wrIgnored => exact ⟨_, rfl, { hs with }⟩
  | wrCtxCfg c d => exact ⟨_, rfl, wrCtxCfg_inv hs c (ctxCfgOf d)⟩
  | cmdSoftReset => exact ⟨_, rfl, resetBlock_inv hs⟩
  | cmdEvPop => exact ⟨_, rfl, popEvent_inv hs⟩
  | cmdClrTables => exact ⟨_, rfl, clearTables_inv hs⟩
  | cmdUnitPop => exact ⟨_, rfl, popUnit_inv hs⟩
  | _ => cases hi

theorem execAll_port_inv {is : List Instr} {s : State} (hi : ∀ i ∈ is, isPortOp i = true) (hs : s.Inv) :
    ∃ t, execAll is s = .next t ∧ t.Inv := by
  induction is generalizing s with
  | nil => exact ⟨s, rfl, hs⟩
  | cons i rest ih =>
    obtain ⟨hhead, hrest⟩ := List.forall_mem_cons.mp hi
    obtain ⟨t, ht, hinv⟩ := exec_port_inv hhead hs
    rw [execAll_cons_of_next ht]
    exact ih hrest hinv

theorem perform_frame_keepsInv {s : State} (hs : s.Inv) (fr : List Byte) : KeepsInv (perform (.frame fr) s) := by
  by_cases hlen : fr.length = 188 ∨ fr.length = 192 ∨ fr.length = 204
  · rw [perform_frame hlen]; exact execFrame_keepsInv hs fr
  · have hd : decode s.params.nCtx (.frame fr) = .error .frameLength := if_neg hlen
    have hp : perform (.frame fr) s = .refused .frameLength := by simp only [perform, hd]
    rw [hp]; exact keepsInv_frameLength

theorem offerFrame_keepsInv {s : State} (hs : s.Inv) : KeepsInv (offerFrame s) := by
  have htaken (more : List (List Byte)) : State.Inv { s with offers := more } := { hs with }
  unfold offerFrame
  split
  · exact keepsInv_next hs
  · split
    · exact keepsInv_next hs
    · exact perform_frame_keepsInv (htaken _) _

/-- Settles O57: by the turn, INPUT's frame through the invariant inside a transaction, the host's word operation by
operation, the reset input by the reset state; a turn that performs a single operation is excluded by the invariant. -/
theorem stepKeepsTheInvariant : Obligations.StepKeepsTheInvariant := by
  intro s hs
  change KeepsInv (step s)
  cases hturns : s.turns with
  | nil => rw [step_of_no_turn hturns]; exact keepsInv_next hs
  | cons turn rest =>
    have hrest : State.Inv { s with turns := rest } :=
      { hs with ports := fun sel hmem => hs.ports sel (hturns ▸ List.mem_cons_of_mem _ hmem) }
    cases turn with
    | input => rw [step_of_input hturns]; exact offerFrame_keepsInv hrest
    | host w =>
      obtain ⟨t, ht, hinv⟩ := execAll_port_inv (fun _ hi => isPortOp_of_mem (n := s.params.nCtx) (w := w) hi) hrest
      rw [step_of_host hturns, ht]; exact keepsInv_next hinv
    | reset level =>
      rw [step_of_reset hturns]
      obtain rfl | rfl := BitVec.eq_zero_or_eq_one level
      · rw [perform_reset_low]; exact keepsInv_next hrest
      · rw [perform_reset_high]; exact keepsInv_next (resetBlock_inv hrest)
    | op sel => exact absurd (hturns ▸ List.mem_cons_self) (hs.ports sel)

end Sys2Proof.Machine
end

section
/-! PROOFS. What the registers of 10_state.md read. -/

namespace Sys2Proof.Machine

open Sys2Proof.Claims

/-- A read of a register's address returns the register's value. -/
theorem reads_of {s : State} {a v : Nat} {r : Reg} (h : regOf s.params (BitVec.ofNat 12 a) = some r)
    (hv : (regValue s r).toNat = v) : Reads s a v :=
  ⟨readReg s (BitVec.ofNat 12 a), rfl, by rw [readReg_of h, hv]⟩

/-- Settles O9: the three words hold the parameters, whose legal values fit their fields, and no step changes
the parameters. -/
theorem identificationIsConstant : Obligations.IdentificationIsConstant := by
  refine ⟨fun s hlegal => ?_, fun s t h => step_params h⟩
  obtain ⟨-, hctx, -, -, hevq, -, huq, -, hpat, -, hpmt⟩ := hlegal
  refine ⟨reads_of (r := .id) rfl idWord_toNat, reads_of (r := .params) rfl ?_, reads_of (r := .params2) rfl ?_⟩
  · refine (paramsWord_toNat s.params).trans ?_
    simp (disch := omega) only [Nat.mod_eq_of_lt]
  · refine (params2Word_toNat s.params).trans ?_
    simp (disch := omega) only [Nat.mod_eq_of_lt]

/-- Settles O10: the counts of a sound state fit their fields and HOLD is `held`; the reset state is held and its queues
are empty. -/
theorem statusReadsQueuesAndHold : Obligations.StatusReadsQueuesAndHold := by
  refine ⟨fun s hs hold hhold => reads_of (r := .status) rfl ?_, fun s t h => ?_⟩
  · obtain ⟨-, -, -, -, hevq, -, huq, -⟩ := hs.legal
    have hevents := hs.events
    have hunits := hs.units
    have hheld : held s = hold := Bool.eq_iff_iff.mpr ((held_iff s).trans hhold.symm)
    refine (statusWord_toNat s).trans ?_
    simp (disch := omega) only [hheld, List.length_pos_iff, Nat.mod_eq_of_lt]
  · cases h
    exact reads_of (r := .status) rfl (statusWord_toNat _)

/-- Settles O12: a read of EV_Wj is word j of the head record, 0 without one. -/
theorem eventWordsReadTheHead : Obligations.EventWordsReadTheHead := by
  intro s
  have hempty (h : s.evq = []) (j : Nat) : (regValue s (.ev j)).toNat = 0 := by simp [regValue, h]
  have hhead {e es} (h : s.evq = e :: es) (j : Nat) : regValue s (.ev j) = e.word j := by simp only [regValue, h]
  refine ⟨fun h => ⟨reads_of (r := .ev 0) rfl (hempty h 0), reads_of (r := .ev 1) rfl (hempty h 1),
    reads_of (r := .ev 2) rfl (hempty h 2), reads_of (r := .ev 3) rfl (hempty h 3)⟩, fun e es h => ?_⟩
  exact ⟨reads_of (r := .ev 0) rfl (by rw [hhead h]; rfl), reads_of (r := .ev 1) rfl (by rw [hhead h]; rfl),
    reads_of (r := .ev 2) rfl (by rw [hhead h]; rfl), reads_of (r := .ev 3) rfl (by rw [hhead h]; rfl)⟩

/-- Settles O14: the word at the pointer is read with 0 past the end, the write keeps the low 24 bits, and UNIT_POP drops
the head and the pointer. -/
theorem unitDataReadsFromThePointer : Obligations.UnitDataReadsFromThePointer := by
  intro s
  refine ⟨?empty, ?head, ?pointer, ?write, ?pop, ?reset⟩
  case empty =>
    intro h
    exact reads_of (r := .unitData) rfl (by simp [regValue, unitDataWord, h])
  case head =>
    intro u us h d
    have hd (j : Nat) : d j = byte u.data (s.unitRdptr.toNat + j) := by
      simp only [d]
      split
      · rfl
      · simp [byte, *]
    refine reads_of (r := .unitData) rfl ((unitDataWord_toNat h).trans ?_)
    simp only [hd, byte, Nat.add_zero, Nat.reducePow]
  case pointer => exact reads_of (r := .unitRdptr) rfl ((toNat_append_mul 0#8 s.unitRdptr).trans (by simp))
  case write =>
    intro d
    have hfield : d.extractLsb' 0 24 = BitVec.ofNat 24 (d.toNat % 2 ^ 24) :=
      eq_ofNat_of_toNat (by simp)
    rw [← hfield]; rfl
  case pop => simp [Answers, exec, execCmdUnitPop, popUnit]
  case reset => intro t h; cases h; rfl

/-- Settles O15: a buffer of a sound state is shorter than the 24-bit field, and after reset every context the block
has is at its reset state. -/
theorem contextStatusReads : Obligations.ContextStatusReads := by
  intro s i c hs hc
  have hi : i < s.params.nCtx := hs.contexts ▸ (List.getElem?_eq_some_iff.mp hc).1
  have hreg : regOf s.params (BitVec.ofNat 12 (0x140 + 4 * i)) = some (.ctxStat i) := regOf_ctxStat hs.legal.2.1 hi
  refine ⟨reads_of hreg ?_, fun t h => ?_⟩
  · have hlen := (hs.sound i c hc).1.trans_lt (bufBytes_lt_of_legal hs.legal i)
    simp only [regValue, ctxAt_of hc]
    rw [ctxStatWord_toNat, Nat.mod_eq_of_lt hlen]
  · cases h
    refine reads_of hreg ?_
    have hreset : (resetBlock s).ctx[i]? = some .reset := by simp [resetBlock, hi]
    simp only [regValue, ctxAt_of hreset]; rfl

/-- Settles O16: each address selects its register, whose word is worth its fields; a sound PMT list is shorter than its
16-bit count. -/
theorem tableRegistersRead : Obligations.TableRegistersRead := by
  intro s hs
  obtain ⟨-, hctx, -, -, -, -, -, -, hpat, -, hpmt⟩ := hs.legal
  have hlen : s.pmt.es.length < 65536 := by have := hs.pmtStored; omega
  have htable {j v : Nat} {r : Reg} (hj : j < 8) (hr : tableReg j = some r) (hv : (regValue s r).toNat = v) :
      Reads s (0x200 + 4 * j) v := reads_of ((regOf_table hctx hj).trans hr) hv
  refine ⟨htable (j := 0) (by decide) rfl (patH0Word_toNat _), htable (j := 1) (by decide) rfl (patH1Word_toNat _),
    htable (j := 2) (by decide) rfl (patCountWord_toNat _), ?patEntry,
    htable (j := 4) (by decide) rfl (pmtH0Word_toNat _), htable (j := 5) (by decide) rfl (pmtH1Word_toNat _),
    htable (j := 6) (by decide) rfl (pmtH2Word_toNat _), htable (j := 7) (by decide) rfl ?pmtCount, ?esA, ?esB⟩
  case pmtCount => exact (pmtEsCountWord_toNat _).trans (by rw [Nat.mod_eq_of_lt hlen])
  case patEntry =>
    intro k hk
    refine reads_of (regOf_patEntry hctx hpat hk) ((patEntryWord_toNat _ k).trans ?_)
    cases s.pat.entries[k]? with
    | none => rfl
    | some e => simp only [Nat.reducePow]
  case esA =>
    intro k hk
    refine reads_of (regOf_pmtEsA hctx hpat hpmt hk) ((pmtEsAWord_toNat _ k).trans ?_)
    cases s.pmt.es[k]? with
    | none => rfl
    | some e => simp only [Nat.reducePow]
  case esB =>
    intro k hk
    refine reads_of (regOf_pmtEsB hctx hpat hpmt hk) ((pmtEsBWord_toNat _ k).trans ?_)
    cases s.pmt.es[k]? with
    | none => rfl
    | some e => rfl

/-! ## Outside the map -/

/-- The word offsets that the map of R36 leaves out. -/
structure OffMap (p : Params) (n : Nat) : Prop where
  low   : n = 13 ∨ n = 14 ∨ n = 15 ∨ 0x01E ≤ n
  cfg   : ¬ (0x040 ≤ n ∧ n < 0x040 + p.nCtx)
  stat  : ¬ (0x050 ≤ n ∧ n < 0x050 + p.nCtx)
  table : 0x080 ≤ n ∧ n < 0x088 → n = 0x083
  pat   : ¬ (0x100 ≤ n ∧ n < 0x100 + p.patMax)
  es    : ¬ (0x200 ≤ n ∧ n < 0x200 + 2 * p.pmtEsMax)

theorem offMap_of_not_mem {p : Params} {n : Nat} (h : n * 4 ∉ mapOffsets p) : OffMap p n := by
  simp only [mapOffsets, List.mem_append, List.mem_map, List.mem_range, List.mem_cons, List.not_mem_nil, or_false,
    not_or, not_exists, not_and] at h
  obtain ⟨⟨⟨⟨⟨⟨hlow, hcfg⟩, hstat⟩, htable⟩, hpat⟩, hesA⟩, hesB⟩ := h
  constructor
  case low => omega
  case cfg => exact fun ⟨hge, hlt⟩ => hcfg (n - 0x040) (by omega) (by omega)
  case stat => exact fun ⟨hge, hlt⟩ => hstat (n - 0x050) (by omega) (by omega)
  case table => omega
  case pat => exact fun ⟨hge, hlt⟩ => hpat (n - 0x100) (by omega) (by omega)
  case es =>
    rintro ⟨hge, hlt⟩
    obtain heven | hodd := Nat.mod_two_eq_zero_or_one n
    · exact hesA ((n - 0x200) / 2) (by omega) (by omega)
    · exact hesB ((n - 0x200) / 2) (by omega) (by omega)

theorem regOf_of_offMap {p : Params} {a : Addr} (h : OffMap p a.word) : regOf p a = none := by
  obtain ⟨hlow, hcfg, hstat, htable, hpat, hes⟩ := h
  unfold regOf
  generalize a.word = n at *
  obtain rfl | rfl | rfl | hge := hlow
  · rfl
  · rfl
  · rfl
  · by_cases ht : 0x080 ≤ n ∧ n < 0x088
    · obtain rfl := htable ht
      simp (disch := omega) only [if_pos, if_neg]; rfl
    · simp (disch := omega) only [if_neg]

theorem decodeWrite_of_offMap {p : Params} {a : Addr} (h : OffMap p a.word) (d : Word) :
    decodeWrite p.nCtx a d = [.wrIgnored a d] := by
  obtain ⟨hlow, hcfg, -, -, -, -⟩ := h
  unfold decodeWrite
  simp (disch := omega) only [if_neg]

/-- Settles O17: such an offset selects no register and no write operation. -/
theorem reservedOffsetsReadZeroAndIgnoreWrites : Obligations.ReservedOffsetsReadZeroAndIgnoreWrites := by
  intro s a _ h
  have hoff : OffMap s.params a.word := offMap_of_not_mem h
  refine ⟨⟨readReg s (BitVec.ofNat 12 a.toNat), rfl, ?_⟩, fun d => ?_⟩
  · rw [BitVec.ofNat_toNat, BitVec.setWidth_eq, readReg, regOf_of_offMap hoff]; rfl
  · rw [perform_write, decodeWrite_of_offMap hoff, execAll_singleton]; rfl

end Sys2Proof.Machine
end

section
/-! PROOFS. The register port as a memory: reads have no side effect, addresses are word addresses, and no access stops
(20_memory.md R103, R107; 45_host_interface.md R400). -/

namespace Sys2Proof.Machine

open Sys2Proof.Claims

/-! ## Reads -/

/-- No register shows the data that the port returned last. -/
theorem regValue_rdata (s : State) (v : Word) (r : Reg) : regValue { s with rdata := v } r = regValue s r := by
  cases r <;> rfl

theorem readReg_rdata (s : State) (v : Word) (a : Addr) : readReg { s with rdata := v } a = readReg s a := by
  simp only [readReg, regValue_rdata]

theorem answers_regRead {s : State} {a : Addr} {v : Word} (h : readReg s a = v) :
    Answers (.regRead a) s { s with rdata := v } := by subst h; rfl

/-- Settles O7: a read returns `readReg`, which depends neither on the data returned last nor on address bits 1:0. -/
theorem readsHaveNoSideEffect : Obligations.ReadsHaveNoSideEffect := fun s a =>
  ⟨readReg s a, answers_regRead rfl, answers_regRead (readReg_rdata s _ a),
    fun _ hb => answers_regRead (readReg_congr s hb)⟩

/-! ## Addresses -/

/-- Writes at two byte addresses of one word select the same operations, but for the address of an ignored write, which
has no effect. -/
theorem perform_write_congr (s : State) {a b : Addr} (h : a.toNat / 4 = b.toNat / 4) (d : Word) :
    perform (.host (hostWrite a d)) s = perform (.host (hostWrite b d)) s := by
  have hword : a.word = b.word := h
  rw [perform_write, perform_write]
  simp only [decodeWrite, decodeCmd, hword]
  repeat' split
  all_goals rfl

theorem perform_read (s : State) (a : Addr) :
    perform (.host (hostRead a)) s = .next { s with rdata := readReg s a } := by
  rw [perform_host, decodeHost_read, execAll_singleton]; rfl

/-! ## No access stops -/

theorem exec_port_goes_on {i : Instr} (hi : isPortOp i = true) (s : State) : ∃ t, exec i s = .next t := by
  cases i with
  | regRead | wrCtrl | wrCtxCfg | wrIrqEn | wrErrStatus | wrUnitRdptr | wrIgnored | cmdSoftReset | cmdEvPop
  | cmdClrTables | cmdUnitPop => exact ⟨_, rfl⟩
  | _ => cases hi

theorem execAll_port_goes_on {is : List Instr} (hi : ∀ i ∈ is, isPortOp i = true) (s : State) :
    ∃ t, execAll is s = .next t := by
  induction is generalizing s with
  | nil => exact ⟨s, rfl⟩
  | cons i rest ih =>
    obtain ⟨hhead, hrest⟩ := List.forall_mem_cons.mp hi
    obtain ⟨t, ht⟩ := exec_port_goes_on hhead s
    rw [execAll_cons_of_next ht]
    exact ih hrest t

/-- A host word selects operations of the register port only, so no register transaction stops. -/
theorem perform_host_goes_on (w : PortWord) (s : State) : ∃ t, perform (.host w) s = .next t := by
  rw [perform_host]
  exact execAll_port_goes_on (fun _ hi => isPortOp_of_mem hi) s

/-- Settles O8: the decoder of writes and the register map see the word of an address only. -/
theorem registerAddressIsAWordAddress : Obligations.RegisterAddressIsAWordAddress := by
  intro s a b d h
  refine ⟨perform_write_congr s h d, ?_, perform_host_goes_on _ s, perform_host_goes_on _ s⟩
  rw [perform_read, perform_read, readReg_congr s h]

end Sys2Proof.Machine
end

section
/-! PROOFS. A FRAME transaction up to its claim, field by field: the packet, its header, its class and the route
(40_framer.md R203 to R213). -/

namespace Sys2Proof.Machine

open Sys2Proof.Claims

/-! ## The header word of a packet (30_encoding.md R140, R141) -/

theorem beq_one_toNat (n : Nat) : (n % 2 == 1).toNat = n % 2 := by
  obtain h | h := Nat.mod_two_eq_zero_or_one n <;> simp [h]

section
variable (p : List Byte)

theorem be32_zero_toNat :
    (be32 p 0).toNat = byte p 0 * 16777216 + byte p 1 * 65536 + byte p 2 * 256 + byte p 3 := be32_toNat p 0

theorem byte_lt (i : Nat) : byte p i < 256 := (p.getD i 0#8).isLt

theorem hdrPid_be32 : (hdrPid (be32 p 0)).toNat = pidOf p := by
  have h2 := byte_lt p 2
  have h3 := byte_lt p 3
  rw [hdrPid, toNat_field, be32_zero_toNat]
  change _ = (byte p 1 * 256 + byte p 2) % 8192
  omega

theorem hdrPusi_be32 : hdrPusi (be32 p 0) = pusiOf p := by
  have h1 := byte_lt p 1
  have h2 := byte_lt p 2
  have h3 := byte_lt p 3
  have hbit : (be32 p 0).toNat / 2 ^ 22 % 2 = byte p 1 / 64 % 2 := by rw [be32_zero_toNat]; omega
  rw [hdrPusi, getLsbD_eq_beq, hbit]

theorem hdrAfc_be32 : hdrAfc (be32 p 0) = bit (hasAf p) ++ bit (hasPayload p) := by
  apply BitVec.eq_of_toNat_eq
  rw [hdrAfc, toNat_field, be32_zero_toNat, toNat_append_mul, bit_toNat, bit_toNat, hasAf, hasPayload, beq_one_toNat,
    beq_one_toNat]
  omega

end

/-! ## The packet and its class -/

theorem packetOf_eq {size : FrameSize} {fr : List Byte} (h : fr.length = size.bytes) : packetOf size fr = packet fr := by
  rw [packetOf, slice, ← h, List.take_length]

theorem length_packet {fr : List Byte} (h : fr.length = 188 ∨ fr.length = 192 ∨ fr.length = 204) :
    (packet fr).length = 188 := by
  rw [List.length_drop]; omega

/-- The classes by the two AFC bits. -/
theorem pktClass_be32 (p : List Byte) (s : State) : pktClass (be32 p 0) s =
    if hasAf p then (if hasPayload p then pktAfPayload s else pktAf s)
    else (if hasPayload p then pktPayload s else pktAfc00 s) := by
  rw [pktClass, hdrAfc_be32]
  cases hasAf p <;> cases hasPayload p <;> rfl

@[simp] theorem pcrExtract_ok (s : State) : (pcrExtract s).flight.ok = s.flight.ok := by
  obtain ⟨af, errs, h⟩ := pcrExtract_writes s
  rw [h]

@[simp] theorem opcrExtract_ok (o : Nat) (s : State) : (opcrExtract o s).flight.ok = s.flight.ok := by
  obtain ⟨af, errs, h⟩ := opcrExtract_writes o s
  rw [h]

/-- The second result of AF_DECODE: the adaptation field fits (41_adaptation.md R241). -/
theorem afDecode_ok (s : State) : (afDecode s).flight.ok = !decide (183 < byte s.flight.p 4) := by
  unfold afDecode
  extract_lets len flags s₁ s₂
  have hlen : byte s.flight.p 4 = len.toNat := rfl
  rw [hlen]
  have hs₂ : s₂.flight.ok = true := by
    unfold s₂
    split
    · exact pcrExtract_ok s₁
    · rfl
  by_cases hbad : 188 < 5 + len.toNat
  · rw [if_pos hbad, decide_eq_true (by omega)]; rfl
  · rw [if_neg hbad, decide_eq_false (by omega)]
    split
    · rfl
    · split
      · rw [opcrExtract_ok, hs₂]; rfl
      · exact hs₂

@[simp] theorem afDecode_p (s : State) : (afDecode s).flight.p = s.flight.p := by
  obtain ⟨af, ok, errs, h⟩ := afDecode_writes s
  rw [h]

/-- What the class of a packet leaves for the reassembly: its payload, and whether there is a reassembly step. -/
theorem pktClass_payload {s : State} (hlen : s.flight.p.length = 188) :
    (pktClass (be32 s.flight.p 0) s).flight.pl = payload s.flight.p ∧
      (pktClass (be32 s.flight.p 0) s).flight.ra = reassembles s.flight.p := by
  have hslice (n : Nat) : slice s.flight.p n 188 = s.flight.p.drop n := by rw [slice, List.take_of_length_le hlen.le]
  rw [pktClass_be32]
  cases haf : hasAf s.flight.p <;> cases hpl : hasPayload s.flight.p
  · simp [pktAfc00, setPayload, payload, reassembles, haf, hpl]
  · simp [pktPayload, setPayload, setAf, payload, reassembles, haf, hpl, hslice]
  · simp [pktAf, setPayload, payload, reassembles, haf, hpl, afDecode_ok]
  · by_cases hfits : 183 < byte s.flight.p 4
    · have hnone : s.flight.p.drop (5 + byte s.flight.p 4) = [] := List.drop_eq_nil_of_le (by omega)
      simp [pktAfPayload, setPayload, payload, reassembles, haf, hpl, afDecode_ok, hfits, hnone]
    · have hlen4 : (afLen s.flight.p).toNat = byte s.flight.p 4 := rfl
      simp [pktAfPayload, setPayload, payload, reassembles, haf, hpl, afDecode_ok, hfits, hslice, hlen4]

/-! ## The state at the claim -/

theorem length_frameSize_of_accepts {s : State} {fr : List Byte} (h : Accepts s fr) :
    fr.length = s.ctrl.frameSize.bytes := by
  obtain ⟨-, -, -, hlen⟩ := h
  rw [hlen]
  cases s.ctrl.frameSize <;> rfl

/-- An accepted frame is performed to its end. -/
theorem execFrame_of_accepts {s : State} {fr : List Byte} (h : Accepts s fr) :
    execFrame fr s = .next (finalize (frameBody fr s)) := by
  have hopen : ¬ held s = true := fun hh => not_held_of_accepts h ((held_iff s).mp hh)
  rw [execFrame, if_neg hopen, if_pos (length_frameSize_of_accepts h)]; rfl

theorem beginFrame_of_accepts {s : State} {fr : List Byte} (h : Accepts s fr) :
    beginFrame fr s = opened s (packet fr) := by
  simp only [beginFrame, packetOf_eq (length_frameSize_of_accepts h), opened]

/-- The transient variables of a packet at its claim; the adaptation field and the causes are AF_DECODE's. -/
def claimFlight (s : State) (p : List Byte) (af : Option AfInfo) (ok : Bool) (errs : BitVec 7) : Flight :=
  { Flight.idle with
    k := s.pktIndex
    errs := errs
    p := p
    h := be32 p 0
    af := af
    ok := ok
    pl := payload p
    ra := reassembles p
    claim := routeOf (hdrPid (be32 p 0)) s.ctx }

/-- The class of a packet whose header is decoded, in the frame in which it is opened. -/
theorem pktClass_opened (s : State) {p : List Byte} (hlen : p.length = 188) : ∃ af ok errs,
    pktClass (be32 p 0) (pktHdr (be32 p 0) (opened s p)) =
      { s with flight := { claimFlight s p af ok errs with claim := none } } := by
  rw [pktHdr_eq]
  generalize ht : { opened s p with flight := { (opened s p).flight with
      h := be32 p 0, errs := (opened s p).flight.errs ||| Cause.maskIf .sync (hdrSync (be32 p 0) != 0x47#8) } } = t
  have hp : t.flight.p = p := by rw [← ht]; rfl
  obtain ⟨hpl, hra⟩ := pktClass_payload (s := t) (by rw [hp]; exact hlen)
  rw [hp] at hpl hra
  obtain ⟨af, ok, errs, pl, ra, hclass⟩ := pktClass_writes (be32 p 0) t
  rw [hclass] at hpl hra ⊢
  obtain rfl : pl = payload p := hpl
  obtain rfl : ra = reassembles p := hra
  exact ⟨af, ok, errs, by rw [← ht]; rfl⟩

theorem atClaim_of_accepts {s : State} {fr : List Byte} (h : Accepts s fr) : ∃ af ok errs, atClaim fr s = { s with
    lastHdr := be32 (packet fr) 0
    lastAf := lastAfWord (be32 (packet fr) 0) (packet fr)
    flight := claimFlight s (packet fr) af ok errs } := by
  have hlen := length_packet (length_of_accepts h)
  rw [atClaim, beginFrame_of_accepts h]
  generalize packet fr = p at hlen ⊢
  obtain ⟨af, ok, errs, hclass⟩ := pktClass_opened s hlen
  exact ⟨af, ok, errs, congrArg (fun t => route (be32 p 0) (latchLast t)) hclass⟩

/-! ## The route (40_framer.md R206) -/

theorem claims_iff {p : List Byte} {c : Context} :
    claims (hdrPid (be32 p 0)) c = true ↔ c.cfg.en = true ∧ c.cfg.pid.toNat = pidOf p := by
  rw [claims, Bool.and_eq_true, beq_iff_eq, ← hdrPid_be32, BitVec.toNat_inj]

theorem routeOf_of_claimedBy {s : State} {p : List Byte} {i : Nat} (h : ClaimedBy s (pidOf p) i) :
    routeOf (hdrPid (be32 p 0)) s.ctx = some i := by
  obtain ⟨⟨c, hc, hclaims⟩, hlower⟩ := h
  obtain ⟨hi, rfl⟩ := List.getElem?_eq_some_iff.mp hc
  refine List.findIdx?_eq_some_iff_getElem.mpr ⟨hi, claims_iff.mpr hclaims, fun j hj hclaim => ?_⟩
  exact hlower j hj _ (List.getElem?_eq_getElem (hj.trans hi)) (claims_iff.mp hclaim)

theorem frameBody_of_claimedBy {s : State} {fr : List Byte} {i : Nat} (h : Accepts s fr)
    (hi : ClaimedBy s (pidOf (packet fr)) i) :
    frameBody fr s = claimedFrame i (be32 (packet fr) 0) (atClaim fr s) := by
  obtain ⟨af, ok, errs, hat⟩ := atClaim_of_accepts h
  have hclaim : (atClaim fr s).flight.claim = some i := by rw [hat]; exact routeOf_of_claimedBy hi
  rw [frameBody_eq, beginFrame_of_accepts h]
  simp only [hclaim, opened]

end Sys2Proof.Machine
end

section
/-! PROOFS. What a frame emits: at most one unit, exactly at a boundary of a unit in progress, with the table decode that
only EMIT runs (42_section.md R276 to R281, 44_pes.md R361). -/

namespace Sys2Proof.Machine

open Sys2Proof.Claims

/-! ## Operations that emit nothing -/

/-- What a frame of packet index k has emitted so far: the sequence number after its unit, the unit, its table event
and the tables. -/
def emission (s : State) : BitVec 32 × BitVec 16 × Option UnitRec × Option EvRec × PatTable × PmtTable :=
  (s.flight.k, s.seq, s.flight.unit, s.flight.evTbl, s.pat, s.pmt)

theorem emission_eq_iff {s t : State} : emission t = emission s ↔ t.flight.k = s.flight.k ∧ t.seq = s.seq ∧
    t.flight.unit = s.flight.unit ∧ t.flight.evTbl = s.flight.evTbl ∧ t.pat = s.pat ∧ t.pmt = s.pmt := by
  simp only [emission, Prod.mk.injEq]

section
variable (i : Nat) (s : State)

@[simp] theorem emission_onCtx (f : CtxState → CtxState) : emission (onCtx i f s) = emission s := rfl

@[simp] theorem emission_raise (c : Cause) : emission (raise c s) = emission s := rfl

@[simp] theorem emission_raiseIf (b : Bool) (c : Cause) : emission (raiseIf b c s) = emission s := by
  cases b <;> rfl

@[simp] theorem emission_appendUnit (b : List Byte) : emission (appendUnit i b s) = emission s := by
  unfold appendUnit
  split <;> simp

@[simp] theorem emission_beginUnit : emission (beginUnit i s) = emission s := rfl

@[simp] theorem emission_flagPtrErr (bad : Bool) : emission (flagPtrErr bad i s) = emission s := by
  cases bad <;> rfl

@[simp] theorem emission_openSection (rest : List Byte) (bad : Bool) :
    emission (openSection i rest bad s) = emission s := by simp [openSection]

@[simp] theorem emission_secCont : emission (secCont i s) = emission s := by
  unfold secCont
  split <;> simp

@[simp] theorem emission_pesCont : emission (pesCont i s) = emission s := by
  unfold pesCont
  split <;> simp

@[simp] theorem emission_truncPes : emission (truncPes i s) = emission s := rfl

@[simp] theorem emission_setPs (ps : Option Nat) : emission (setPs ps s) = emission s := rfl

@[simp] theorem emission_pesPts (pdf : BitVec 2) (ps : Nat) : emission (pesPts i pdf ps s) = emission s := by
  unfold pesPts ptsDecode
  repeat' split
  all_goals simp

@[simp] theorem emission_pesDts (pdf : BitVec 2) (ps : Nat) : emission (pesDts i pdf ps s) = emission s := by
  unfold pesDts dtsDecode
  repeat' split
  all_goals simp

@[simp] theorem emission_pesHdrDecode : emission (pesHdrDecode i s) = emission s := by
  unfold pesHdrDecode
  extract_lets e s₁ pdf ps s₂
  have h₁ : emission s₁ = emission s := emission_onCtx i s _
  have h₂ : emission s₂ = emission s := (emission_onCtx i s₁ _).trans h₁
  repeat' split
  all_goals simp [h₁, h₂]

@[simp] theorem emission_pesOpenHeader : emission (pesOpenHeader i s) = emission s := by
  unfold pesOpenHeader
  extract_lets pl t
  have ht : emission t = emission s := by simp [t]
  split <;> simp [ht]

end

/-! ## Event records (30_encoding.md R170, R171) -/

/-- A record of the given type, context and packet index. -/
def IsRecord (type i : Nat) (k : BitVec 32) (e : EvRec) : Prop :=
  e.w0.toNat % 16 = type ∧ e.w0.toNat / 16 % 16 = i ∧ e.w1 = k

/-- Type and context stand in the low eight bits of word 0. -/
theorem isRecord_of_word {m i : Nat} {x : BitVec m} {ctx type : BitVec 4} {e : EvRec} {k : BitVec 32} (hi : ctx.toNat = i)
    (hw : e.w0.toNat = (x ++ ctx ++ type).toNat) (hk : e.w1 = k) : IsRecord type.toNat i k e := by
  have hctx := ctx.isLt
  have htype := type.isLt
  rw [toNat_append_mul, toNat_append_mul] at hw
  refine ⟨?_, ?_, hk⟩ <;> rw [hw] <;> omega

theorem ctx_toNat {i : Nat} (hi : i < 16) : (BitVec.ofNat 4 i).toNat = i := by
  rw [BitVec.toNat_ofNat]; omega

/-- AF_EVENTS makes an AF and an OPCR record of the claiming context, and changes nothing else. -/
theorem afEvents_records {i : Nat} (hi : i < 16) {s : State} (haf : s.flight.evAf = none) (hopcr : s.flight.evOpcr = none) :
    ∃ evAf evOpcr, afEvents i s = { s with flight := { s.flight with evAf := evAf, evOpcr := evOpcr } } ∧
      (∀ e ∈ evAf, IsRecord 1 i s.flight.k e) ∧ (∀ e ∈ evOpcr, IsRecord 2 i s.flight.k e) := by
  have hnone : ∃ evAf evOpcr, s = { s with flight := { s.flight with evAf := evAf, evOpcr := evOpcr } } ∧
      (∀ e ∈ evAf, IsRecord 1 i s.flight.k e) ∧ (∀ e ∈ evOpcr, IsRecord 2 i s.flight.k e) :=
    ⟨s.flight.evAf, s.flight.evOpcr, rfl, by simp [haf], by simp [hopcr]⟩
  unfold afEvents
  split
  · exact hnone
  next af _ =>
    split
    · exact hnone
    · refine ⟨_, _, rfl, ?_, ?_⟩
      · rintro _ ⟨⟩
        exact isRecord_of_word (type := 1#4) (ctx_toNat hi) rfl rfl
      · intro e he
        split at he
        · cases he
          exact isRecord_of_word (type := 2#4) (ctx_toNat hi) rfl rfl
        · simp [hopcr] at he

theorem errRecord?_isRecord {i : Nat} (hi : i < 16) (f : Flight) : ∀ e ∈ errRecord? i f, IsRecord 15 i f.k e := by
  intro e he
  unfold errRecord? at he
  split at he
  · cases he
  · cases he
    exact isRecord_of_word (type := 15#4) (ctx_toNat hi) rfl rfl

/-- The event of a unit's table, of type 3 for a PAT and 4 for a PMT (R171). -/
def IsTableRecord (i : Nat) (k : BitVec 32) (e : EvRec) : Prop := IsRecord 3 i k e ∨ IsRecord 4 i k e

section
variable {i : Nat} {s : State} {u : UnitRec}

theorem patDecode_record (hu : s.flight.unit = some u) (hi : u.ctx.toNat = i) (hnone : s.flight.evTbl = none) :
    ∀ e ∈ (patDecode s).flight.evTbl, IsRecord 3 i s.flight.k e := by
  intro e he
  simp only [patDecode, hu] at he
  split at he
  · simp [raise, hnone] at he
  · simp only [patCommit, raiseIf_eq, onFlight_flight, Option.mem_some] at he
    subst he
    exact isRecord_of_word (type := 3#4) hi rfl rfl

theorem pmtDecode_record (hu : s.flight.unit = some u) (hi : u.ctx.toNat = i) (hnone : s.flight.evTbl = none) :
    ∀ e ∈ (pmtDecode s).flight.evTbl, IsRecord 4 i s.flight.k e := by
  intro e he
  simp only [pmtDecode, hu] at he
  split at he
  · simp [raise, hnone] at he
  · simp only [pmtCommit, raiseIf_eq, onFlight_flight, Option.mem_some] at he
    subst he
    exact isRecord_of_word (type := 4#4) hi rfl rfl

theorem decodeTable_record (cfg : CtxCfg) (hu : s.flight.unit = some u) (hi : u.ctx.toNat = i)
    (hnone : s.flight.evTbl = none) : ∀ e ∈ (decodeTable cfg s).flight.evTbl, IsTableRecord i s.flight.k e := by
  unfold decodeTable
  split
  · exact fun e he => .inl (patDecode_record hu hi hnone e he)
  · exact fun e he => .inr (pmtDecode_record hu hi hnone e he)
  · simp [hnone]

end

/-! ## The unit a frame emits -/

/-- From `s` to `t` a unit of context i, begun at packet index `start`, is emitted, with at most a table event. -/
structure EmitsUnit (i : Nat) (start : BitVec 32) (s t : State) : Prop where
  seq   : t.seq = s.seq + 1
  unit  : ∃ u, t.flight.unit = some u ∧ u.ctx.toNat = i ∧ u.seq = s.seq ∧ u.endPkt = s.flight.k ∧ u.startPkt = start
  table : ∀ e ∈ t.flight.evTbl, IsTableRecord i s.flight.k e

/-- From `s` to `t` a unit of context i is emitted under the condition `b`, and nothing otherwise. -/
def EmitsIff (b : Prop) (i : Nat) (start : BitVec 32) (s t : State) : Prop :=
  b ∧ EmitsUnit i start s t ∨ ¬ b ∧ emission t = emission s

section
variable {b : Prop} {i : Nat} {start : BitVec 32} {s s' t t' : State}

theorem EmitsUnit.congr (h : EmitsUnit i start s t) (hs : emission s' = emission s) (ht : emission t' = emission t) :
    EmitsUnit i start s' t' := by
  obtain ⟨hk, hseq, -⟩ := emission_eq_iff.mp hs
  obtain ⟨-, hseq', hunit, hev, -⟩ := emission_eq_iff.mp ht
  constructor
  case seq => rw [hseq', hseq]; exact h.seq
  case unit => rw [hunit, hseq, hk]; exact h.unit
  case table => rw [hev, hk]; exact h.table

theorem EmitsIff.congr (h : EmitsIff b i start s t) (hs : emission s' = emission s) (ht : emission t' = emission t) :
    EmitsIff b i start s' t' := by
  obtain ⟨hb, h⟩ | ⟨hb, h⟩ := h
  · exact .inl ⟨hb, h.congr hs ht⟩
  · exact .inr ⟨hb, (ht.trans h).trans hs.symm⟩

/-- A step that emits nothing, under a condition that does not hold. -/
theorem EmitsIff.nothing (hb : ¬ b) (h : emission t = emission s) : EmitsIff b i start s t := .inr ⟨hb, h⟩

theorem EmitsIff.of_iff {b' : Prop} (h : EmitsIff b i start s t) (hb : b ↔ b') : EmitsIff b' i start s t := by
  rwa [propext hb] at h

/-- EMIT (42_section.md R279). -/
theorem emitUnit_emits {c : Context} (hi : i < 16) (hc : s.ctx[i]? = some c) (hnone : s.flight.evTbl = none) :
    EmitsUnit i c.st.startPkt s (emitUnit i s) := by
  rw [emitUnit_eq hc]
  generalize hu : unitOf i c s.seq s.flight.k = u
  generalize hs : { s with seq := s.seq + 1, flight := { s.flight with unit := some u } } = s₁
  have hev := decodeTable_record (s := s₁) c.cfg (u := u) (i := i) (by rw [← hs]) (by rw [← hu]; exact ctx_toNat hi)
    (by rw [← hs]; exact hnone)
  obtain ⟨pat, pmt, errs, ev, hw⟩ := decodeTable_writes c.cfg s₁
  rw [hw] at hev ⊢
  subst hs hu
  exact ⟨rfl, ⟨_, rfl, ctx_toNat hi, rfl, rfl, rfl⟩, hev⟩

end

/-! ## The operations of a context -/

section
variable {i : Nat} {s : State} {c : Context} (hi : i < 16) (hc : s.ctx[i]? = some c) (hnone : s.flight.evTbl = none)
include hi hc hnone

/-- Closing a section keeps the packet index at which it began. -/
theorem closeSection_emits (tail : List Byte) (bad : Bool) :
    EmitsIff (c.st.pending = true) i c.st.startPkt s (closeSection i tail bad s) := by
  unfold closeSection
  rw [ctxAt_of hc]
  split
  next hp =>
    have happ : (appendUnit i tail s).ctx[i]? = some ⟨c.cfg, appended (s.params.bufBytes i) tail c.st⟩ := by
      rw [appendUnit_eq hc]; exact getElem?_set_of hc _
    have hflag : (flagPtrErr bad i (appendUnit i tail s)).ctx[i]? =
        some ⟨c.cfg, closing (s.params.bufBytes i) tail bad c.st⟩ := by
      rw [flagPtrErr_eq happ]; exact getElem?_set_of happ _
    have hsame : emission (flagPtrErr bad i (appendUnit i tail s)) = emission s := by simp
    obtain ⟨-, -, -, hev, -⟩ := emission_eq_iff.mp hsame
    exact .inl ⟨hp, (emitUnit_emits hi hflag (hev.trans hnone)).congr hsame.symm rfl⟩
  next hp => exact .nothing hp rfl

theorem secStart_emits : EmitsIff (c.st.pending = true ∧ s.flight.pl ≠ []) i c.st.startPkt s (secStart i s) := by
  unfold secStart
  extract_lets pl ptr bad n s₁
  by_cases hpl : pl = []
  · rw [if_pos (by simp [hpl])]
    exact .nothing (fun h => h.2 hpl) (emission_raise s _)
  · rw [if_neg (by simpa using hpl)]
    have hsame : emission s₁ = emission s := emission_raiseIf _ bad _
    have hc₁ : s₁.ctx[i]? = some c := by simp only [s₁, raiseIf_eq, onFlight_ctx, hc]
    obtain ⟨-, -, -, hev, -⟩ := emission_eq_iff.mp hsame
    exact ((closeSection_emits hi hc₁ (hev.trans hnone) _ bad).congr hsame.symm (emission_openSection i _ _ bad)).of_iff
      ⟨fun hp => ⟨hp, hpl⟩, And.left⟩

theorem pesStart_emits : EmitsIff (c.st.pending = true) i c.st.startPkt s (pesStart i s) := by
  unfold pesStart
  rw [ctxAt_of hc]
  extract_lets s₁ s₂
  have hs₁ : EmitsIff (c.st.pending = true) i c.st.startPkt s s₁ := by
    unfold s₁
    split
    next hp => exact .inl ⟨hp, emitUnit_emits hi hc hnone⟩
    next hp => exact .nothing hp rfl
  refine hs₁.congr rfl ?_
  split <;> simp [s₂]

theorem contextOp_emits (h : Word) :
    EmitsIff (c.st.pending = true ∧ hdrPusi h = true ∧ (c.cfg.kind = .sec ∧ s.flight.pl ≠ [] ∨ c.cfg.kind = .pes))
      i c.st.startPkt s (contextOp i h s) := by
  unfold contextOp
  rw [ctxAt_of hc]
  cases hkind : c.cfg.kind with
  | none => exact .nothing (by simp) rfl
  | sec =>
    cases hpusi : hdrPusi h with
    | true => exact (secStart_emits hi hc hnone).of_iff (by simp)
    | false => exact .nothing (by simp) (emission_secCont i s)
  | pes =>
    cases hpusi : hdrPusi h with
    | true => exact (pesStart_emits hi hc hnone).of_iff (by simp)
    | false => exact .nothing (by simp) (emission_pesCont i s)

/-- What a claimed frame reports and emits, and what it touches (40_framer.md R200). -/
theorem claimedFrame_emits (h : Word) (haf : s.flight.evAf = none) (hopcr : s.flight.evOpcr = none) :
    ∃ evAf evOpcr, (∀ e ∈ evAf, IsRecord 1 i s.flight.k e) ∧ (∀ e ∈ evOpcr, IsRecord 2 i s.flight.k e) ∧
      Touches i { s with flight := { s.flight with evAf := evAf, evOpcr := evOpcr } } (claimedFrame i h s) ∧
      EmitsIff (s.flight.ra = true ∧ c.st.pending = true ∧ hdrPusi h = true ∧
        (c.cfg.kind = .sec ∧ s.flight.pl ≠ [] ∨ c.cfg.kind = .pes)) i c.st.startPkt s (claimedFrame i h s) := by
  obtain ⟨evAf, evOpcr, he, hrecAf, hrecOpcr⟩ := afEvents_records hi haf hopcr
  refine ⟨evAf, evOpcr, hrecAf, hrecOpcr, ?_⟩
  generalize hs : ({ s with flight := { s.flight with evAf := evAf, evOpcr := evOpcr } } : State) = s₁ at he ⊢
  have hra : s₁.flight.ra = s.flight.ra := by rw [← hs]
  have hsame : emission s = emission s₁ := by rw [← hs]; rfl
  rw [claimedFrame, he]
  cases hr : s.flight.ra with
  | false => rw [if_neg (by simp [hra, hr])]; exact ⟨.refl i s₁, .nothing (by simp) hsame.symm⟩
  | true =>
    rw [if_pos (hra.trans hr)]
    refine ⟨touches_contextOp i h s₁, ?_⟩
    subst hs
    exact ((contextOp_emits (s := { s with flight := { s.flight with evAf := evAf, evOpcr := evOpcr } })
      hi hc hnone h).congr hsame rfl).of_iff (by simp)

end

/-- The unit queue of a frame that emits under the condition `b`. -/
theorem EmitsIff.units {b : Prop} {i : Nat} {start : BitVec 32} {s t : State} (h : EmitsIff b i start s t)
    (hnone : s.flight.unit = none) :
    t.seq = BitVec.ofNat 16 (s.seq.toNat + t.flight.unit.toList.length) ∧
    (∀ u ∈ t.flight.unit.toList, u.ctx.toNat = i ∧ u.seq = s.seq ∧ u.endPkt = s.flight.k ∧ u.startPkt = start) ∧
    (t.flight.unit.toList ≠ [] ↔ b) ∧ (t.flight.unit.toList = [] → t.pat = s.pat ∧ t.pmt = s.pmt) := by
  obtain ⟨hb, h⟩ | ⟨hb, h⟩ := h
  · obtain ⟨u, hu, hfields⟩ := h.unit
    rw [h.seq, hu]
    exact ⟨BitVec.eq_of_toNat_eq (by simp), by simpa using hfields, by simpa using hb, by simp⟩
  · obtain ⟨-, hseq, hunit, -, hpat, hpmt⟩ := emission_eq_iff.mp h
    rw [hseq, hunit, hnone]
    exact ⟨by simp, by simp, by simpa using hb, fun _ => ⟨hpat, hpmt⟩⟩

/-- The table event of such a frame. -/
theorem EmitsIff.table {b : Prop} {i : Nat} {start : BitVec 32} {s t : State} (h : EmitsIff b i start s t)
    (hnone : s.flight.evTbl = none) : ∀ e ∈ t.flight.evTbl, IsTableRecord i s.flight.k e := by
  obtain ⟨-, h⟩ | ⟨-, h⟩ := h
  · exact h.table
  · obtain ⟨-, -, -, hev, -⟩ := emission_eq_iff.mp h
    simp [hev, hnone]

/-! ## The events of a frame (40_framer.md R215, 60_exceptions.md R503) -/

/-- The events that FINALIZE pushes for a frame claimed by context i, in order. -/
def frameEvents (i : Nat) (f : Flight) : List EvRec :=
  f.evAf.toList ++ f.evOpcr.toList ++ f.evTbl.toList ++ (errRecord? i f).toList

theorem finalize_of_claim {s : State} {i : Nat} (h : s.flight.claim = some i) : finalize s = { s with
    uq := s.uq ++ s.flight.unit.toList
    evq := s.evq ++ frameEvents i s.flight
    errStatus := s.errStatus ||| s.flight.errs
    pktIndex := s.flight.k + 1
    flight := .idle } := by
  simp [finalize, finalizeEvents, pushUnit?_eq, pushEvent?_eq, reportErrors_eq, h, latchErrors, frameEvents]

/-- The type of an event record. -/
def EvRec.type (e : EvRec) : Nat := e.w0.toNat % 16

theorem types_sublist {type i : Nat} {k : BitVec 32} {o : Option EvRec} (h : ∀ e ∈ o, IsRecord type i k e) :
    (o.toList.map EvRec.type).Sublist [type] := by
  cases o with
  | none => exact List.nil_sublist _
  | some e => obtain ⟨htype, -⟩ := h e rfl; simp [EvRec.type, htype]

section
variable {i : Nat} {f : Flight} (hi : i < 16) (haf : ∀ e ∈ f.evAf, IsRecord 1 i f.k e)
  (hopcr : ∀ e ∈ f.evOpcr, IsRecord 2 i f.k e) (htbl : ∀ e ∈ f.evTbl, IsTableRecord i f.k e)
include hi haf hopcr htbl

/-- At most one event of each type, in the order AF, OPCR, PAT or PMT, ERR. -/
theorem frameEvents_order : ((frameEvents i f).map EvRec.type).Sublist [1, 2, 3, 15] ∨
    ((frameEvents i f).map EvRec.type).Sublist [1, 2, 4, 15] := by
  have hall {type : Nat} (h : ∀ e ∈ f.evTbl, IsRecord type i f.k e) :
      ((frameEvents i f).map EvRec.type).Sublist [1, 2, type, 15] := by
    simp only [frameEvents, List.map_append]
    exact (((types_sublist haf).append (types_sublist hopcr)).append (types_sublist h)).append
      (types_sublist (errRecord?_isRecord hi f))
  cases ht : f.evTbl with
  | none => exact .inl (hall (by simp [ht]))
  | some e =>
    obtain h | h := htbl e ht
    · exact .inl (hall (by simpa [ht] using h))
    · exact .inr (hall (by simpa [ht] using h))

theorem frameEvents_own : ∀ e ∈ frameEvents i f, e.w1 = f.k ∧ e.w0.toNat / 16 % 16 = i := by
  have hown {type : Nat} {e : EvRec} (h : IsRecord type i f.k e) : e.w1 = f.k ∧ e.w0.toNat / 16 % 16 = i := by
    obtain ⟨-, hctx, hk⟩ := h; exact ⟨hk, hctx⟩
  intro e he
  simp only [frameEvents, List.mem_append, Option.mem_toList] at he
  obtain ((he | he) | he) | he := he
  · exact hown (haf e he)
  · exact hown (hopcr e he)
  · exact (htbl e he).elim hown hown
  · exact hown (errRecord?_isRecord hi f e he)

end

/-! ## A claimed frame -/

/-- A payload byte comes from a payload that fits. -/
theorem reassembles_of_payload {p : List Byte} (hlen : p.length = 188) (h : payload p ≠ []) : reassembles p = true := by
  cases hpl : hasPayload p <;> cases haf : hasAf p
  · simp [payload, hpl] at h
  · simp [payload, hpl] at h
  · simp [reassembles, hpl, haf]
  · have hfits : 5 + byte p 4 < p.length := by simpa [payload, hpl, haf] using h
    simp only [reassembles, hpl, haf, Bool.or_self, Bool.true_and, Bool.not_eq_true', decide_eq_false_iff_not]
    omega

/-- Settles O52: at its claim a frame has emitted nothing; the context's operation touches context i alone and emits at
a boundary; FINALIZE queues the unit and the events. -/
theorem claimedFrameTouchesOnlyItsContext : Obligations.ClaimedFrameTouchesOnlyItsContext := by
  intro s fr i c hs hacc p hclaimed hc
  have hi : i < 16 := by
    have hlt : i < s.params.nCtx := hs.contexts ▸ (List.getElem?_eq_some_iff.mp hc).1
    obtain ⟨-, hctx, -⟩ := hs.legal
    omega
  obtain ⟨af, ok, errs, hat⟩ := atClaim_of_accepts hacc
  have hframe := frameBody_of_claimedBy hacc hclaimed
  rw [hat] at hframe
  obtain ⟨evAf, evOpcr, haf, hopcr, ht, hemits⟩ := claimedFrame_emits (i := i) (c := c)
    (s := { s with lastHdr := _, lastAf := _, flight := claimFlight s (packet fr) af ok errs }) hi hc rfl
    (be32 (packet fr) 0) rfl rfl
  rw [← hframe] at ht hemits
  have hexec : Answers (.frame fr) s (finalize (frameBody fr s)) := execFrame_of_accepts hacc
  generalize frameBody fr s = m at ht hemits hexec
  obtain ⟨hseq, hunits, hboundary, htables⟩ := hemits.units rfl
  have hk : m.flight.k = s.pktIndex := ht.k
  have hrecAf : ∀ e ∈ m.flight.evAf, IsRecord 1 i m.flight.k e := by rw [ht.evAf, hk]; exact haf
  have hrecOpcr : ∀ e ∈ m.flight.evOpcr, IsRecord 2 i m.flight.k e := by rw [ht.evOpcr, hk]; exact hopcr
  have hrecTbl : ∀ e ∈ m.flight.evTbl, IsTableRecord i m.flight.k e := by rw [hk]; exact hemits.table rfl
  have hreaches := reassembles_of_payload (length_packet (length_of_accepts hacc))
  rw [finalize_of_claim (ht.claim.trans (routeOf_of_claimedBy hclaimed))] at hexec
  refine ⟨_, m.flight.unit.toList, frameEvents i m.flight, hexec, ht.params, ht.ctrl, ht.irqEn, ht.dropCount,
    ht.unitRdptr, hs.idle.symm, ht.offers, ht.turns, ht.rdata, ht.others, ht.cfg c hc, congrArg (· ++ _) ht.uq,
    Option.length_toList_le, hseq, hunits, hboundary.trans ?_, htables, congrArg (· ++ _) ht.evq,
    frameEvents_order hi hrecAf hrecOpcr hrecTbl, fun e he => ?_⟩
  · rw [← hdrPusi_be32]
    constructor
    · rintro ⟨hra, hp, hpusi, hkind⟩
      exact ⟨hp, hpusi, hkind.imp_right fun hpes => ⟨hpes, hra⟩⟩
    · rintro ⟨hp, hpusi, ⟨hsec, hpl⟩ | ⟨hpes, hra⟩⟩
      · exact ⟨hreaches hpl, hp, hpusi, .inl ⟨hsec, hpl⟩⟩
      · exact ⟨hra, hp, hpusi, .inr hpes⟩
  · rw [← hk]; exact frameEvents_own hi hrecAf hrecOpcr hrecTbl e he

end Sys2Proof.Machine
end

section
/-! PROOFS. The encoding of the operations: the decoder reads every operation back from its word and gives only
well-formed ones, the host rows of the opcode table, and the unit descriptor (30_encoding.md R160, R175, R180, R181). -/

namespace Sys2Proof.Machine

open Sys2Proof.Claims

/-! ## The operations inside a frame (30_encoding.md R180, R181) -/

theorem decode_op {n : Nat} {sel : Selector} {i : Instr} (h : decodeOp n sel = .ok i) :
    decode n (.op sel) = .ok [i] := by
  simp only [decode, h]; rfl

theorem encode_decodeClass (n : Nat) (h : Word) :
    encode (decodeClass h) = .op (.afcClass h) ∧ (decodeClass h).wellFormed n = true := by
  unfold decodeClass
  split_ifs with h0 h1 h2
  · exact ⟨rfl, by rw [Instr.wellFormed, h0]; rfl⟩
  · exact ⟨rfl, by rw [Instr.wellFormed, h1]; rfl⟩
  · exact ⟨rfl, by rw [Instr.wellFormed, h2]; rfl⟩
  · refine ⟨rfl, beq_iff_eq.mpr ?_⟩
    -- The fourth of the four values of a 2-bit field.
    generalize h.extractLsb' 4 2 = afc at h0 h1 h2 ⊢
    revert afc; decide

theorem encode_decodeClaimed {n c : Nat} (hc : c < n) (kind : Kind) (h : Word) :
    encode (decodeClaimed c kind h) = .op (.claimed c kind h) ∧ (decodeClaimed c kind h).wellFormed n = true := by
  cases kind with
  | none => exact ⟨rfl, decide_eq_true hc⟩
  | sec | pes =>
    simp only [decodeClaimed]
    split
    all_goals exact ⟨rfl, by simp_all [Instr.wellFormed]⟩

/-- A selector selects only an operation that is encoded as this selector and is well-formed. -/
theorem encode_of_decodeOp {n : Nat} {sel : Selector} {i : Instr} (h : decodeOp n sel = .ok i) :
    encode i = .op sel ∧ i.wellFormed n = true := by
  cases sel with
  | header => cases h; exact ⟨rfl, rfl⟩
  | afcClass hd => cases h; exact encode_decodeClass n hd
  | routing found => cases found <;> cases h <;> exact ⟨rfl, rfl⟩
  | claimed c kind hd =>
    simp only [decodeOp] at h
    split at h
    next hc => cases h; exact encode_decodeClaimed hc kind hd
    next => cases h
  | adaptation | pcr | opcr | table | pesPrefix | pesPts | pesDts =>
    -- What the selector is tested for is what the operation's row asks.
    simp only [decodeOp] at h
    split_ifs at h
    all_goals cases h; simp_all [encode, Instr.wellFormed]

/-- A well-formed operation inside a frame is selected by the selector it is encoded as. -/
theorem decodeOp_of_encode {n : Nat} {sel : Selector} {i : Instr} (he : encode i = .op sel)
    (hi : i.wellFormed n = true) : decodeOp n sel = .ok i := by
  cases i
  case pktHdr | route | drop => cases he; rfl
  case pktAfc00 | pktPayload | pktAf | pktAfPayload => cases he; simp_all [Instr.wellFormed, decodeOp, decodeClass]
  case ctxNone | secCont | secStart | pesCont | pesStart =>
    cases he; simp_all [Instr.wellFormed, decodeOp, decodeClaimed]
  case afDecode | pcrExtract | opcrExtract | patDecode | pmtDecode | pesHdrDecode | ptsDecode | dtsDecode =>
    cases he; simp_all [Instr.wellFormed, decodeOp]
  -- The others are encoded as a frame, a host word or the reset level.
  all_goals cases he

/-! ## Register writes (30_encoding.md R181, 45_host_interface.md R415, R420) -/

theorem writeHasRow_eq_false_iff {n : Nat} {a : Addr} {d : Word} : writeHasRow n a d = false ↔
    a.word ≠ 0x001 ∧ a.word ≠ 0x004 ∧ a.word ≠ 0x006 ∧ a.word ≠ 0x01C ∧ (a.word = 0x002 → d.extractLsb' 0 4 = 0#4) ∧
      ¬ (0x040 ≤ a.word ∧ a.word < 0x040 + n) := by
  simp [writeHasRow, and_assoc]

theorem getLsbD_command (d : Word) {j : Nat} (hj : j < 4) : d.getLsbD j = (d.extractLsb' 0 4).getLsbD j := by
  simp [hj]

theorem no_command_iff {d : Word} : d.extractLsb' 0 4 = 0#4 ↔
    d.getLsbD 0 = false ∧ d.getLsbD 1 = false ∧ d.getLsbD 2 = false ∧ d.getLsbD 3 = false := by
  rw [getLsbD_command d (j := 0) (by decide), getLsbD_command d (j := 1) (by decide),
    getLsbD_command d (j := 2) (by decide), getLsbD_command d (j := 3) (by decide)]
  generalize d.extractLsb' 0 4 = c
  revert c; decide

/-- A register write that no other row matches is the ignored one. -/
theorem decodeWrite_of_no_row {n : Nat} {a : Addr} {d : Word} (h : writeHasRow n a d = false) :
    decodeWrite n a d = [.wrIgnored a d] := by
  obtain ⟨hctrl, hirq, herr, hptr, hcmd, hcfg⟩ := writeHasRow_eq_false_iff.mp h
  simp only [decodeWrite, decodeCmd, hctrl, hirq, herr, hptr, hcfg, if_false]
  split
  next ha => rw [(no_command_iff.mp (hcmd ha)).1, if_neg Bool.false_ne_true, if_pos (hcmd ha)]
  next => rfl

theorem decodeWrite_ctxCfg {n i : Nat} {a : Addr} (ha : a.word = 0x040 + i) (hi : i < n) (d : Word) :
    decodeWrite n a d = [.wrCtxCfg i d] := by
  rw [decodeWrite, ha]
  simp (disch := omega) only [if_pos, if_neg, Nat.add_sub_cancel_left]

/-- Bit 0 of a CMD write stands alone, a write of no command is ignored, the others combine. -/
theorem mem_decodeCmd_iff {a : Addr} {d : Word} {i : Instr} : i ∈ decodeCmd a d ↔
    (d.extractLsb' 0 4 = 0#4 ∧ i = .wrIgnored a d) ∨ (d.getLsbD 0 = true ∧ i = .cmdSoftReset) ∨
    (d.getLsbD 0 = false ∧ ((d.getLsbD 1 = true ∧ i = .cmdClrTables) ∨ (d.getLsbD 2 = true ∧ i = .cmdEvPop) ∨
      (d.getLsbD 3 = true ∧ i = .cmdUnitPop))) := by
  by_cases hnone : d.extractLsb' 0 4 = 0#4
  · obtain ⟨hreset, hclr, hev, hunit⟩ := no_command_iff.mp hnone
    simp only [decodeCmd, hnone, hreset, hclr, hev, hunit]; simp
  · cases hreset : d.getLsbD 0 <;> simp only [decodeCmd, hreset, hnone] <;> simp

/-- What a register write selects: the register the address falls in and, for a command, the bits of the data. -/
theorem mem_decodeWrite_iff {n : Nat} {a : Addr} {d : Word} {i : Instr} : i ∈ decodeWrite n a d ↔
    ((0x040 ≤ a.word ∧ a.word < 0x040 + n) ∧ i = .wrCtxCfg (a.word - 0x040) d) ∨
    (writeHasRow n a d = false ∧ i = .wrIgnored a d) ∨
    (a.word = 0x001 ∧ i = .wrCtrl d) ∨ (a.word = 0x004 ∧ i = .wrIrqEn d) ∨ (a.word = 0x006 ∧ i = .wrErrStatus d) ∨
    (a.word = 0x01C ∧ i = .wrUnitRdptr d) ∨
    (a.word = 0x002 ∧ ((d.getLsbD 0 = true ∧ i = .cmdSoftReset) ∨
      (d.getLsbD 0 = false ∧ ((d.getLsbD 1 = true ∧ i = .cmdClrTables) ∨ (d.getLsbD 2 = true ∧ i = .cmdEvPop) ∨
        (d.getLsbD 3 = true ∧ i = .cmdUnitPop))))) := by
  rw [writeHasRow_eq_false_iff]
  unfold decodeWrite
  split_ifs with hctrl hcmd hirq herr hptr hcfg
  · simp [hctrl]
  · simp [hcmd, mem_decodeCmd_iff]
  · simp [hirq]
  · simp [herr]
  · simp [hptr]
  · simp [hctrl, hcmd, hirq, herr, hptr, hcfg]
  · simp [hctrl, hcmd, hirq, herr, hptr, hcfg]

theorem mem_decodeHost_iff {n : Nat} {w : PortWord} {i : Instr} : i ∈ decodeHost n w ↔
    (w.getLsbD 44 = false ∧ i = .regRead (w.extractLsb' 32 12)) ∨
    (w.getLsbD 44 = true ∧ i ∈ decodeWrite n (w.extractLsb' 32 12) (w.extractLsb' 0 32)) := by
  cases hop : w.getLsbD 44 <;> simp only [decodeHost, hop] <;> simp

/-! ## Decoder and encoder -/

/-- Settles O1: an operation inside a frame is read back from its selector, an operation of the register port from its
host word, FRAME and RESET from the frame and the level. -/
theorem decodeEncodeAgree : Obligations.DecodeEncodeAgree := by
  intro n i hn hi
  have hwrite {a : Addr} {d : Word} (h : decodeWrite n a d = [i]) : decode n (.host (hostWrite a d)) = .ok [i] :=
    congrArg Except.ok ((decodeHost_write n a d).trans h)
  cases i
  case frame fr => exact if_pos (by simpa [Instr.wellFormed, or_assoc] using hi)
  case reset => rfl
  case regRead a => exact congrArg Except.ok (decodeHost_read n a)
  case wrCtxCfg c d =>
    have hc : c < n := of_decide_eq_true hi
    exact hwrite (decodeWrite_ctxCfg (by rw [word_ofNat (by omega)]; omega) hc d)
  case wrIgnored a d => exact hwrite (decodeWrite_of_no_row (Bool.not_eq_true' _ ▸ hi))
  case wrCtrl | wrIrqEn | wrErrStatus | wrUnitRdptr | cmdSoftReset | cmdEvPop | cmdClrTables | cmdUnitPop =>
    exact hwrite rfl
  all_goals exact decode_op (decodeOp_of_encode rfl hi)

/-- Of the operations of the register port two have conditions on their operands, the index of WR_CTX_CFG and the
address of WR_IGNORED; they are what selects these operations. -/
theorem wellFormed_of_mem_decodeHost {n : Nat} {w : PortWord} {i : Instr} (h : i ∈ decodeHost n w) :
    i.wellFormed n = true := by
  obtain ⟨-, rfl⟩ | ⟨-, h⟩ := mem_decodeHost_iff.mp h
  · rfl
  obtain ⟨hrange, rfl⟩ | ⟨hno, rfl⟩ | ⟨-, rfl⟩ | ⟨-, rfl⟩ | ⟨-, rfl⟩ | ⟨-, rfl⟩ |
    ⟨-, ⟨-, rfl⟩ | ⟨-, ⟨-, rfl⟩ | ⟨-, rfl⟩ | ⟨-, rfl⟩⟩⟩ := mem_decodeWrite_iff.mp h
  · exact decide_eq_true (by omega)
  · rw [Instr.wellFormed, hno]; rfl
  all_goals rfl

/-- Settles O2: each kind of word selects only well-formed operations. -/
theorem decodedOperationsAreWellFormed : Obligations.DecodedOperationsAreWellFormed := by
  intro n e is h i hi
  cases e with
  | frame fr =>
    change decodeFrame fr = .ok is at h
    unfold decodeFrame at h
    split at h
    next hlen => cases h; cases List.mem_singleton.mp hi; simpa [Instr.wellFormed, or_assoc] using hlen
    next => cases h
  | host w => cases h; exact wellFormed_of_mem_decodeHost hi
  | reset level => obtain ⟨-, rfl, -⟩ := mem_reset_of_decode h hi; rfl
  | op sel =>
    obtain ⟨j, hj, rfl⟩ := decodeOp_of_decode h
    cases List.mem_singleton.mp hi
    exact (encode_of_decodeOp hj).2

/-- Settles O4: each of the nine words is evaluated. -/
theorem specWordsDecode : Obligations.SpecWordsDecode := by
  refine ⟨?_, ?_, ?_, ?_, ?_, ?_, ?_, ?_, ?_⟩
  all_goals decide

/-! ## The host rows of the opcode table (30_encoding.md R181)

Each (word & mask) = match as a condition on the operation bit, the register that the address falls in, and the command
bits. -/

/-- The register-map word of a host word's address. -/
theorem portRegister_toNat (w : PortWord) : Addr.word (w.extractLsb' 32 12) = w.toNat / 2 ^ 34 % 2 ^ 10 := by
  simp only [Addr.word, toNat_field]
  omega

/-- One masked comparison is one for each part of the word. -/
theorem and_append_eq_iff {m n : Nat} {x : BitVec (m + n)} {p u : BitVec m} {q v : BitVec n} :
    x &&& (p ++ q) = u ++ v ↔ x.extractLsb' n m &&& p = u ∧ x.extractLsb' 0 n &&& q = v := by
  have hx : x = x.extractLsb' n m ++ x.extractLsb' 0 n := by
    ext i hi
    simp
  constructor
  · intro h
    rw [hx, BitVec.and_append] at h
    have hhigh := congrArg (BitVec.extractLsb' n m) h
    have hlow := congrArg (BitVec.extractLsb' 0 n) h
    rw [BitVec.extractLsb'_append_eq_left, BitVec.extractLsb'_append_eq_left] at hhigh
    rw [BitVec.extractLsb'_append_eq_right, BitVec.extractLsb'_append_eq_right] at hlow
    exact ⟨hhigh, hlow⟩
  · rintro ⟨rfl, rfl⟩
    rw [← BitVec.and_append, ← hx]

theorem read_row_iff {w : PortWord} : w &&& 0x100000000000#45 = 0#45 ↔ w.getLsbD 44 = false := by
  rw [show 0x100000000000#45 = BitVec.twoPow 45 44 by decide, BitVec.and_twoPow]
  cases w.getLsbD 44 <;> decide

theorem write_row_iff {w : PortWord} : w &&& 0x100000000000#45 = 0x100000000000#45 ↔ w.getLsbD 44 = true := by
  rw [show 0x100000000000#45 = BitVec.twoPow 45 44 by decide, BitVec.and_twoPow]
  cases w.getLsbD 44 <;> decide

section
variable {w : PortWord}

/-- A row that tests the operation bit, the register, and the command bits under the mask `k`. -/
theorem masked_row_iff {mask val : PortWord} (c : BitVec 10) (k t : BitVec 4) (hm : mask = 0x7FF#11 ++ (0#30 ++ k))
    (hv : val = (1#1 ++ c) ++ (0#30 ++ t)) : w &&& mask = val ↔
      w.getLsbD 44 = true ∧ Addr.word (w.extractLsb' 32 12) = c.toNat ∧
        (w.extractLsb' 0 32).extractLsb' 0 4 &&& k = t := by
  have hw := w.isLt
  have hc := c.isLt
  have hhead : w.extractLsb' 34 11 = 1#1 ++ c ↔
      w.getLsbD 44 = true ∧ Addr.word (w.extractLsb' 32 12) = c.toNat := by
    rw [← BitVec.toNat_inj, toNat_field, toNat_append_mul, portRegister_toNat, getLsbD_eq_beq, beq_iff_eq,
      BitVec.toNat_ofNat]
    omega
  have htail : w.extractLsb' 0 34 &&& (0#30 ++ k) = 0#30 ++ t ↔ (w.extractLsb' 0 32).extractLsb' 0 4 &&& k = t := by
    rw [and_append_eq_iff (m := 30) (n := 4), BitVec.and_zero,
      BitVec.extractLsb'_extractLsb'_of_le (by decide : 0 + 4 ≤ 34), BitVec.extractLsb'_extractLsb'_of_le (by decide)]
    exact and_iff_right rfl
  subst hm hv
  rw [← and_assoc, ← hhead, ← htail, show 0x7FF#11 = BitVec.allOnes 11 by decide]
  refine Iff.trans (and_append_eq_iff (m := 11) (n := 34)) ?_
  rw [BitVec.and_allOnes]

/-- A row that tests the operation bit and the register. -/
theorem register_row_iff {val : PortWord} (c : BitVec 10) (hv : val = (1#1 ++ c) ++ 0#34) :
    w &&& 0x1FFC00000000#45 = val ↔ w.getLsbD 44 = true ∧ Addr.word (w.extractLsb' 32 12) = c.toNat :=
  (masked_row_iff c 0#4 0#4 rfl (by rw [hv]; rfl)).trans
    (by rw [BitVec.and_zero]; exact and_congr_right' (and_iff_left rfl))

theorem wrCtrl_row_iff : w &&& 0x1FFC00000000#45 = 0x100400000000#45 ↔
    w.getLsbD 44 = true ∧ Addr.word (w.extractLsb' 32 12) = 0x001 := register_row_iff 0x001#10 rfl

theorem wrIrqEn_row_iff : w &&& 0x1FFC00000000#45 = 0x101000000000#45 ↔
    w.getLsbD 44 = true ∧ Addr.word (w.extractLsb' 32 12) = 0x004 := register_row_iff 0x004#10 rfl

theorem wrErrStatus_row_iff : w &&& 0x1FFC00000000#45 = 0x101800000000#45 ↔
    w.getLsbD 44 = true ∧ Addr.word (w.extractLsb' 32 12) = 0x006 := register_row_iff 0x006#10 rfl

theorem wrUnitRdptr_row_iff : w &&& 0x1FFC00000000#45 = 0x107000000000#45 ↔
    w.getLsbD 44 = true ∧ Addr.word (w.extractLsb' 32 12) = 0x01C := register_row_iff 0x01C#10 rfl

/-- WR_CTX_CFG's mask leaves out the low three bits of the register, the index of one of eight contexts. -/
theorem wrCtxCfg_row_iff : w &&& 0x1FE000000000#45 = 0x110000000000#45 ↔ w.getLsbD 44 = true ∧
    0x040 ≤ Addr.word (w.extractLsb' 32 12) ∧ Addr.word (w.extractLsb' 32 12) < 0x040 + 8 := by
  have hw := w.isLt
  refine Iff.trans (and_append_eq_iff (m := 8) (n := 37) (p := .allOnes 8) (u := 0x88#8) (q := 0#37) (v := 0#37)) ?_
  rw [BitVec.and_allOnes, BitVec.and_zero, ← BitVec.toNat_inj, toNat_field, portRegister_toNat, getLsbD_eq_beq,
    beq_iff_eq, BitVec.toNat_ofNat]
  simp only [and_true]
  omega

theorem cmdSoftReset_row_iff : w &&& 0x1FFC00000001#45 = 0x100800000001#45 ↔
    w.getLsbD 44 = true ∧ Addr.word (w.extractLsb' 32 12) = 0x002 ∧ (w.extractLsb' 0 32).getLsbD 0 = true := by
  have hbit (c : BitVec 4) : c &&& 1#4 = 1#4 ↔ c.getLsbD 0 = true := by revert c; decide
  refine (masked_row_iff 0x002#10 1#4 1#4 rfl rfl).trans ?_
  rw [hbit, ← getLsbD_command _ (by decide)]; rfl

/-- A row of CMD for a command that acts only where bit 0, the soft reset, is clear. -/
theorem command_row_iff {mask val : PortWord} (j : Fin 4) (hj : j ≠ 0)
    (hm : mask = 0x7FF#11 ++ (0#30 ++ (1#4 ||| BitVec.twoPow 4 j)))
    (hv : val = 0x402#11 ++ (0#30 ++ BitVec.twoPow 4 j)) : w &&& mask = val ↔
      w.getLsbD 44 = true ∧ Addr.word (w.extractLsb' 32 12) = 0x002 ∧
        (w.extractLsb' 0 32).getLsbD 0 = false ∧ (w.extractLsb' 0 32).getLsbD j = true := by
  have hbits (c : BitVec 4) : c &&& (1#4 ||| BitVec.twoPow 4 j) = BitVec.twoPow 4 j ↔
      c.getLsbD 0 = false ∧ c.getLsbD j = true := by
    clear hm hv
    revert j c; decide
  rw [masked_row_iff 0x002#10 _ _ hm hv, hbits, ← getLsbD_command _ (by decide), ← getLsbD_command _ j.isLt]; rfl

theorem cmdClrTables_row_iff : w &&& 0x1FFC00000003#45 = 0x100800000002#45 ↔
    w.getLsbD 44 = true ∧ Addr.word (w.extractLsb' 32 12) = 0x002 ∧
      (w.extractLsb' 0 32).getLsbD 0 = false ∧ (w.extractLsb' 0 32).getLsbD 1 = true :=
  command_row_iff 1 (by decide) rfl rfl

theorem cmdEvPop_row_iff : w &&& 0x1FFC00000005#45 = 0x100800000004#45 ↔
    w.getLsbD 44 = true ∧ Addr.word (w.extractLsb' 32 12) = 0x002 ∧
      (w.extractLsb' 0 32).getLsbD 0 = false ∧ (w.extractLsb' 0 32).getLsbD 2 = true :=
  command_row_iff 2 (by decide) rfl rfl

theorem cmdUnitPop_row_iff : w &&& 0x1FFC00000009#45 = 0x100800000008#45 ↔
    w.getLsbD 44 = true ∧ Addr.word (w.extractLsb' 32 12) = 0x002 ∧
      (w.extractLsb' 0 32).getLsbD 0 = false ∧ (w.extractLsb' 0 32).getLsbD 3 = true :=
  command_row_iff 3 (by decide) rfl rfl

end

/-- Settles O3: a row tests of a word what the decoder tests, the operation bit, the register and the command bits. -/
theorem hostWordSelectsItsTableRow : Obligations.HostWordSelectsItsTableRow := by
  intro w
  have hdata : (w.extractLsb' 0 32).toNat = w.toNat % 2 ^ 32 := by simp
  simp only [read_row_iff, write_row_iff, wrCtrl_row_iff, wrIrqEn_row_iff, wrErrStatus_row_iff, wrUnitRdptr_row_iff,
    wrCtxCfg_row_iff, cmdSoftReset_row_iff, cmdClrTables_row_iff, cmdEvPop_row_iff, cmdUnitPop_row_iff,
    mem_decodeHost_iff, mem_decodeWrite_iff]
  refine ⟨?read, ?ctrl, ?ctxCfg, ?irqEn, ?errStatus, ?unitRdptr, ?softReset, ?evPop, ?clrTables, ?unitPop, ?ignored,
    ?ctxOperands, ?dataOperand, ?readOperand⟩
  case ignored =>
    rw [writeHasRow_eq_false_iff, no_command_iff]
    cases w.getLsbD 44
    · simp
    -- A write: what is left speaks of its register and its command bits only.
    · simp only [true_and]
      grind
  case ctxOperands =>
    intro i d h
    simp only [reduceCtorEq, and_false, or_false, false_or, Instr.wrCtxCfg.injEq] at h
    obtain ⟨-, hrange, rfl, rfl⟩ := h
    rw [portRegister_toNat] at hrange ⊢
    exact ⟨by omega, hdata⟩
  case dataOperand =>
    intro d h
    simp only [reduceCtorEq, and_false, or_false, false_or, Instr.wrCtrl.injEq, Instr.wrIrqEn.injEq,
      Instr.wrErrStatus.injEq, Instr.wrUnitRdptr.injEq] at h
    obtain ⟨-, -, rfl⟩ | ⟨-, -, rfl⟩ | ⟨-, -, rfl⟩ | ⟨-, -, rfl⟩ := h
    all_goals exact hdata
  case readOperand =>
    intro a h
    simp only [reduceCtorEq, and_false, or_false, Instr.regRead.injEq] at h
    rw [h.2, toNat_field]
  all_goals simp

/-! ## The unit descriptor (30_encoding.md R175) -/

theorem regOf_unitD (p : Params) {j : Nat} (hj : j < 8) :
    regOf p (BitVec.ofNat 12 (0x050 + 4 * j)) = some (.unitD j) := by
  rw [regOf, word_ofNat (by omega), show (0x050 + 4 * j) / 4 = 20 + j by omega]
  simp (disch := omega) only [if_pos, if_neg, Nat.add_sub_cancel_left]

/-- Settles O13: UNIT_Dj reads word j of the head unit's descriptor, 0 without one; each word is worth its fields. -/
theorem unitDescriptorLayout : Obligations.UnitDescriptorLayout := by
  intro s
  refine ⟨fun h j hj => reads_of (regOf_unitD s.params hj) (by simp [regValue, h]), fun u us h hlen => ?_⟩
  have hword {j v : Nat} (hj : j < 8) (hv : (udescWord u j).toNat = v) : Reads s (0x050 + 4 * j) v :=
    reads_of (regOf_unitD s.params hj) (by simpa only [regValue, h] using hv)
  exact ⟨hword (j := 0) (by decide) (udescWord_zero u),
    hword (j := 1) (by decide) ((udescWord_one u).trans (Nat.mod_eq_of_lt hlen)),
    hword (j := 2) (by decide) rfl, hword (j := 3) (by decide) rfl, hword (j := 4) (by decide) (udescWord_four u),
    hword (j := 5) (by decide) (udescWord_five u), hword (j := 6) (by decide) (udescWord_six u),
    hword (j := 7) (by decide) (udescWord_seven u)⟩

end Sys2Proof.Machine
end

section
/-! PROOFS. The operations of a FRAME transaction up to the route, each by itself: the input port, PKT_HDR, ROUTE, DROP,
the classes and AF_DECODE (40_framer.md R201 to R214, 41_adaptation.md R240 to R244). -/

namespace Sys2Proof.Machine

open Sys2Proof.Claims

/-! ## The input port (40_framer.md R201, R202) -/

theorem execFrame_of_held {s : State} (h : Held s) (fr : List Byte) : execFrame fr s = .next s :=
  if_pos ((held_iff s).mpr h)

theorem offerFrame_of_held {s : State} (h : Held s) : offerFrame s = .next s := by
  unfold offerFrame
  split
  · rfl
  · exact if_pos ((held_iff s).mpr h)

/-- A port that is not held takes the frames of the configured length. -/
theorem accepts_of_not_held {s : State} {fr : List Byte} (h : ¬ Held s) (hlen : fr.length = s.ctrl.frameSize.bytes) :
    Accepts s fr := by
  simp only [Held, not_or] at h
  obtain ⟨hen, hslots, hunits⟩ := h
  refine ⟨by simpa using hen, by omega, hunits, hlen.trans ?_⟩
  cases s.ctrl.frameSize <;> rfl

/-- Settles O6: the branches of FRAME and of INPUT's offer by the hold and the length. -/
theorem heldFrameWaitsAndWrongLengthIsRefused : Obligations.HeldFrameWaitsAndWrongLengthIsRefused := by
  refine ⟨?heldFrame, ?heldInput, ?wrongLength, ?accepted⟩
  case heldFrame => exact fun s fr h => execFrame_of_held h fr
  case heldInput =>
    intro s rest ht h
    exact (step_of_input ht).trans (offerFrame_of_held (s := { s with turns := rest }) h)
  case wrongLength =>
    intro s fr hopen hacc
    have hlen : ¬ fr.length = s.ctrl.frameSize.bytes := fun hlen => hacc (accepts_of_not_held hopen hlen)
    change execFrame fr s = _
    rw [execFrame, if_neg (fun hh => hopen ((held_iff s).mp hh)), if_neg hlen]
  case accepted => exact fun s fr h => ⟨not_held_of_accepts h, _, execFrame_of_accepts h⟩

/-! ## The header (40_framer.md R205, 30_encoding.md R140) -/

theorem Cause.maskIf_eq_mask (c : Cause) (b : Bool) : c.maskIf b = mask b c.code := by
  cases b
  · rfl
  · cases c <;> rfl

theorem mask_false (code : Nat) : mask false code = 0#7 := rfl

theorem mask_or (a b : Bool) (code : Nat) : mask a code ||| mask b code = mask (a || b) code := by
  cases a <;> cases b <;> simp [mask]

theorem hdrSync_toNat (h : Word) : (hdrSync h).toNat = h.toNat / 2 ^ 24 := by
  have hlt := h.isLt
  rw [hdrSync, toNat_field]; omega

theorem hdrSync_bad (h : Word) : (hdrSync h != 0x47#8) = decide (h.toNat / 2 ^ 24 ≠ 0x47) := by
  rw [← hdrSync_toNat, Bool.eq_iff_iff, bne_iff_ne, decide_eq_true_iff, ne_eq, ← BitVec.toNat_inj]; rfl

/-- Settles O28: the sync byte is the top byte of the header word, and the fields are its bits. -/
theorem headerDecodeReportsSync : Obligations.HeaderDecodeReportsSync := by
  intro s h
  refine ⟨?_, toNat_field h 8 13, toNat_field h 4 2, getLsbD_eq_beq h 22⟩
  change Host.Outcome.next (pktHdr h s) = _
  rw [pktHdr_eq, hdrSync_bad, Cause.maskIf_eq_mask]; rfl

/-! ## The route (40_framer.md R206, R207, R214) -/

theorem claims_eq_true_iff {pid : Pid} {c : Context} :
    claims pid c = true ↔ c.cfg.en = true ∧ c.cfg.pid.toNat = pid.toNat := by
  rw [claims, Bool.and_eq_true, beq_iff_eq, BitVec.toNat_inj]

theorem routeOf_eq_some {s : State} {pid : Pid} {i : Nat} (h : ClaimedBy s pid.toNat i) : routeOf pid s.ctx = some i := by
  obtain ⟨⟨c, hc, hclaims⟩, hlower⟩ := h
  obtain ⟨hi, rfl⟩ := List.getElem?_eq_some_iff.mp hc
  refine List.findIdx?_eq_some_iff_getElem.mpr ⟨hi, claims_eq_true_iff.mpr hclaims, fun j hj hclaim => ?_⟩
  exact hlower j hj _ (List.getElem?_eq_getElem (hj.trans hi)) (claims_eq_true_iff.mp hclaim)

theorem routeOf_eq_none {s : State} {pid : Pid}
    (h : ∀ (i : Nat) (c : Context), s.ctx[i]? = some c → ¬ (c.cfg.en = true ∧ c.cfg.pid.toNat = pid.toNat)) :
    routeOf pid s.ctx = none := by
  refine List.findIdx?_eq_none_iff.mpr fun c hc => ?_
  obtain ⟨i, hi⟩ := List.mem_iff_getElem?.mp hc
  exact Bool.eq_false_iff.mpr fun hclaim => h i c hi (claims_eq_true_iff.mp hclaim)

/-- Settles O34: the search of the contexts in order, for the PID of the header word. -/
theorem routeFindsTheLowestContext : Obligations.RouteFindsTheLowestContext := by
  intro s h
  have hanswer {c : Option Nat} (hc : routeOf (hdrPid h) s.ctx = c) :
      Answers (.route h) s { s with flight := { s.flight with claim := c } } := by subst hc; rfl
  have hpid : (hdrPid h).toNat = h.toNat / 256 % 8192 := toNat_field h 8 13
  rw [← hpid]
  exact ⟨fun i hi => hanswer (routeOf_eq_some hi), fun hnone => hanswer (routeOf_eq_none hnone)⟩

theorem add_one_eq_ofNat {w : Nat} (x : BitVec w) : x + 1 = BitVec.ofNat w (x.toNat + 1) := by
  rw [BitVec.ofNat_add, BitVec.ofNat_toNat, BitVec.setWidth_eq]; rfl

/-- Settles O35: the count is modulo its width, and CTX_NONE answers its own state. -/
theorem dropCountsAndNoneDoesNothing : Obligations.DropCountsAndNoneDoesNothing := by
  intro s i h
  refine ⟨?_, rfl⟩
  rw [← add_one_eq_ofNat]; rfl

/-! ## The classes (40_framer.md R210 to R213) -/

theorem slice_to_end {b : List Byte} {n : Nat} (h : b.length = n) (o : Nat) : slice b o n = b.drop o := by
  rw [slice, List.take_of_length_le h.le]

/-- Settles O29: the bytes of the packet from byte 4. -/
theorem payloadClassesResult : Obligations.PayloadClassesResult := by
  refine fun s h => ⟨⟨true, rfl⟩, fun hlen => ⟨true, ?_⟩⟩
  rw [← slice_to_end hlen]; rfl

theorem pktAfPayload_eq {s : State} (hlen : s.flight.p.length = 188) :
    pktAfPayload s = setPayload (if (afDecode s).flight.ok then s.flight.p.drop (5 + byte s.flight.p 4) else [])
      (afDecode s).flight.ok (afDecode s) := by
  have hlen' : (afDecode s).flight.p.length = 188 := by rw [afDecode_p]; exact hlen
  unfold pktAfPayload
  extract_lets t
  cases hok : t.flight.ok with
  | false => rfl
  | true =>
    rw [if_pos rfl, if_pos rfl, slice_to_end hlen', afDecode_p]; rfl

/-- Settles O30: both classes are AF_DECODE, whose state keeps the packet, and their payload. -/
theorem adaptationClassesFollowAfDecode : Obligations.AdaptationClassesFollowAfDecode := by
  refine fun s h hlen => ⟨afDecode s, rfl, rfl, ?_⟩
  exact congrArg Host.Outcome.next (pktAfPayload_eq hlen)

/-! ## AF_DECODE (41_adaptation.md R240, R241, R243, R244) -/

theorem clockBase_eq (b : List Byte) (o : Nat) : clockBase b o = BitVec.ofNat 33 (clockBaseOf b o) :=
  eq_ofNat_of_toNat (clockBase_toNat b o)

theorem clockExt_eq (b : List Byte) (o : Nat) : clockExt b o = BitVec.ofNat 9 (clockExtOf b o) :=
  eq_ofNat_of_toNat (clockExt_toNat b o)

/-- An adaptation field with its PCR taken from byte 6 of the packet, under a condition. -/
def AfInfo.withPcr (af : AfInfo) (p : List Byte) (valid : Bool) : AfInfo :=
  if valid then { af with pcrV := true, pcrBase := clockBase p 6, pcrExt := clockExt p 6 } else af

/-- An adaptation field with its OPCR taken from byte o of the packet, under a condition. -/
def AfInfo.withOpcr (af : AfInfo) (p : List Byte) (o : Nat) (valid : Bool) : AfInfo :=
  if valid then { af with opcrV := true, opcrBase := clockBase p o, opcrExt := clockExt p o } else af

/-- The result of a clock extractor: the adaptation field, and AF_LEN under a condition. -/
def extracted (af : AfInfo) (bad : Bool) (s : State) : State :=
  { s with flight := { s.flight with af := some af, errs := s.flight.errs ||| mask bad 1 } }

theorem raise_afLen {s : State} {af : AfInfo} (h : s.flight.af = some af) : raise .afLen s = extracted af true s := by
  rw [raise_eq, extracted, ← h]; rfl

theorem extracted_false (af : AfInfo) (s : State) :
    extracted af false s = { s with flight := { s.flight with af := some af } } := by
  rw [extracted, mask, if_neg Bool.false_ne_true, BitVec.or_zero]

theorem extracted_self {s : State} {af : AfInfo} (h : s.flight.af = some af) : extracted af false s = s := by
  rw [extracted_false, ← h]

/-- PCR_EXTRACT: the PCR ends at byte 12, which lies in the adaptation field when its length is at least 7. -/
theorem pcrExtract_eq {s : State} {af : AfInfo} (h : s.flight.af = some af) :
    pcrExtract s = extracted (af.withPcr s.flight.p (decide (7 ≤ af.len.toNat))) (decide (af.len.toNat < 7)) s := by
  simp only [pcrExtract, h]
  by_cases hfit : 7 ≤ af.len.toNat
  · rw [if_pos (by omega), decide_eq_true hfit, decide_eq_false (by omega), extracted_false]; rfl
  · rw [if_neg (by omega), decide_eq_false hfit, decide_eq_true (by omega), raise_afLen h]; rfl

theorem opcrExtract_eq {s : State} {af : AfInfo} (h : s.flight.af = some af) (o : Nat) :
    opcrExtract o s = extracted (af.withOpcr s.flight.p o (decide (o + 1 ≤ af.len.toNat)))
      (decide (af.len.toNat < o + 1)) s := by
  simp only [opcrExtract, h]
  by_cases hfit : o + 1 ≤ af.len.toNat
  · rw [if_pos (by omega), decide_eq_true hfit, decide_eq_false (by omega), extracted_false]; rfl
  · rw [if_neg (by omega), decide_eq_false hfit, decide_eq_true (by omega), raise_afLen h]; rfl

theorem extracted_extracted (af af' : AfInfo) (bad bad' : Bool) (s : State) :
    extracted af' bad' (extracted af bad s) = extracted af' (bad || bad') s := by
  simp only [extracted, BitVec.or_assoc, mask_or]

/-- PCR_EXTRACT under its flag. -/
theorem ite_pcrExtract {s : State} {af : AfInfo} (h : s.flight.af = some af) (flag : Bool) :
    (if flag then pcrExtract s else s) =
      extracted (af.withPcr s.flight.p (flag && decide (7 ≤ af.len.toNat))) (flag && decide (af.len.toNat < 7)) s := by
  cases flag with
  | true => exact pcrExtract_eq h
  | false => exact (extracted_self h).symm

/-- OPCR_EXTRACT under its flag. -/
theorem ite_opcrExtract {s : State} {af : AfInfo} (h : s.flight.af = some af) (o : Nat) (flag : Bool) :
    (if flag then opcrExtract o s else s) =
      extracted (af.withOpcr s.flight.p o (flag && decide (o + 1 ≤ af.len.toNat)))
        (flag && decide (af.len.toNat < o + 1)) s := by
  cases flag with
  | true => exact opcrExtract_eq h o
  | false => exact (extracted_self h).symm

@[simp] theorem withPcr_len (af : AfInfo) (p : List Byte) (valid : Bool) : (af.withPcr p valid).len = af.len := by
  cases valid <;> rfl

section
variable (p : List Byte)

theorem flag_byteAt (n : Nat) : (byteAt p 5).getLsbD n = afFlag p n := getLsbD_eq_beq _ n

theorem opcrOffset_byteAt : opcrOffset (byteAt p 5) + 1 = opcrNeeds p := by
  rw [opcrOffset, flag_byteAt, opcrNeeds]
  split <;> rfl

/-- A flagged PCR or OPCR ends past the adaptation field (R243, R244). -/
def clockShort : Bool := (afFlag p 4 && decide (byte p 4 < 7)) || (afFlag p 3 && decide (byte p 4 < opcrNeeds p))

theorem adaptation_of_empty {p : List Byte} (h : byte p 4 = 0) : adaptation p = afBare 0#8 := by
  have hlen : p.getD 4 0#8 = 0#8 := BitVec.eq_of_toNat_eq h
  simp only [adaptation, pcrIn, opcrIn, afBare, hlen, h]
  rfl

theorem adaptation_of_nonempty {p : List Byte} (h : 0 < byte p 4) : adaptation p =
    ((afWithFlags (afLen p) (byteAt p 5)).withPcr p (pcrIn p)).withOpcr p (opcrOffset (byteAt p 5)) (opcrIn p) := by
  have hoff : opcrOffset (byteAt p 5) = opcrNeeds p - 1 := by rw [← opcrOffset_byteAt, Nat.add_sub_cancel]
  simp only [adaptation, AfInfo.withPcr, AfInfo.withOpcr, afWithFlags, afBare, ← clockBase_eq, ← clockExt_eq, hoff, h,
    decide_true, Bool.true_and, if_true, flag_byteAt]
  split <;> split <;> simp [*, afLen, byteAt]

end

/-- Both extractors under their flags, on an adaptation field of the packet's length that has a flags byte. -/
theorem extractors_eq {s : State} {af : AfInfo} (h : s.flight.af = some af) (hlen : af.len = afLen s.flight.p)
    (hpos : 0 < byte s.flight.p 4) :
    (if (byteAt s.flight.p 5).getLsbD 3 then
        opcrExtract (opcrOffset (byteAt s.flight.p 5)) (if (byteAt s.flight.p 5).getLsbD 4 then pcrExtract s else s)
      else if (byteAt s.flight.p 5).getLsbD 4 then pcrExtract s else s) =
    extracted ((af.withPcr s.flight.p (pcrIn s.flight.p)).withOpcr s.flight.p (opcrOffset (byteAt s.flight.p 5))
      (opcrIn s.flight.p)) (clockShort s.flight.p) s := by
  have hbyte : (afLen s.flight.p).toNat = byte s.flight.p 4 := rfl
  have hpcr : pcrIn s.flight.p = (afFlag s.flight.p 4 && decide (7 ≤ byte s.flight.p 4)) := Bool.and_comm _ _
  have hopcr : opcrIn s.flight.p = (afFlag s.flight.p 3 && decide (opcrNeeds s.flight.p ≤ byte s.flight.p 4)) := by
    rw [opcrIn, decide_eq_true hpos, Bool.true_and]
  rw [ite_pcrExtract h, ite_opcrExtract rfl, extracted_extracted]
  simp only [withPcr_len, hlen, hbyte, flag_byteAt, opcrOffset_byteAt, ← hpcr]
  rw [← hopcr]; rfl

theorem afDecode_of_long {s : State} (h : 183 < byte s.flight.p 4) : afDecode s =
    { s with flight := { s.flight with af := none, ok := false, errs := s.flight.errs ||| mask true 1 } } := by
  have hlong : 188 < 5 + (afLen s.flight.p).toNat := by change 188 < 5 + byte s.flight.p 4; omega
  rw [afDecode, if_pos hlong]; rfl

/-- AF_DECODE of an adaptation field that fits is the packet's; the extractors run under their flags. -/
theorem afDecode_of_fits {s : State} (h : byte s.flight.p 4 ≤ 183) : afDecode s =
    { s with flight := { s.flight with
      af := some (adaptation s.flight.p)
      ok := true
      errs := s.flight.errs ||| mask (decide (0 < byte s.flight.p 4) && clockShort s.flight.p) 1 } } := by
  have hfits : ¬ 188 < 5 + (afLen s.flight.p).toNat := by change ¬ 188 < 5 + byte s.flight.p 4; omega
  rw [afDecode, if_neg hfits]
  by_cases hempty : byte s.flight.p 4 = 0
  · have hlen : afLen s.flight.p = 0#8 := BitVec.eq_of_toNat_eq hempty
    rw [if_pos hlen, adaptation_of_empty hempty, hlen]
    simp [hempty, setAf, onFlight, mask_false]
  · have hlen : afLen s.flight.p ≠ 0#8 := fun hz => hempty (congrArg BitVec.toNat hz)
    rw [if_neg hlen, adaptation_of_nonempty (Nat.pos_of_ne_zero hempty), decide_eq_true (Nat.pos_of_ne_zero hempty)]
    dsimp only
    exact extractors_eq (s := setAf (some (afWithFlags (afLen s.flight.p) (byteAt s.flight.p 5))) true s) rfl rfl
      (Nat.pos_of_ne_zero hempty)

/-! ## The class of a packet (40_framer.md R210 to R213) -/

/-- The adaptation field that the class of a packet decodes. -/
def packetAf (p : List Byte) : Option AfInfo :=
  if hasAf p && decide (byte p 4 ≤ 183) then some (adaptation p) else none

/-- The second result of the class: no adaptation field, or one that fits. -/
def packetOk (p : List Byte) : Bool := !hasAf p || decide (byte p 4 ≤ 183)

/-- The causes of a packet's header and adaptation field (60_exceptions.md R501). -/
def packetErrs (p : List Byte) : BitVec 7 := mask (decide (byte p 0 ≠ 0x47)) 0 ||| mask (afBad p) 1

/-- AF_DECODE of a packet with an adaptation field. -/
theorem afDecode_of_hasAf {s : State} (h : hasAf s.flight.p = true) : afDecode s = { s with flight := { s.flight with
    af := packetAf s.flight.p
    ok := packetOk s.flight.p
    errs := s.flight.errs ||| mask (afBad s.flight.p) 1 } } := by
  by_cases hlong : 183 < byte s.flight.p 4
  · rw [afDecode_of_long hlong]
    simp [packetAf, packetOk, afBad, h, hlong]
  · rw [afDecode_of_fits (Nat.le_of_not_lt hlong)]
    simp [packetAf, packetOk, afBad, h, hlong, Nat.le_of_not_lt hlong, clockShort]

/-- The class of a packet decodes its adaptation field, if it has one. -/
theorem pktClass_eq {s : State} (hlen : s.flight.p.length = 188) : pktClass (be32 s.flight.p 0) s =
    { s with flight := { s.flight with
      af := packetAf s.flight.p
      ok := packetOk s.flight.p
      errs := s.flight.errs ||| mask (afBad s.flight.p) 1
      pl := payload s.flight.p
      ra := reassembles s.flight.p } } := by
  obtain ⟨hpl, hra⟩ := pktClass_payload hlen
  rw [← hpl, ← hra, pktClass_be32]
  cases haf : hasAf s.flight.p with
  | false =>
    have haf' : packetAf s.flight.p = none ∧ packetOk s.flight.p = true ∧ mask (afBad s.flight.p) 1 = 0#7 := by
      simp [packetAf, packetOk, afBad, haf]
    obtain ⟨h₁, h₂, h₃⟩ := haf'
    rw [h₁, h₂, h₃, BitVec.or_zero]
    cases hasPayload s.flight.p <;> rfl
  | true =>
    cases hasPayload s.flight.p with
    | false => simp only [if_true, Bool.false_eq_true, if_false, pktAf, afDecode_of_hasAf haf]; rfl
    | true =>
      rw [if_pos rfl, if_pos rfl, pktAfPayload_eq hlen]
      simp only [afDecode_of_hasAf haf]; rfl

end Sys2Proof.Machine
end

section
/-! PROOFS. What a frame records of its header, and that no operation of its context reads it (40_framer.md R205, R208). -/

namespace Sys2Proof.Machine

open Sys2Proof.Claims

/-! ## The record of a header -/

/-- What a frame records of its header: LAST_HDR, LAST_AF, the packet with its header word, and the cause SYNC. -/
structure Head where
  lastHdr : Word
  lastAf  : Word
  p       : List Byte
  h       : Word
  sync    : Bool

/-- The causes with SYNC set or cleared. -/
def setSync (sync : Bool) (errs : BitVec 7) : BitVec 7 := (errs &&& ~~~Cause.bit .sync) ||| Cause.maskIf .sync sync

theorem setSync_self (errs : BitVec 7) : setSync (errs.getLsbD 0) errs = errs := by revert errs; decide

/-- The other causes are raised apart from SYNC. -/
theorem setSync_or {c : Cause} (hc : c ≠ .sync) (sync : Bool) (errs : BitVec 7) :
    setSync sync (errs ||| c.bit) = setSync sync errs ||| c.bit := by
  have hbit : c.bit &&& ~~~Cause.bit .sync = c.bit := by
    cases c with
    | sync => exact absurd rfl hc
    | _ => rfl
  rw [setSync, BitVec.and_comm, BitVec.and_or_distrib_left, BitVec.and_comm, BitVec.and_comm _ c.bit, hbit,
    BitVec.or_assoc, BitVec.or_comm c.bit, ← BitVec.or_assoc]; rfl

/-- The record of the header that a state holds. -/
def State.head (s : State) : Head := ⟨s.lastHdr, s.lastAf, s.flight.p, s.flight.h, s.flight.errs.getLsbD 0⟩

/-- The state with another record of the header. -/
def State.withHead (s : State) (x : Head) : State :=
  { s with
    lastHdr := x.lastHdr
    lastAf := x.lastAf
    flight := { s.flight with p := x.p, h := x.h, errs := setSync x.sync s.flight.errs } }

theorem withHead_head (s : State) : s.withHead s.head = s := by
  simp only [State.withHead, State.head, setSync_self]

/-! ## What does not read it -/

section
variable (x : Head) (i : Nat) (s : State)

@[simp] theorem withHead_flight_pl : (s.withHead x).flight.pl = s.flight.pl := rfl
@[simp] theorem withHead_flight_ps : (s.withHead x).flight.ps = s.flight.ps := rfl
@[simp] theorem withHead_flight_unit : (s.withHead x).flight.unit = s.flight.unit := rfl
@[simp] theorem withHead_flight_af : (s.withHead x).flight.af = s.flight.af := rfl
@[simp] theorem withHead_flight_ra : (s.withHead x).flight.ra = s.flight.ra := rfl
@[simp] theorem ctxAt_withHead : ctxAt (s.withHead x) i = ctxAt s i := rfl
@[simp] theorem roomAt_withHead : roomAt (s.withHead x) i = roomAt s i := rfl

@[simp] theorem onCtx_withHead (f : CtxState → CtxState) : onCtx i f (s.withHead x) = (onCtx i f s).withHead x := rfl

@[simp] theorem raise_withHead {c : Cause} (hc : c ≠ .sync) : raise c (s.withHead x) = (raise c s).withHead x := by
  simp only [raise_eq, State.withHead, setSync_or hc]

@[simp] theorem raiseIf_withHead {c : Cause} (hc : c ≠ .sync) (b : Bool) :
    raiseIf b c (s.withHead x) = (raiseIf b c s).withHead x := by
  cases b
  · rfl
  · exact raise_withHead x s hc

/-- A choice whose two results carry the same record. -/
@[simp] theorem ite_withHead (b : Prop) [Decidable b] (t : State) :
    (if b then s.withHead x else t.withHead x) = (if b then s else t).withHead x :=
  (apply_ite (State.withHead · x) b s t).symm

@[simp] theorem appendUnit_withHead (b : List Byte) : appendUnit i b (s.withHead x) = (appendUnit i b s).withHead x := by
  simp [appendUnit]

@[simp] theorem beginUnit_withHead : beginUnit i (s.withHead x) = (beginUnit i s).withHead x := rfl

@[simp] theorem flagPtrErr_withHead (bad : Bool) : flagPtrErr bad i (s.withHead x) = (flagPtrErr bad i s).withHead x := by
  simp [flagPtrErr]

/-! ### Tables -/

theorem patCommit_withHead (u : UnitRec) (sec : PatSection) :
    patCommit u sec (s.withHead x) = (patCommit u sec s).withHead x := by
  unfold patCommit
  extract_lets full ev
  exact raiseIf_withHead x (onFlight (fun f => { f with evTbl := some ev })
    { s with pat := patTableOf s.params.patMax sec }) (by decide) full

theorem pmtCommit_withHead (u : UnitRec) (sec : PmtSection) :
    pmtCommit u sec (s.withHead x) = (pmtCommit u sec s).withHead x := by
  unfold pmtCommit
  extract_lets m ev
  exact raiseIf_withHead x (onFlight (fun f => { f with evTbl := some ev })
    { s with pmt := pmtTableOf s.pmt m sec }) (by decide) m.trunc

@[simp] theorem patDecode_withHead : patDecode (s.withHead x) = (patDecode s).withHead x := by
  unfold patDecode
  rw [withHead_flight_unit]
  cases s.flight.unit with
  | none => rfl
  | some u =>
    cases hsec : patParse u.data with
    | none => simp only [hsec]; exact raise_withHead x s (by decide)
    | some sec => simp only [hsec]; exact patCommit_withHead x s u sec

@[simp] theorem pmtDecode_withHead : pmtDecode (s.withHead x) = (pmtDecode s).withHead x := by
  unfold pmtDecode
  rw [withHead_flight_unit]
  cases s.flight.unit with
  | none => rfl
  | some u =>
    cases hsec : pmtParse u.data with
    | none => simp only [hsec]; exact raise_withHead x s (by decide)
    | some sec => simp only [hsec]; exact pmtCommit_withHead x s u sec

@[simp] theorem decodeTable_withHead (cfg : CtxCfg) :
    decodeTable cfg (s.withHead x) = (decodeTable cfg s).withHead x := by
  unfold decodeTable
  split
  · exact patDecode_withHead x s
  · exact pmtDecode_withHead x s
  · rfl

@[simp] theorem emitUnit_withHead : emitUnit i (s.withHead x) = (emitUnit i s).withHead x := by
  unfold emitUnit
  extract_lets c u s₁ c' u' s₂
  exact congrArg (onCtx i fun c => { c with pending := false }) (decodeTable_withHead x s₂ c.cfg)

/-! ### Sections -/

@[simp] theorem secCont_withHead : secCont i (s.withHead x) = (secCont i s).withHead x := by
  simp [secCont]

@[simp] theorem closeSection_withHead (tail : List Byte) (bad : Bool) :
    closeSection i tail bad (s.withHead x) = (closeSection i tail bad s).withHead x := by
  simp [closeSection]

@[simp] theorem openSection_withHead (rest : List Byte) (bad : Bool) :
    openSection i rest bad (s.withHead x) = (openSection i rest bad s).withHead x := by
  simp [openSection]

@[simp] theorem setPtr_withHead (ptr : Option Byte) :
    onFlight (fun f => { f with ptr := ptr }) (s.withHead x) = (onFlight (fun f => { f with ptr := ptr }) s).withHead x :=
  rfl

@[simp] theorem secStart_withHead : secStart i (s.withHead x) = (secStart i s).withHead x := by
  unfold secStart
  rw [withHead_flight_pl]
  simp

/-! ### PES packets -/

@[simp] theorem pesCont_withHead : pesCont i (s.withHead x) = (pesCont i s).withHead x := by
  simp [pesCont]

@[simp] theorem truncPes_withHead : truncPes i (s.withHead x) = (truncPes i s).withHead x := by
  simp [truncPes]

@[simp] theorem setPs_withHead (ps : Option Nat) : setPs ps (s.withHead x) = (setPs ps s).withHead x := rfl

@[simp] theorem pesPts_withHead (pdf : BitVec 2) (ps : Nat) :
    pesPts i pdf ps (s.withHead x) = (pesPts i pdf ps s).withHead x := by
  simp [pesPts, ptsDecode]

@[simp] theorem pesDts_withHead (pdf : BitVec 2) (ps : Nat) :
    pesDts i pdf ps (s.withHead x) = (pesDts i pdf ps s).withHead x := by
  simp [pesDts, dtsDecode]

@[simp] theorem pesHdrDecode_withHead : pesHdrDecode i (s.withHead x) = (pesHdrDecode i s).withHead x := by
  simp [pesHdrDecode]

@[simp] theorem pesOpenHeader_withHead : pesOpenHeader i (s.withHead x) = (pesOpenHeader i s).withHead x := by
  unfold pesOpenHeader
  simp only [withHead_flight_pl, withHead_flight_ps, onCtx_withHead, pesHdrDecode_withHead]
  split
  · rfl
  · exact appendUnit_withHead x i _ _

@[simp] theorem pesStart_withHead : pesStart i (s.withHead x) = (pesStart i s).withHead x := by
  simp [pesStart]

/-! ### A claimed frame -/

theorem contextOp_withHead (h : Word) : contextOp i h (s.withHead x) = (contextOp i h s).withHead x := by
  unfold contextOp
  rw [ctxAt_withHead]
  cases (ctxAt s i).cfg.kind with
  | none => rfl
  | sec => simp
  | pes => simp

theorem afEvents_withHead : afEvents i (s.withHead x) = (afEvents i s).withHead x := by
  unfold afEvents
  rw [withHead_flight_af, ctxAt_withHead]
  cases s.flight.af with
  | none => rfl
  | some af => dsimp only; split <;> rfl

theorem claimedFrame_withHead (h : Word) : claimedFrame i h (s.withHead x) = (claimedFrame i h s).withHead x := by
  simp [claimedFrame, afEvents_withHead, contextOp_withHead]

theorem getLsbD_setSync (sync : Bool) (errs : BitVec 7) : (setSync sync errs).getLsbD 0 = sync := by
  revert errs; cases sync <;> decide

theorem head_withHead : (s.withHead x).head = x := by
  simp only [State.head, State.withHead, getLsbD_setSync]

/-- A claimed frame leaves the record as it was at the claim; in particular it raises no SYNC. -/
theorem head_claimedFrame (h : Word) : (claimedFrame i h s).head = s.head := by
  have hsame := claimedFrame_withHead s.head i s h
  rw [withHead_head] at hsame
  rw [hsame, head_withHead]

end

end Sys2Proof.Machine
end

section
/-! PROOFS. An accepted frame as the composition of its operations: up to its claim, the operation of the claiming
context, and FINALIZE (40_framer.md R200, R205 to R215, 41_adaptation.md R247, 60_exceptions.md R502, R506). -/

namespace Sys2Proof.Machine

open Sys2Proof.Claims

/-! ## The words a frame latches (40_framer.md R208) -/

section
variable (p : List Byte)

theorem be32_toNat_eq_header : (be32 p 0).toNat = header p := by
  refine (be32_zero_toNat p).trans ?_
  change _ = (byte p 0 * 256 + byte p 1) * 65536 + (byte p 2 * 256 + byte p 3)
  omega

theorem be32_zero_eq : be32 p 0 = BitVec.ofNat 32 (header p) := eq_ofNat_of_toNat (be32_toNat_eq_header p)

theorem hdrHasAf_be32 : hdrHasAf (be32 p 0) = hasAf p := by
  have h3 := byte_lt p 3
  have hbit : (be32 p 0).toNat / 2 ^ 5 % 2 = byte p 3 / 32 % 2 := by rw [be32_zero_toNat]; omega
  rw [hdrHasAf, getLsbD_eq_beq, hbit]

theorem lastAfWord_be32_toNat : (lastAfWord (be32 p 0) p).toNat = lastAfOf p := by
  rw [lastAfWord_toNat, hdrHasAf_be32]; rfl

theorem lastAfWord_be32 : lastAfWord (be32 p 0) p = BitVec.ofNat 32 (lastAfOf p) :=
  eq_ofNat_of_toNat (lastAfWord_be32_toNat p)

theorem packetErrs_sync : (packetErrs p).getLsbD 0 = decide (byte p 0 ≠ 0x47) := by
  unfold packetErrs
  cases decide (byte p 0 ≠ 0x47) <;> cases afBad p <;> rfl

theorem packetErrs_toNat : (packetErrs p).toNat = num (decide (byte p 0 ≠ 0x47)) + 2 * num (afBad p) := by
  unfold packetErrs
  cases decide (byte p 0 ≠ 0x47) <;> cases afBad p <;> rfl

end

/-! ## Up to the claim -/

/-- The state in which PKT_HDR, the class and ROUTE leave a frame. -/
def claimState (s : State) (p : List Byte) : State :=
  { s with flight := claimFlight s p (packetAf p) (packetOk p) (packetErrs p) }

/-- LAST_HDR and LAST_AF written from a packet. -/
def latched (p : List Byte) (s : State) : State :=
  { s with lastHdr := be32 p 0, lastAf := lastAfWord (be32 p 0) p }

theorem hdrSync_be32 (p : List Byte) : (hdrSync (be32 p 0) != 0x47#8) = decide (byte p 0 ≠ 0x47) := by
  have h1 := byte_lt p 1
  have h2 := byte_lt p 2
  have h3 := byte_lt p 3
  have hbyte : (be32 p 0).toNat / 2 ^ 24 = byte p 0 := by rw [be32_zero_toNat]; omega
  rw [hdrSync_bad, hbyte]

theorem pktHdr_opened (s : State) (p : List Byte) : pktHdr (be32 p 0) (opened s p) = { s with flight := { Flight.idle with
    k := s.pktIndex, p := p, h := be32 p 0, errs := mask (decide (byte p 0 ≠ 0x47)) 0 } } := by
  rw [pktHdr_eq, hdrSync_be32, Cause.maskIf_eq_mask]
  exact congrArg (fun errs => { s with flight := { Flight.idle with
    k := s.pktIndex, p := p, h := be32 p 0, errs := errs } }) BitVec.zero_or

/-- Header and class of a packet, in the frame in which it is opened. -/
theorem pktClass_pktHdr_opened (s : State) {p : List Byte} (hlen : p.length = 188) :
    pktClass (be32 p 0) (pktHdr (be32 p 0) (opened s p)) = { s with
      flight := { claimFlight s p (packetAf p) (packetOk p) (packetErrs p) with claim := none } } := by
  rw [pktHdr_opened]
  exact pktClass_eq (s := { s with flight := { Flight.idle with
    k := s.pktIndex, p := p, h := be32 p 0, errs := mask (decide (byte p 0 ≠ 0x47)) 0 } }) hlen

theorem route_pktClass_opened (s : State) {p : List Byte} (hlen : p.length = 188) :
    route (be32 p 0) (pktClass (be32 p 0) (pktHdr (be32 p 0) (opened s p))) = claimState s p := by
  rw [pktClass_pktHdr_opened s hlen]; rfl

theorem atClaim_eq {s : State} {fr : List Byte} (h : Accepts s fr) :
    atClaim fr s = latched (packet fr) (claimState s (packet fr)) := by
  have hclass := pktClass_pktHdr_opened s (length_packet (length_of_accepts h))
  rw [atClaim, beginFrame_of_accepts h]
  generalize packet fr = p at hclass ⊢
  exact congrArg (fun t => route (be32 p 0) (latchLast t)) hclass

/-! ## The operation of the claiming context -/

/-- What a frame does from its claim to FINALIZE. -/
def afterClaim (s : State) (p : List Byte) : State :=
  match (claimState s p).flight.claim with
  | none => claimState s p
  | some i => claimedFrame i (be32 p 0) (claimState s p)

theorem afterClaim_of_none {s : State} {p : List Byte} (h : (claimState s p).flight.claim = none) :
    afterClaim s p = claimState s p := by simp only [afterClaim, h]

theorem afterClaim_of_some {s : State} {p : List Byte} {i : Nat} (h : (claimState s p).flight.claim = some i) :
    afterClaim s p = claimedFrame i (be32 p 0) (claimState s p) := by simp only [afterClaim, h]

theorem withHead_record (s : State) (hdr af : Word) (p : List Byte) (h : Word) :
    s.withHead ⟨hdr, af, p, h, s.head.sync⟩ =
      { s with lastHdr := hdr, lastAf := af, flight := { s.flight with p := p, h := h } } := by
  simp only [State.withHead, State.head, setSync_self]

theorem latched_eq_withHead (p : List Byte) (s : State) :
    latched p s = s.withHead { s.head with lastHdr := be32 p 0, lastAf := lastAfWord (be32 p 0) p } :=
  (withHead_record s _ _ _ _).symm

/-- A claimed frame does not read LAST_HDR and LAST_AF. -/
theorem claimedFrame_latched (i : Nat) (h : Word) (p : List Byte) (s : State) :
    claimedFrame i h (latched p s) = latched p (claimedFrame i h s) := by
  rw [latched_eq_withHead, claimedFrame_withHead, latched_eq_withHead, head_claimedFrame]

theorem frameBody_of_accepts {s : State} {fr : List Byte} (h : Accepts s fr) :
    frameBody fr s = latched (packet fr) (afterClaim s (packet fr)) := by
  rw [frameBody_eq, atClaim_eq h, beginFrame_of_accepts h]
  generalize packet fr = p
  change (match (claimState s p).flight.claim with | none => _ | some i => _) = _
  cases hc : (claimState s p).flight.claim with
  | none => rw [afterClaim_of_none hc]
  | some i => rw [afterClaim_of_some hc]; exact claimedFrame_latched i _ p _

theorem answers_frame {s : State} {fr : List Byte} (h : Accepts s fr) :
    Answers (.frame fr) s (finalize (latched (packet fr) (afterClaim s (packet fr)))) := by
  rw [← frameBody_of_accepts h]; exact execFrame_of_accepts h

/-- What the claiming context's operation leaves of the state at the claim. -/
theorem afterClaim_touches (s : State) (p : List Byte) : ∃ i evAf evOpcr,
    Touches i { claimState s p with flight := { (claimState s p).flight with evAf := evAf, evOpcr := evOpcr } }
      (afterClaim s p) := by
  cases hc : (claimState s p).flight.claim with
  | none => rw [afterClaim_of_none hc]; exact ⟨0, none, none, .refl _ _⟩
  | some i =>
    rw [afterClaim_of_some hc]
    obtain ⟨evAf, evOpcr, ht⟩ := touches_claimedFrame i (be32 p 0) (claimState s p)
    exact ⟨i, evAf, evOpcr, ht⟩

theorem head_afterClaim (s : State) (p : List Byte) : (afterClaim s p).head = (claimState s p).head := by
  cases hc : (claimState s p).flight.claim with
  | none => rw [afterClaim_of_none hc]
  | some i => rw [afterClaim_of_some hc, head_claimedFrame]

/-- Settles O51: FINALIZE latches what the frame raised, and from the claim on a frame keeps its header's record and
index. -/
theorem acceptedFrameLatchesItsHeader : Obligations.AcceptedFrameLatchesItsHeader := by
  refine ⟨fun s => ⟨reads_of (r := .pktIndex) rfl rfl, reads_of (r := .dropCount) rfl rfl,
    reads_of (r := .lastHdr) rfl rfl, reads_of (r := .lastAf) rfl rfl⟩, fun s fr hacc => ?_⟩
  have hanswer := answers_frame hacc
  have hsticky := (carries_exec rfl hanswer).sticky
  obtain ⟨evs, -, drops, hfinal⟩ := finalize_eq (latched (packet fr) (afterClaim s (packet fr)))
  obtain ⟨i, evAf, evOpcr, ht⟩ := afterClaim_touches s (packet fr)
  have hsync : (afterClaim s (packet fr)).flight.errs.getLsbD 0 = (packetErrs (packet fr)).getLsbD 0 :=
    congrArg Head.sync (head_afterClaim s (packet fr))
  refine ⟨_, hanswer, ?hdr, ?af, ?index, ?sync, hsticky⟩ <;> rw [hfinal]
  case hdr => exact be32_toNat_eq_header _
  case af => exact lastAfWord_be32_toNat _
  case index =>
    change ((afterClaim s (packet fr)).flight.k + 1).toNat = _
    rw [ht.k]; rfl
  case sync =>
    change ((afterClaim s (packet fr)).errStatus ||| (afterClaim s (packet fr)).flight.errs).getLsbD 0 = _
    rw [BitVec.getLsbD_or, ht.errStatus, hsync, packetErrs_sync]; rfl

end Sys2Proof.Machine
end

section
/-! PROOFS. FINALIZE of an accepted frame, claimed or not, and the records it pushes (40_framer.md R207, R214, R215,
41_adaptation.md R247, 60_exceptions.md R502, R506). -/

namespace Sys2Proof.Machine

open Sys2Proof.Claims

theorem latched_eq (p : List Byte) (s : State) :
    latched p s = { s with lastHdr := BitVec.ofNat 32 (header p), lastAf := BitVec.ofNat 32 (lastAfOf p) } := by
  rw [← be32_zero_eq, ← lastAfWord_be32]; rfl

/-! ## A frame that no context claims -/

theorem finalize_of_drop {s : State} (h : s.flight.claim = none) : finalize s = { s with
    uq := s.uq ++ s.flight.unit.toList
    dropCount := s.dropCount + 1
    errStatus := s.errStatus ||| s.flight.errs
    pktIndex := s.flight.k + 1
    flight := .idle } := by
  simp [finalize, finalizeEvents, pushUnit?_eq, h, drop, latchErrors]

/-- FINALIZE of a frame whose packet no context claims (R207, R506). -/
theorem finalize_unclaimed {s : State} {p : List Byte} (h : (claimState s p).flight.claim = none) :
    finalize (latched p (afterClaim s p)) = { s with
      lastHdr := BitVec.ofNat 32 (header p)
      lastAf := BitVec.ofNat 32 (lastAfOf p)
      dropCount := BitVec.ofNat 32 (s.dropCount.toNat + 1)
      errStatus := s.errStatus ||| packetErrs p
      pktIndex := BitVec.ofNat 32 (s.pktIndex.toNat + 1)
      flight := .idle } := by
  have hunits : (latched p (claimState s p)).uq ++ (latched p (claimState s p)).flight.unit.toList = s.uq :=
    List.append_nil _
  rw [afterClaim_of_none h, finalize_of_drop (s := latched p (claimState s p)) h, hunits, latched_eq,
    ← add_one_eq_ofNat, ← add_one_eq_ofNat]; rfl

/-- Settles O49: without a claim a frame goes to FINALIZE with the causes of its header and adaptation field. -/
theorem unclaimedFrameIsDropped : Obligations.UnclaimedFrameIsDropped := by
  intro s fr hacc p hnone
  have hroute : (claimState s p).flight.claim = none := routeOf_eq_none (by rw [hdrPid_be32]; exact hnone)
  have hanswer := answers_frame hacc
  rw [finalize_unclaimed hroute] at hanswer
  refine ⟨_, hanswer, ?_⟩
  rw [BitVec.or_assoc]; rfl

/-! ## The records of a claimed frame -/

theorem clockWords_eq (b : List Byte) (o : Nat) : clockWords (clockBase b o) (clockExt b o) =
    (BitVec.ofNat 32 (clockBaseOf b o % 2 ^ 32),
      BitVec.ofNat 32 (2 ^ 31 + 512 * (clockBaseOf b o / 2 ^ 32) + clockExtOf b o)) := by
  have hbase : (clockBase b o).toNat = clockBaseOf b o := clockBase_toNat b o
  have hext : (clockExt b o).toNat = clockExtOf b o := clockExt_toNat b o
  have hlt := (clockBase b o).isLt
  refine Prod.ext (eq_ofNat_of_toNat ?_) (eq_ofNat_of_toNat ?_)
  · simp only [clockWords, toNat_field, hbase, Nat.pow_zero, Nat.div_one]
  · simp only [clockWords, toNat_append_mul, toNat_field, hbase, hext, BitVec.toNat_ofNat]
    rw [hbase] at hlt
    omega

theorem afEvents_of_silent {i : Nat} {s : State}
    (h : ∀ af, s.flight.af = some af → (ctxAt s i).cfg.afev = false ∨ af.len = 0#8) : afEvents i s = s := by
  unfold afEvents
  cases haf : s.flight.af with
  | none => rfl
  | some af => exact if_pos (h af haf)

theorem afEvents_of_loud {i : Nat} {s : State} {af : AfInfo} (haf : s.flight.af = some af)
    (h : ¬ ((ctxAt s i).cfg.afev = false ∨ af.len = 0#8)) : afEvents i s = { s with flight := { s.flight with
      evAf := some (afEvent i s.flight.k af)
      evOpcr := if af.opcrV then some (opcrEvent i s.flight.k af) else s.flight.evOpcr } } := by
  unfold afEvents
  split
  next hnone => rw [haf] at hnone; cases hnone
  next af' haf' =>
    obtain rfl : af = af' := Option.some.inj (haf.symm.trans haf')
    exact if_neg h

theorem adaptation_pcr {p : List Byte} (h : pcrIn p = true) :
    (adaptation p).pcrBase = clockBase p 6 ∧ (adaptation p).pcrExt = clockExt p 6 := by
  simp only [adaptation, h, if_true, clockBase_eq, clockExt_eq, and_self]

theorem adaptation_opcr {p : List Byte} (h : opcrIn p = true) :
    (adaptation p).opcrBase = clockBase p (opcrNeeds p - 1) ∧
      (adaptation p).opcrExt = clockExt p (opcrNeeds p - 1) := by
  simp only [adaptation, h, if_true, clockBase_eq, clockExt_eq, and_self]

section
variable {i : Nat} (hi : i < 16) {p : List Byte}
include hi

theorem afEventHead_eq (hpos : 0 < byte p 4) (type : BitVec 4) : afEventHead i (adaptation p) type =
    BitVec.ofNat 32 (type.toNat + 16 * i + 256 * byte p 5 + 65536 * byte p 4) := by
  have hflags : (adaptation p).flags.toNat = byte p 5 := by rw [adaptation, if_pos hpos]
  have hlen : (adaptation p).len.toNat = byte p 4 := rfl
  refine eq_ofNat_of_toNat ?_
  simp only [afEventHead, toNat_append_mul, ctx_toNat hi, hflags, hlen, BitVec.toNat_ofNat]
  omega

theorem afEvent_eq (hpos : 0 < byte p 4) (k : BitVec 32) :
    afEvent i k (adaptation p) = clockRecord 1 i k p (pcrIn p) (clockBaseOf p 6) (clockExtOf p 6) := by
  have hvalid : (adaptation p).pcrV = pcrIn p := rfl
  have htype : (1#4).toNat = 1 := rfl
  rw [afEvent, clockRecord, afEventHead_eq hi hpos, hvalid, htype]
  cases hpcr : pcrIn p with
  | false => rfl
  | true =>
    obtain ⟨hbase, hext⟩ := adaptation_pcr hpcr
    simp only [hbase, hext, clockWords_eq, if_true]

theorem opcrEvent_eq (hpos : 0 < byte p 4) (hopcr : opcrIn p = true) (k : BitVec 32) :
    opcrEvent i k (adaptation p) =
      clockRecord 2 i k p true (clockBaseOf p (opcrNeeds p - 1)) (clockExtOf p (opcrNeeds p - 1)) := by
  obtain ⟨hbase, hext⟩ := adaptation_opcr hopcr
  have htype : (2#4).toNat = 2 := rfl
  simp only [opcrEvent, clockRecord, afEventHead_eq hi hpos, htype, hbase, hext, clockWords_eq, if_true]

/-- AF_EVENTS of a packet at its claim (41_adaptation.md R247). -/
theorem afEvents_claimState {s : State} {c : Context} (hc : s.ctx[i]? = some c) :
    afEvents i (claimState s p) = { claimState s p with flight := { (claimState s p).flight with
      evAf := afRecord i c.cfg.afev s.pktIndex p, evOpcr := opcrRecord i c.cfg.afev s.pktIndex p } } := by
  have hctx : ctxAt (claimState s p) i = c := ctxAt_of hc
  have hempty : (adaptation p).len = 0#8 ↔ byte p 4 = 0 := BitVec.toNat_inj.symm
  cases hreports : reportsAf c.cfg.afev p with
  | true =>
    obtain ⟨⟨⟨hafev, hhas⟩, hpos⟩, hfits⟩ :
        ((c.cfg.afev = true ∧ hasAf p = true) ∧ 0 < byte p 4) ∧ byte p 4 ≤ 183 := by simpa using hreports
    have haf : packetAf p = some (adaptation p) := if_pos (by rw [hhas, decide_eq_true hfits]; rfl)
    have hloud : ¬ ((ctxAt (claimState s p) i).cfg.afev = false ∨ (adaptation p).len = 0#8) := by
      rw [hctx, hafev, hempty]; simp; omega
    rw [afEvents_of_loud (s := claimState s p) haf hloud, afRecord, hreports, if_pos rfl, ← afEvent_eq hi hpos,
      opcrRecord, hreports]
    have hvalid : (adaptation p).opcrV = opcrIn p := rfl
    rw [hvalid]
    cases hopcr : opcrIn p with
    | false => rfl
    | true => simp only [Bool.and_self, if_true, ← opcrEvent_eq hi hpos hopcr]; rfl
  | false =>
    have hafr : afRecord i c.cfg.afev s.pktIndex p = none := by rw [afRecord, hreports]; rfl
    have hopr : opcrRecord i c.cfg.afev s.pktIndex p = none := by rw [opcrRecord, hreports]; rfl
    rw [hafr, hopr]
    refine afEvents_of_silent fun af haf => ?_
    obtain ⟨hfits, rfl⟩ : (hasAf p && decide (byte p 4 ≤ 183)) = true ∧ adaptation p = af := by
      simpa [claimState, claimFlight, packetAf] using haf
    rw [hctx, hempty]
    obtain ⟨hhas, hfits⟩ : hasAf p = true ∧ byte p 4 ≤ 183 := by simpa using hfits
    cases hafev : c.cfg.afev with
    | false => exact .inl rfl
    | true => exact .inr (by simpa [hafev, hhas, hfits] using hreports)

theorem errRecord_eq {f : Flight} (hh : f.h = be32 f.p 0) : errRecord i f = {
    w0 := BitVec.ofNat 32 (15 + 16 * i + 256 * f.errs.toNat + 65536 * (f.unit.map (fun u => u.seq.toNat)).getD 0)
    w1 := f.k
    w2 := BitVec.ofNat 32 ((if hasAf f.p then byte f.p 4 else 0) + 256 * (f.ptr.map BitVec.toNat).getD 0
      + 65536 * num (hasAf f.p) + 131072 * num f.ptr.isSome)
    w3 := BitVec.ofNat 32 (num f.unit.isSome) } := by
  have h4 := byte_lt f.p 4
  rw [errRecord, hh, hdrHasAf_be32]
  congr 1
  · refine eq_ofNat_of_toNat ?_
    rw [toNat_append_mul]
    simp only [toNat_append_mul, ctx_toNat hi, BitVec.toNat_ofNat]
    cases f.unit with
    | none => simp only [Option.map_none, Option.getD_none, BitVec.toNat_ofNat]; omega
    | some u => simp only [Option.map_some, Option.getD_some]; omega
  · refine eq_ofNat_of_toNat ?_
    have hlen : (if hasAf f.p then afLen f.p else 0#8).toNat = if hasAf f.p then byte f.p 4 else 0 := by
      split <;> rfl
    have hptr : (f.ptr.getD 0#8).toNat = (f.ptr.map BitVec.toNat).getD 0 := by cases f.ptr <;> rfl
    simp only [toNat_append_mul, bit_toNat, BitVec.toNat_ofNat, hlen, hptr, num]
    omega
  · refine eq_ofNat_of_toNat ?_
    simp only [toNat_append_mul, bit_toNat, BitVec.toNat_ofNat, num]
    omega

theorem errRecord?_eq {f : Flight} (hh : f.h = be32 f.p 0) : errRecord? i f =
    errorRecord i f.k f.p f.errs.toNat (f.unit.map (fun u => u.seq.toNat)) (f.ptr.map BitVec.toNat) := by
  have hzero : f.errs = 0#7 ↔ f.errs.toNat = 0 := by rw [← BitVec.toNat_inj]; rfl
  by_cases herrs : f.errs = 0#7
  · rw [errRecord?, if_pos herrs, errorRecord, if_pos (hzero.mp herrs)]
  · rw [errRecord?, if_neg herrs, errorRecord, if_neg (herrs ∘ hzero.mpr), errRecord_eq hi hh, Option.isSome_map,
      Option.isSome_map]

end

/-! ## A claimed frame -/

/-- FINALIZE of a frame that context i claims, in the state `u` that the context's operation leaves (R215). -/
def claimedResult (s : State) (p : List Byte) (i : Nat) (u : State) : State :=
  { u with
    lastHdr := BitVec.ofNat 32 (header p)
    lastAf := BitVec.ofNat 32 (lastAfOf p)
    uq := s.uq ++ u.flight.unit.toList
    evq := s.evq ++ u.flight.evAf.toList ++ u.flight.evOpcr.toList ++ u.flight.evTbl.toList ++
      (errorRecord i s.pktIndex p u.flight.errs.toNat (u.flight.unit.map (fun x => x.seq.toNat))
        (u.flight.ptr.map BitVec.toNat)).toList
    errStatus := s.errStatus ||| u.flight.errs
    pktIndex := BitVec.ofNat 32 (s.pktIndex.toNat + 1)
    flight := .idle }

/-- FINALIZE of a claimed frame that emits no unit and reads no pointer field. -/
theorem claimedResult_of_silent {s : State} {p : List Byte} {i : Nat} {u : State} (hunit : u.flight.unit = none)
    (htable : u.flight.evTbl = none) (hptr : u.flight.ptr = none) : claimedResult s p i u = { u with
      lastHdr := BitVec.ofNat 32 (header p)
      lastAf := BitVec.ofNat 32 (lastAfOf p)
      uq := s.uq
      evq := s.evq ++ u.flight.evAf.toList ++ u.flight.evOpcr.toList ++
        (errorRecord i s.pktIndex p u.flight.errs.toNat none none).toList
      errStatus := s.errStatus ||| u.flight.errs
      pktIndex := BitVec.ofNat 32 (s.pktIndex.toNat + 1)
      flight := .idle } := by
  simp [claimedResult, hunit, htable, hptr]

theorem finalize_claimed {s : State} {p : List Byte} {i : Nat} (hi : i < 16)
    (hclaim : (claimState s p).flight.claim = some i) :
    finalize (latched p (afterClaim s p)) = claimedResult s p i (afterClaim s p) := by
  obtain ⟨j, evAf, evOpcr, ht⟩ := afterClaim_touches s p
  have hp : (afterClaim s p).flight.p = p := ht.p
  have hh : (afterClaim s p).flight.h = be32 (afterClaim s p).flight.p 0 := by rw [hp]; exact ht.h
  have huq : (afterClaim s p).uq = s.uq := ht.uq
  have hevq : (afterClaim s p).evq = s.evq := ht.evq
  have herr : (afterClaim s p).errStatus = s.errStatus := ht.errStatus
  have hk : (afterClaim s p).flight.k = s.pktIndex := ht.k
  rw [finalize_of_claim (s := latched p (afterClaim s p)) (ht.claim.trans hclaim)]
  simp only [latched_eq, frameEvents, errRecord?_eq hi hh, hp, huq, hevq, herr, hk, add_one_eq_ofNat, claimedResult,
    List.append_assoc]

theorem index_lt_of_inv {s : State} (hs : s.Inv) {i : Nat} {c : Context} (hc : s.ctx[i]? = some c) : i < 16 := by
  have hlt : i < s.params.nCtx := hs.contexts ▸ (List.getElem?_eq_some_iff.mp hc).1
  obtain ⟨-, hctx, -⟩ := hs.legal
  omega

theorem claim_of_claimedBy {s : State} {p : List Byte} {i : Nat} (h : ClaimedBy s (pidOf p) i) :
    (claimState s p).flight.claim = some i := routeOf_of_claimedBy h

theorem answers_claimed {s : State} {fr : List Byte} {i : Nat} (hacc : Accepts s fr) (hi : i < 16)
    (hclaim : (claimState s (packet fr)).flight.claim = some i) :
    Answers (.frame fr) s (claimedResult s (packet fr) i (afterClaim s (packet fr))) := by
  rw [← finalize_claimed hi hclaim]; exact answers_frame hacc

theorem claimedFrame_eq (i : Nat) (h : Word) (s : State) : claimedFrame i h s =
    if (afEvents i s).flight.ra then contextOp i h (afEvents i s) else afEvents i s := rfl

theorem contextOp_of_none {s : State} {i : Nat} (h : (ctxAt s i).cfg.kind = .none) (hd : Word) :
    contextOp i hd s = s := by
  rw [contextOp, h]; rfl

/-- Settles O50: the operation of a KIND NONE context is CTX_NONE, so that FINALIZE meets the frame with its AF and OPCR
records and the causes of its header and adaptation field. -/
theorem reportOnlyFrame : Obligations.ReportOnlyFrame := by
  intro s fr i c hs hacc p hclaimed hc hkind
  have hi := index_lt_of_inv hs hc
  have hclaim := claim_of_claimedBy hclaimed
  have hevents := afEvents_claimState hi (p := p) hc
  have hbody : afterClaim s p = afEvents i (claimState s p) := by
    have hctx : (ctxAt (afEvents i (claimState s p)) i).cfg.kind = .none := by rw [hevents]; exact ctxAt_of hc ▸ hkind
    rw [afterClaim_of_some hclaim, claimedFrame_eq, contextOp_of_none hctx, ite_self]
  have hanswer := answers_claimed hacc hi hclaim
  refine ⟨_, hanswer, ?_⟩
  rw [hbody, hevents, claimedResult_of_silent rfl rfl rfl, ← packetErrs_toNat, BitVec.or_assoc]; rfl

/-! ## The frame as the composition of its operations -/

theorem exec_decodeClass (h : Word) (s : State) : exec (decodeClass h) s = .next (pktClass h s) := by
  unfold decodeClass pktClass hdrAfc
  repeat' split
  all_goals rfl

theorem exec_decodeClaimed {s : State} {i : Nat} {kind : Kind} (h : (ctxAt s i).cfg.kind = kind) (hd : Word) :
    exec (decodeClaimed i kind hd) s = .next (contextOp i hd s) := by
  unfold decodeClaimed contextOp hdrPusi
  rw [h]
  cases kind with
  | none => rfl
  | sec => cases hd.getLsbD 22 <;> rfl
  | pes => cases hd.getLsbD 22 <;> rfl

/-- PKT_HDR, the class and ROUTE one after the other. -/
theorem execAll_up_to_claim (s : State) {p : List Byte} (hlen : p.length = 188) :
    execAll [.pktHdr (be32 p 0), decodeClass (be32 p 0), .route (be32 p 0)] (opened s p) = .next (claimState s p) := by
  rw [execAll_cons_of_next (t := pktHdr (be32 p 0) (opened s p)) rfl, execAll_cons_of_next (exec_decodeClass _ _),
    execAll_singleton, ← route_pktClass_opened s hlen]; rfl

/-- Settles O48: up to the claim, and then FINALIZE without one or after the context's operation. -/
theorem frameRunsItsOperations : Obligations.FrameRunsItsOperations := by
  intro s fr hs hacc p h
  have hh : h = be32 p 0 := (be32_zero_eq p).symm
  rw [hh]
  refine ⟨claimState s p, execAll_up_to_claim s (length_packet (length_of_accepts hacc)), ?unclaimed, ?claimed⟩
  case unclaimed =>
    intro hnone
    have hanswer := answers_frame hacc
    rw [finalize_unclaimed hnone] at hanswer
    refine ⟨_, hanswer, ?_⟩
    rw [be32_zero_eq]; rfl
  case claimed =>
    intro i c hclaim hc m1
    have hi := index_lt_of_inv hs hc
    have hm1 : afEvents i (claimState s p) = m1 := afEvents_claimState hi hc
    have hkind : (ctxAt m1 i).cfg.kind = c.cfg.kind := congrArg (fun c : Context => c.cfg.kind) (ctxAt_of hc)
    refine ⟨afterClaim s p, _, ?_, answers_claimed hacc hi hclaim, ?_⟩
    · rw [afterClaim_of_some hclaim, claimedFrame_eq, hm1]
      cases hra : m1.flight.ra with
      | true => simpa only [if_true] using exec_decodeClaimed hkind _
      | false => rfl
    · rw [be32_zero_eq]; rfl

end Sys2Proof.Machine
end

section
/-! PROOFS. The fields of a packet that a frame uses: SYNC, PID, PUSI, AFC and the bytes after the header (30_encoding.md
R130, 40_framer.md R205). -/

namespace Sys2Proof.Machine

open Sys2Proof.Claims

/-- A context's operation reads PUSI of the header word, and nothing else. -/
theorem contextOp_congr {h h' : Word} (hpusi : hdrPusi h = hdrPusi h') (i : Nat) (s : State) :
    contextOp i h s = contextOp i h' s := by rw [contextOp, hpusi]; rfl

/-- FINALIZE shows of the packet only whether it has an adaptation field, and its length. -/
theorem finalize_withPacket {s : State} {p : List Byte} {h : Word} (hdr : Word) (hh : hdrHasAf h = hdrHasAf s.flight.h)
    (hlen : afLen p = afLen s.flight.p) : finalize { s with lastHdr := hdr, flight := { s.flight with p := p, h := h } } =
      { finalize s with lastHdr := hdr } := by
  generalize ht : ({ s with lastHdr := hdr, flight := { s.flight with p := p, h := h } } : State) = t
  have hclaim : t.flight.claim = s.flight.claim := by rw [← ht]
  have hevents (i : Nat) : frameEvents i t.flight = frameEvents i s.flight := by
    subst ht
    simp only [frameEvents, errRecord?, errRecord, hh, hlen]
  cases hc : s.flight.claim with
  | none => rw [finalize_of_drop (hclaim.trans hc), finalize_of_drop hc, ← ht]
  | some i => rw [finalize_of_claim (hclaim.trans hc), finalize_of_claim hc, hevents, ← ht]

/-- Two packets that agree in every field a frame uses. -/
structure SameFields (p p' : List Byte) : Prop where
  sync       : byte p 0 = byte p' 0
  pid        : pidOf p = pidOf p'
  pusi       : pusiOf p = pusiOf p'
  hasAf      : hasAf p = hasAf p'
  hasPayload : hasPayload p = hasPayload p'
  rest       : p.drop 4 = p'.drop 4

namespace SameFields

variable {p p' : List Byte} (h : SameFields p p')
include h

/-! ## What is read of a packet -/

theorem getD_eq {n : Nat} (hn : 4 ≤ n) : p.getD n 0#8 = p'.getD n 0#8 := by
  have hdrop (q : List Byte) : q.getD n 0#8 = (q.drop 4).getD (n - 4) 0#8 := by
    simp [List.getD_eq_getElem?_getD, List.getElem?_drop, Nat.add_sub_cancel' hn]
  rw [hdrop, hdrop, h.rest]

theorem byte_eq {n : Nat} (hn : 4 ≤ n) : byte p n = byte p' n := congrArg BitVec.toNat (h.getD_eq hn)

theorem clock_eq {o : Nat} (ho : 4 ≤ o) : clockBaseOf p o = clockBaseOf p' o ∧ clockExtOf p o = clockExtOf p' o := by
  constructor
  · simp (disch := omega) only [clockBaseOf, h.byte_eq]
  · simp (disch := omega) only [clockExtOf, h.byte_eq]

theorem flag_eq (n : Nat) : afFlag p n = afFlag p' n := by rw [afFlag, h.byte_eq (by decide)]

theorem opcrNeeds_eq : opcrNeeds p = opcrNeeds p' := by rw [opcrNeeds, h.flag_eq]

theorem adaptation_eq : adaptation p = adaptation p' := by
  have hopcr : 4 ≤ opcrNeeds p' - 1 := by rw [opcrNeeds]; split <;> decide
  obtain ⟨hbase, hext⟩ := h.clock_eq (o := 6) (by decide)
  obtain ⟨hbase', hext'⟩ := h.clock_eq hopcr
  simp only [adaptation, pcrIn, opcrIn, h.flag_eq, h.opcrNeeds_eq, hbase, hext, hbase', hext', h.byte_eq (n := 4) le_rfl,
    h.getD_eq (n := 4) le_rfl, h.getD_eq (n := 5) (by decide)]

theorem afBad_eq : afBad p = afBad p' := by
  simp only [afBad, h.hasAf, h.flag_eq, h.opcrNeeds_eq, h.byte_eq (n := 4) le_rfl]

theorem payload_eq : payload p = payload p' := by
  have hdrop (n : Nat) : p.drop (4 + n) = p'.drop (4 + n) := by rw [← List.drop_drop, h.rest, List.drop_drop]
  have hafter : p.drop (5 + byte p 4) = p'.drop (5 + byte p' 4) := by
    rw [h.byte_eq le_rfl, show 5 + byte p' 4 = 4 + (1 + byte p' 4) by omega, hdrop]
  simp only [payload, h.hasPayload, h.hasAf, h.rest, hafter]

theorem lastAf_eq : lastAfOf p = lastAfOf p' := by
  simp only [lastAfOf, h.hasAf, h.byte_eq (n := 4) le_rfl, h.byte_eq (n := 5) (by decide)]

theorem pid_eq : hdrPid (be32 p 0) = hdrPid (be32 p' 0) :=
  BitVec.eq_of_toNat_eq (by rw [hdrPid_be32, hdrPid_be32, h.pid])

theorem pusi_eq : hdrPusi (be32 p 0) = hdrPusi (be32 p' 0) := by rw [hdrPusi_be32, hdrPusi_be32, h.pusi]

/-! ## The frame -/

/-- At the claim the states differ in the packet and its header word. -/
theorem claimState_eq (s : State) :
    claimState s p' = (claimState s p).withHead { (claimState s p).head with p := p', h := be32 p' 0 } := by
  refine Eq.trans ?_ (withHead_record (claimState s p) s.lastHdr s.lastAf p' (be32 p' 0)).symm
  simp only [claimState, claimFlight, packetAf, packetOk, packetErrs, reassembles, h.adaptation_eq, h.afBad_eq,
    h.payload_eq, h.pid_eq, h.sync, h.hasAf, h.hasPayload, h.byte_eq (n := 4) le_rfl]

theorem afterClaim_eq (s : State) : afterClaim s p' =
    (afterClaim s p).withHead { (afterClaim s p).head with p := p', h := be32 p' 0 } := by
  rw [head_afterClaim]
  have hsame : (claimState s p').flight.claim = (claimState s p).flight.claim := by rw [h.claimState_eq]; rfl
  cases hc : (claimState s p).flight.claim with
  | none => rw [afterClaim_of_none hc, afterClaim_of_none (hsame.trans hc), h.claimState_eq]
  | some i =>
    rw [afterClaim_of_some hc, afterClaim_of_some (hsame.trans hc), h.claimState_eq s, claimedFrame_withHead,
      claimedFrame_eq, claimedFrame_eq, contextOp_congr h.pusi_eq]

theorem latched_afterClaim_eq (s : State) : latched p' (afterClaim s p') =
    { latched p (afterClaim s p) with
      lastHdr := be32 p' 0
      flight := { (afterClaim s p).flight with p := p', h := be32 p' 0 } } := by
  rw [h.afterClaim_eq, latched, lastAfWord_be32, ← h.lastAf_eq, ← lastAfWord_be32]
  exact congrArg (fun t : State => { t with lastHdr := be32 p' 0, lastAf := lastAfWord (be32 p 0) p })
    (withHead_record (afterClaim s p) _ _ p' (be32 p' 0))

/-- The frames of the two packets end in states that differ in LAST_HDR. -/
theorem finalize_latched_eq (s : State) : finalize (latched p' (afterClaim s p')) =
    { finalize (latched p (afterClaim s p)) with lastHdr := be32 p' 0 } := by
  obtain ⟨i, evAf, evOpcr, ht⟩ := afterClaim_touches s p
  rw [h.latched_afterClaim_eq]
  refine finalize_withPacket (s := latched p (afterClaim s p)) _ ?_ ?_
  · exact (hdrHasAf_be32 p').trans (h.hasAf.symm.trans ((hdrHasAf_be32 p).symm.trans (congrArg hdrHasAf ht.h.symm)))
  · exact (h.getD_eq le_rfl).symm.trans (congrArg afLen ht.p.symm)

end SameFields

/-- Settles O53: at the claim the two frames differ in the packet alone, the operations of a context do not read it, and
FINALIZE writes LAST_HDR. -/
theorem ignoredHeaderBitsChangeNothing : Obligations.IgnoredHeaderBitsChangeNothing := by
  intro s fr fr' hacc hacc' p p' hsync hpid hpusi haf hpl hrest
  have h : SameFields p p' := ⟨hsync, hpid, hpusi, haf, hpl, hrest⟩
  have hanswer' := answers_frame hacc'
  rw [h.finalize_latched_eq, be32_zero_eq] at hanswer'
  exact ⟨_, answers_frame hacc, hanswer'⟩

end Sys2Proof.Machine
end

section
/-! PROOFS. The wire forms of a clock reference and of a timestamp: what their bytes are worth, wherever they stand in a
byte string (30_encoding.md R144, R152; 41_adaptation.md R246, 44_pes.md R371). -/

namespace Sys2Proof.Machine

open Sys2Proof.Claims

theorem timestampAt_eq (b : List Byte) (o : Nat) : timestampAt b o = BitVec.ofNat 33 (timestamp b o) :=
  eq_ofNat_of_toNat (timestampAt_toNat b o)

/-! ## A field in the middle of a byte string -/

section
variable (front rest : List Byte) {mid : List Byte}

theorem byte_middle {n : Nat} (h : n < mid.length) :
    byte (front ++ mid ++ rest) (front.length + n) = byte mid n := by
  rw [byte, List.append_assoc, List.getD_append_right _ _ _ _ (Nat.le_add_right _ _), Nat.add_sub_cancel_left,
    List.getD_append _ _ _ _ h]

theorem byte_middle_zero (h : 0 < mid.length) : byte (front ++ mid ++ rest) front.length = byte mid 0 :=
  byte_middle front rest h

theorem clockBaseOf_middle (h : mid.length = 6) :
    clockBaseOf (front ++ mid ++ rest) front.length = clockBaseOf mid 0 := by
  simp (disch := omega) only [clockBaseOf, byte_middle, byte_middle_zero, Nat.zero_add]

theorem clockExtOf_middle (h : mid.length = 6) :
    clockExtOf (front ++ mid ++ rest) front.length = clockExtOf mid 0 := by
  simp (disch := omega) only [clockExtOf, byte_middle, Nat.zero_add]

theorem timestamp_middle (h : mid.length = 5) :
    timestamp (front ++ mid ++ rest) front.length = timestamp mid 0 := by
  simp (disch := omega) only [timestamp, pair, Nat.add_assoc, Nat.reduceAdd, byte_middle, byte_middle_zero, Nat.zero_add]

end

/-! ## Encode, then decode -/

theorem clockBaseOf_clockBytes {base res ext : Nat} (hbase : base < 2 ^ 33) (hres : res < 64) (hext : ext < 512) :
    clockBaseOf (clockBytes base res ext) 0 = base := by
  simp only [clockBaseOf, byte, clockBytes, Nat.zero_add, List.getD_cons_zero, List.getD_cons_succ, BitVec.toNat_ofNat]
  omega

theorem clockExtOf_clockBytes {base res ext : Nat} (hext : ext < 512) :
    clockExtOf (clockBytes base res ext) 0 = ext := by
  simp only [clockExtOf, byte, clockBytes, Nat.zero_add, List.getD_cons_zero, List.getD_cons_succ, BitVec.toNat_ofNat]
  omega

theorem timestamp_timestampBytes {pre v : Nat} (hv : v < 2 ^ 33) : timestamp (timestampBytes pre v) 0 = v := by
  simp only [timestamp, pair, byte, timestampBytes, two, List.cons_append, List.nil_append, Nat.zero_add, Nat.reduceAdd,
    List.getD_cons_zero, List.getD_cons_succ, BitVec.toNat_ofNat]
  omega

theorem clockBase_encoded {base res ext : Nat} (hbase : base < 2 ^ 33) (hres : res < 64) (hext : ext < 512)
    (front rest : List Byte) :
    (clockBase (front ++ clockBytes base res ext ++ rest) front.length).toNat = base :=
  (clockBase_toNat _ _).trans ((clockBaseOf_middle front rest rfl).trans (clockBaseOf_clockBytes hbase hres hext))

theorem clockExt_encoded {base res ext : Nat} (hext : ext < 512) (front rest : List Byte) :
    (clockExt (front ++ clockBytes base res ext ++ rest) front.length).toNat = ext :=
  (clockExt_toNat _ _).trans ((clockExtOf_middle front rest rfl).trans (clockExtOf_clockBytes hext))

theorem timestampAt_encoded {pre v : Nat} (hv : v < 2 ^ 33) (front rest : List Byte) :
    timestampAt (front ++ timestampBytes pre v ++ rest) front.length = BitVec.ofNat 33 v := by
  rw [timestampAt_eq, timestamp_middle front rest rfl, timestamp_timestampBytes hv]

end Sys2Proof.Machine
end

section
/-! PROOFS. AF_DECODE, the two clock extractors and the two timestamp decoders, each by itself (41_adaptation.md R240 to
R246, 44_pes.md R369 to R371). -/

namespace Sys2Proof.Machine

open Sys2Proof.Claims

/-- Settles O31: the length byte is over 183, or the field is the packet's with its two clocks extracted under their
flags. -/
theorem adaptationFieldDecode : Obligations.AdaptationFieldDecode := by
  intro s h p _
  refine ⟨fun hlong => ?_, fun hfits => ?_⟩
  · exact congrArg Host.Outcome.next (afDecode_of_long hlong)
  · exact congrArg Host.Outcome.next (afDecode_of_fits hfits)

/-! ## The clock extractors (R243, R244) -/

theorem opcrOffset_eq (flags : Byte) : opcrOffset flags = if flags.toNat / 16 % 2 = 1 then 12 else 6 := by
  rw [opcrOffset, getLsbD_eq_beq]
  simp only [Nat.reducePow, beq_iff_eq]

section
variable {s : State} {af : AfInfo} (h : s.flight.af = some af)
include h

theorem pcrExtract_of_fits (hfit : 7 ≤ af.len.toNat) : pcrExtract s = { s with flight := { s.flight with
    af := some { af with pcrV := true, pcrBase := clockBase s.flight.p 6, pcrExt := clockExt s.flight.p 6 } } } := by
  rw [pcrExtract_eq h, decide_eq_true hfit, decide_eq_false (Nat.not_lt.mpr hfit), extracted_false]; rfl

theorem pcrExtract_of_short (hshort : af.len.toNat < 7) : pcrExtract s = raise .afLen s := by
  rw [pcrExtract_eq h, decide_eq_true hshort, decide_eq_false (Nat.not_le.mpr hshort), raise_afLen h]; rfl

theorem opcrExtract_of_fits {o : Nat} (hfit : o + 1 ≤ af.len.toNat) :
    opcrExtract o s = { s with flight := { s.flight with
      af := some { af with opcrV := true, opcrBase := clockBase s.flight.p o, opcrExt := clockExt s.flight.p o } } } := by
  rw [opcrExtract_eq h, decide_eq_true hfit, decide_eq_false (Nat.not_lt.mpr hfit), extracted_false]; rfl

theorem opcrExtract_of_short {o : Nat} (hshort : af.len.toNat < o + 1) : opcrExtract o s = raise .afLen s := by
  rw [opcrExtract_eq h, decide_eq_true hshort, decide_eq_false (Nat.not_le.mpr hshort), raise_afLen h]; rfl

end

/-- Settles O32: an extractor takes the clock where it fits and raises AF_LEN where it does not; the flags byte places
the OPCR. -/
theorem clockExtraction : Obligations.ClockExtraction := by
  intro s af flags haf _ p o
  have hopcr : exec (.opcrExtract flags) s = .next (opcrExtract o s) :=
    congrArg (fun n => Host.Outcome.next (opcrExtract n s)) (opcrOffset_eq flags)
  refine ⟨fun hfit => ?pcr, fun hshort => ?pcrShort, fun hfit => ?opcr, fun hshort => ?opcrShort⟩
  case pcr =>
    rw [← clockBase_eq, ← clockExt_eq]
    exact congrArg Host.Outcome.next (pcrExtract_of_fits haf hfit)
  case pcrShort => exact congrArg Host.Outcome.next (pcrExtract_of_short haf hshort)
  case opcr =>
    rw [← clockBase_eq, ← clockExt_eq]
    exact hopcr.trans (congrArg Host.Outcome.next (opcrExtract_of_fits haf hfit))
  case opcrShort => exact hopcr.trans (congrArg Host.Outcome.next (opcrExtract_of_short haf hshort))

/-! ## The timestamp decoders (44_pes.md R369, R370) -/

theorem ptsDecode_eq {s : State} {i : Nat} {c : Context} (h : s.ctx[i]? = some c) : ptsDecode i s =
    withCtx s i { c with st := { c.st with pts := timestampAt s.flight.pl 9, ptsV := true } } := onCtx_of h _

theorem dtsDecode_eq {s : State} {i : Nat} {c : Context} (h : s.ctx[i]? = some c) : dtsDecode i s =
    withCtx s i { c with st := { c.st with dts := timestampAt s.flight.pl 14, dtsV := true } } := onCtx_of h _

/-- Settles O33: PCR_EXTRACT reads the clock's bytes at byte 6 and the timestamp decoders theirs at bytes 9 and 14, and
each form decodes to what it encodes wherever it stands. -/
theorem clockAndTimestampRoundTrips : Obligations.ClockAndTimestampRoundTrips := by
  refine ⟨?clock, ?timestamp⟩
  case clock =>
    intro s af flags v res front rest hv hres haf hfit hfront hp
    have hbase : v / 300 < 2 ^ 33 := Nat.div_lt_of_lt_mul (Nat.mul_comm _ _ ▸ hv)
    have hext : v % 300 < 512 := (Nat.mod_lt v (by decide)).trans (by decide)
    refine ⟨_, _, congrArg Host.Outcome.next (pcrExtract_of_fits haf hfit), ?_, ?_⟩
    · rw [hp, ← hfront, clockBase_encoded hbase hres hext]
    · rw [hp, ← hfront, clockExt_encoded hext]
  case timestamp =>
    intro s i c b7 v pre front rest hv _ hc hpl
    have hval {o : Nat} (ho : front.length = o) : timestampAt s.flight.pl o = BitVec.ofNat 33 v := by
      rw [hpl, ← ho, timestampAt_encoded hv]
    refine ⟨fun hfront => ?_, fun hfront => ?_⟩
    · rw [← hval hfront]
      exact congrArg Host.Outcome.next (ptsDecode_eq hc)
    · rw [← hval hfront]
      exact congrArg Host.Outcome.next (dtsDecode_eq hc)

end Sys2Proof.Machine
end

section
/-! PROOFS. APPEND, the section boundary and the section operations (42_section.md R275 to R281, 44_pes.md R360). -/

namespace Sys2Proof.Machine

open Sys2Proof.Claims

/-! ## APPEND (R278) -/

/-- A unit begun with bytes `a` and appended to is the unit begun with all of them. -/
theorem appended_begun (k : BitVec 32) (cap : Nat) (a b : List Byte) (ptrErr : Bool) :
    appended cap b (begun k cap a ptrErr) = begun k cap (a ++ b) ptrErr := by
  have hbuf : a.take cap ++ b.take (cap - (a.take cap).length) = (a ++ b).take cap := by
    rw [List.take_append, List.length_take]
    congr 2
    omega
  have hovf : (decide (cap < a.length) || decide (cap - (a.take cap).length < b.length)) =
      decide (cap < (a ++ b).length) := by
    rw [← Bool.decide_or, List.length_take, List.length_append]
    congr 1
    exact propext (by omega)
  simp only [appended, hbuf, hovf]

/-- Bytes that fit raise nothing. -/
theorem overflowBit_begun {k : BitVec 32} {cap : Nat} {a b : List Byte} {ptrErr : Bool} (h : (a ++ b).length ≤ cap) :
    overflowBit cap b (begun k cap a ptrErr) = 0#7 := by
  have hroom : ¬ cap - (a.take cap).length < b.length := by
    rw [List.length_append] at h
    rw [List.length_take]
    omega
  rw [overflowBit, decide_eq_false hroom]; rfl

theorem ctxBegin_eq_begun (k : BitVec 32) (cap : Nat) (bad : Bool) :
    { ctxBegin k with ptrErr := bad } = begun k cap [] bad := by
  simp [ctxBegin, CtxState.reset]

section
variable {cap : Nat} {c : CtxState} (hfits : c.buf.length ≤ cap) (b : List Byte)
include hfits

theorem room_lt_iff : cap - c.buf.length < b.length ↔ cap < c.buf.length + b.length := by omega

theorem appended_eq_fill : appended cap b c = { c with
    buf := fill cap c.buf b, ovf := c.ovf || decide (cap < c.buf.length + b.length) } := by
  simp only [appended, room_lt_iff hfits, fill, List.take_append, List.take_of_length_le hfits]

theorem overflowBit_eq_mask :
    overflowBit cap b c = mask (decide (cap < c.buf.length + b.length) && !c.ovf) 5 := by
  simp only [overflowBit, room_lt_iff hfits, Cause.maskIf_eq_mask, Cause.code]

end

/-- SEC_CONT and PES_CONT are one operation. -/
theorem pesCont_eq_secCont (i : Nat) (s : State) : pesCont i s = secCont i s := rfl

theorem secCont_idle {s : State} {i : Nat} {c : Context} (h : s.ctx[i]? = some c) (hp : c.st.pending = false) :
    secCont i s = s := by
  rw [secCont, ctxAt_of h, hp]; rfl

theorem secCont_pending {s : State} {i : Nat} {c : Context} (h : s.ctx[i]? = some c) (hp : c.st.pending = true) :
    secCont i s = appendUnit i s.flight.pl s := by
  rw [secCont, ctxAt_of h, if_pos hp]

/-- Settles O36: both operations append the payload of the frame to a unit in progress. -/
theorem continuationAppends : Obligations.ContinuationAppends := by
  intro s i c h cap lost hc hfits op hop
  have hexec : exec op s = .next (secCont i s) := by
    obtain rfl | rfl : op = .secCont i h ∨ op = .pesCont i h := by simpa using hop
    · rfl
    · exact congrArg Host.Outcome.next (pesCont_eq_secCont i s)
  refine ⟨fun hp => by rw [Answers, hexec, secCont_idle hc hp], fun hp => ?_⟩
  rw [Answers, hexec, secCont_pending hc hp, appendUnit_eq hc, appended_eq_fill hfits, overflowBit_eq_mask hfits]

/-! ## SEC_START (R276, R280, R281) -/

/-- The next unit begins with the bytes from the pointed-to one. -/
theorem openSection_begun {s : State} {i : Nat} {c : Context} (h : s.ctx[i]? = some c) (rest : List Byte) (bad : Bool) :
    openSection i rest bad s = { s with
      ctx := s.ctx.set i ⟨c.cfg, begun s.flight.k (s.params.bufBytes i) rest bad⟩
      flight := { s.flight with
        errs := s.flight.errs ||| mask (decide (s.params.bufBytes i < rest.length)) 5 } } := by
  rw [openSection_eq h, ctxBegin_eq_begun _ (s.params.bufBytes i), appended_begun,
    overflowBit_eq_mask (c := ctxBegin s.flight.k) (Nat.zero_le _)]
  simp [ctxBegin, CtxState.reset]

theorem secStart_of_empty {s : State} (h : s.flight.pl = []) (i : Nat) : secStart i s = raise .pointer s := by
  rw [secStart, h]; rfl

/-- The state in which SEC_START splits a payload: the pointer field is read, and POINTER raised when it does not fit. -/
def pointerRead (s : State) : State :=
  { s with flight := { s.flight with
    ptr := some (s.flight.pl.getD 0 0#8)
    errs := s.flight.errs ||| mask (decide (s.flight.pl.length < 1 + byte s.flight.pl 0)) 2 } }

theorem secStart_of_nonempty {s : State} (h : s.flight.pl ≠ []) (i : Nat) : secStart i s =
    openSection i (s.flight.pl.drop (1 + byte s.flight.pl 0)) (decide (s.flight.pl.length < 1 + byte s.flight.pl 0))
      (closeSection i ((s.flight.pl.drop 1).take (byte s.flight.pl 0))
        (decide (s.flight.pl.length < 1 + byte s.flight.pl 0)) (pointerRead s)) := by
  have hrest (pl : List Byte) (n : Nat) : slice pl (min n pl.length) pl.length = pl.drop n := by
    rw [slice_to_end rfl]
    by_cases hn : n ≤ pl.length
    · rw [Nat.min_eq_left hn]
    · rw [Nat.min_eq_right (by omega), List.drop_length, List.drop_eq_nil_of_le (by omega)]
  have htail (pl : List Byte) (n : Nat) : slice pl 1 (min (1 + n) pl.length) = (pl.drop 1).take n := by
    rw [slice, ← List.take_take, List.take_length, List.drop_take, Nat.add_sub_cancel_left]
  unfold secStart
  extract_lets pl ptr bad n s₁
  have hs₁ : s₁ = pointerRead s := by
    simp only [s₁, raiseIf_eq, Cause.maskIf_eq_mask]; rfl
  rw [if_neg (by simpa using h), hs₁]
  exact congrArg₂ (fun rest tail => openSection i rest bad (closeSection i tail bad (pointerRead s)))
    (hrest pl _) (htail pl _)

/-- Settles O37: a payload without a byte raises POINTER; at a first boundary nothing is closed. -/
theorem sectionStartBegins : Obligations.SectionStartBegins := by
  intro s i c h pl cap bad rest hc
  refine ⟨fun hpl => ?empty, fun hpl hp => ?first⟩
  case empty =>
    change Host.Outcome.next (secStart i s) = _
    rw [secStart_of_empty hpl]; rfl
  case first =>
    change Host.Outcome.next (secStart i s) = _
    rw [secStart_of_nonempty hpl, closeSection_idle (s := pointerRead s) hc hp, openSection_begun (s := pointerRead s) hc]
    rfl

/-! ## A section boundary with a unit in progress (R276, R279) -/

theorem patDecode_withCtx (s : State) (i : Nat) (c : Context) :
    patDecode (withCtx s i c) = withCtx (patDecode s) i c := by
  unfold patDecode
  cases s.flight.unit with
  | none => rfl
  | some u =>
    dsimp only
    cases patParse u.data with
    | none => rfl
    | some sec => simp only [patCommit, raiseIf_eq]; rfl

theorem pmtDecode_withCtx (s : State) (i : Nat) (c : Context) :
    pmtDecode (withCtx s i c) = withCtx (pmtDecode s) i c := by
  unfold pmtDecode
  cases s.flight.unit with
  | none => rfl
  | some u =>
    dsimp only
    cases pmtParse u.data with
    | none => rfl
    | some sec => simp only [pmtCommit, raiseIf_eq]; rfl

/-- The table decoders do not look at the contexts. -/
theorem decodeTable_withCtx (cfg : CtxCfg) (s : State) (i : Nat) (c : Context) :
    decodeTable cfg (withCtx s i c) = withCtx (decodeTable cfg s) i c := by
  unfold decodeTable
  split
  · exact patDecode_withCtx s i c
  · exact pmtDecode_withCtx s i c
  · rfl

theorem unitOf_sec {c : Context} (h : c.cfg.kind = .sec) (i : Nat) (seq : BitVec 16) (k : BitVec 32) :
    unitOf i c seq k = closed i false c.st seq k := by
  simp [unitOf, h]

theorem closing_eq_fill {cap : Nat} {c : CtxState} (hfits : c.buf.length ≤ cap) (tail : List Byte) (bad : Bool) :
    closing cap tail bad c = { c with
      buf := fill cap c.buf tail
      ovf := c.ovf || decide (cap < c.buf.length + tail.length)
      ptrErr := c.ptrErr || bad } := by
  rw [closing, appended_eq_fill hfits]

/-- The state in which a section boundary decodes the unit it emits: `last` is what the context's unit closes to. -/
def boundary (i : Nat) (last : CtxState) (errs : BitVec 7) (s : State) : State :=
  { s with
    seq := s.seq + 1
    flight := { s.flight with errs := errs, unit := some (closed i false last s.seq s.flight.k) } }

/-- A boundary closes the unit in progress, emits it and decodes it. -/
theorem closeSection_emitting {s : State} {i : Nat} {c : Context} (h : s.ctx[i]? = some c) (hsec : c.cfg.kind = .sec)
    (hp : c.st.pending = true) (tail : List Byte) (bad : Bool) :
    let cap := s.params.bufBytes i
    closeSection i tail bad s = withCtx
      (decodeTable c.cfg (boundary i (closing cap tail bad c.st) (s.flight.errs ||| overflowBit cap tail c.st) s)) i
      ⟨c.cfg, { closing cap tail bad c.st with pending := false }⟩ := by
  intro cap
  have hdecode := decodeTable_withCtx c.cfg
    (boundary i (closing cap tail bad c.st) (s.flight.errs ||| overflowBit cap tail c.st) s) i
    ⟨c.cfg, closing cap tail bad c.st⟩
  rw [closeSection_pending h hp, unitOf_sec (c := ⟨c.cfg, closing cap tail bad c.st⟩) hsec]
  refine (congrArg (onCtx i fun c => { c with pending := false }) hdecode).trans ?_
  generalize hu : decodeTable c.cfg (boundary i _ _ s) = u
  have hc : u.ctx[i]? = some c := by rw [← hu, decodeTable_ctx]; exact h
  rw [onCtx_of (getElem?_set_of hc _)]
  exact congrArg (fun ctx => { u with ctx := ctx }) (List.set_set _)

/-- A new unit begins in a context whatever the boundary left of the old one. -/
theorem openSection_withCtx {s : State} {i : Nat} {c : Context} (h : s.ctx[i]? = some c) (st : CtxState)
    (rest : List Byte) (bad : Bool) : openSection i rest bad (withCtx s i ⟨c.cfg, st⟩) = openSection i rest bad s := by
  rw [openSection_begun (getElem?_set_of h _), openSection_begun h]
  simp only [List.set_set]

/-- Settles O38: the unit closes with the bytes before the pointed-to one, and PARSE selects the decoder of what it emits. -/
theorem sectionBoundaryEmits : Obligations.SectionBoundaryEmits := by
  intro s u i c h cfg pl cap bad tail rest lost last emitted hc hfits hsec hpl hp hu
  have hlast : boundary i (closing cap tail bad c.st) ((pointerRead s).flight.errs ||| overflowBit cap tail c.st)
      (pointerRead s) = emitted := by
    rw [closing_eq_fill hfits, overflowBit_eq_mask hfits, boundary, add_one_eq_ofNat]; rfl
  have hdecode : decodeTable c.cfg emitted = u := by
    unfold decodeTable
    rw [hsec]
    cases hparse : c.cfg.parse with
    | none => rw [hparse] at hu; exact hu.symm
    | pat => rw [hparse] at hu; exact Host.Outcome.next.inj hu
    | pmt => rw [hparse] at hu; exact Host.Outcome.next.inj hu
  have hctx : u.ctx = s.ctx := by rw [← hdecode]; exact decodeTable_ctx c.cfg emitted
  have ht : Touches i emitted u := hdecode ▸ touches_decodeTable i c.cfg emitted
  have hk : u.flight.k = s.flight.k := ht.k
  have hparams : u.params = s.params := ht.params
  have hcu : u.ctx[i]? = some c := hctx ▸ hc
  have hclosed : closeSection i tail bad (pointerRead s) =
      withCtx u i ⟨c.cfg, { closing cap tail bad c.st with pending := false }⟩ := by
    rw [← hdecode, ← hlast]
    exact closeSection_emitting (s := pointerRead s) hc hsec hp tail bad
  change Host.Outcome.next (secStart i s) = _
  rw [secStart_of_nonempty hpl, hclosed, openSection_withCtx hcu, openSection_begun hcu, hctx, hk, hparams]

end Sys2Proof.Machine
end

section
/-! PROOFS. A section over several frames of one context: a start packet, continuations and the next start packet
(42_section.md R285). -/

namespace Sys2Proof.Machine

open Sys2Proof.Claims

/-! ## A frame that raises nothing (40_framer.md R200, R215) -/

section
variable {s : State} {fr : List Byte} {i : Nat}

theorem accepts_of_clean (hopen : Open s) (hclean : Clean s i fr) : Accepts s fr := by
  obtain ⟨hen, hslots, hunits⟩ := hopen
  obtain ⟨hlen, -⟩ := hclean
  exact ⟨hen, hslots, hunits.ne, hlen⟩

theorem claimedBy_of_clean (hclean : Clean s i fr) : ClaimedBy s (pidOf (packet fr)) i := by
  obtain ⟨-, hclaimed, -⟩ := hclean
  exact hclaimed

theorem length_packet_of_clean (hopen : Open s) (hclean : Clean s i fr) : (packet fr).length = 188 :=
  length_packet (length_of_accepts (accepts_of_clean hopen hclean))

theorem packetErrs_of_clean (hclean : Clean s i fr) : packetErrs (packet fr) = 0#7 := by
  obtain ⟨-, -, hsync, haf⟩ := hclean
  rw [packetErrs, haf, hsync]; rfl

/-- A claimed frame of a context that reports no adaptation field goes straight to the context's operation. -/
theorem afterClaim_of_unreported {p : List Byte} {c : Context} (hclaimed : ClaimedBy s (pidOf p) i)
    (hc : s.ctx[i]? = some c) (hafev : c.cfg.afev = false) : afterClaim s p =
      if reassembles p then contextOp i (be32 p 0) (claimState s p) else claimState s p := by
  have hctx : ctxAt (claimState s p) i = c := ctxAt_of hc
  have hsilent : afEvents i (claimState s p) = claimState s p :=
    afEvents_of_silent fun af _ => .inl (hctx ▸ hafev)
  rw [afterClaim_of_some (claim_of_claimedBy hclaimed), claimedFrame_eq, hsilent]; rfl

/-- FINALIZE of a claimed frame that raises no cause and has no event, in the state `u` that its operation leaves. -/
def quietResult (s : State) (p : List Byte) (u : State) : State :=
  { u with
    lastHdr := BitVec.ofNat 32 (header p)
    lastAf := BitVec.ofNat 32 (lastAfOf p)
    uq := s.uq ++ u.flight.unit.toList
    evq := s.evq
    errStatus := s.errStatus
    pktIndex := s.pktIndex + 1
    flight := .idle }

theorem claimedResult_of_quiet {p : List Byte} {u : State} (herrs : u.flight.errs = 0#7) (hevAf : u.flight.evAf = none)
    (hevOpcr : u.flight.evOpcr = none) (hevTbl : u.flight.evTbl = none) : claimedResult s p i u = quietResult s p u := by
  simp only [claimedResult, quietResult, herrs, hevAf, hevOpcr, hevTbl, errorRecord, BitVec.toNat_zero, if_true,
    Option.toList_none, List.append_nil, BitVec.or_zero, add_one_eq_ofNat]

theorem quietResult_of_no_unit {p : List Byte} {u : State} (hunit : u.flight.unit = none) :
    quietResult s p u = { u with
      lastHdr := BitVec.ofNat 32 (header p)
      lastAf := BitVec.ofNat 32 (lastAfOf p)
      uq := s.uq
      evq := s.evq
      errStatus := s.errStatus
      pktIndex := s.pktIndex + 1
      flight := .idle } := by
  rw [quietResult, hunit, Option.toList_none, List.append_nil]

theorem answers_quiet (hopen : Open s) (hi : i < 16) (hclean : Clean s i fr) {u : State}
    (hop : afterClaim s (packet fr) = u) (herrs : u.flight.errs = packetErrs (packet fr)) (hevAf : u.flight.evAf = none)
    (hevOpcr : u.flight.evOpcr = none) (hevTbl : u.flight.evTbl = none) :
    Answers (.frame fr) s (quietResult s (packet fr) u) := by
  rw [← claimedResult_of_quiet (i := i) (herrs.trans (packetErrs_of_clean hclean)) hevAf hevOpcr hevTbl, ← hop]
  exact answers_claimed (accepts_of_clean hopen hclean) hi (claim_of_claimedBy (claimedBy_of_clean hclean))

end

/-! ## The operations of a section context -/

section
variable {s : State} {i : Nat} {c : Context} (hc : s.ctx[i]? = some c)

/-- SEC_START of a payload whose pointer field fits: `a` are the bytes before the pointed-to one, `b` the rest. -/
theorem secStart_of_pointer {ptr : Byte} {a b : List Byte} (hpl : s.flight.pl = ptr :: (a ++ b))
    (ha : a.length = ptr.toNat) : secStart i s =
      openSection i b false (closeSection i a false (onFlight (fun f => { f with ptr := some ptr }) s)) := by
  have hptr : byte s.flight.pl 0 = a.length := by rw [hpl, ha]; rfl
  have hfits : decide (s.flight.pl.length < 1 + byte s.flight.pl 0) = false := by
    rw [hptr, hpl, List.length_cons, List.length_append, decide_eq_false_iff_not]; omega
  have hread : pointerRead s = onFlight (fun f => { f with ptr := some ptr }) s := by
    rw [pointerRead, hfits, hpl, mask_false, BitVec.or_zero]; rfl
  have hrest : s.flight.pl.drop (1 + a.length) = b := by rw [hpl, Nat.add_comm]; simp
  have htail : (s.flight.pl.drop 1).take a.length = a := by rw [hpl]; simp
  rw [secStart_of_nonempty (by rw [hpl]; exact List.cons_ne_nil _ _), hfits, hread, hptr, hrest, htail]

include hc

/-- The next unit begins with bytes that fit. -/
theorem openSection_of_fits {b : List Byte} (hb : b.length ≤ s.params.bufBytes i) (bad : Bool) :
    openSection i b bad s = withCtx s i ⟨c.cfg, begun s.flight.k (s.params.bufBytes i) b bad⟩ := by
  rw [openSection_begun hc, decide_eq_false (Nat.not_lt.mpr hb), mask_false, BitVec.or_zero]

theorem secStart_first {ptr : Byte} {a b : List Byte} (hp : c.st.pending = false)
    (hpl : s.flight.pl = ptr :: (a ++ b)) (ha : a.length = ptr.toNat) (hb : b.length ≤ s.params.bufBytes i) :
    secStart i s = withCtx (onFlight (fun f => { f with ptr := some ptr }) s) i
      ⟨c.cfg, begun s.flight.k (s.params.bufBytes i) b false⟩ := by
  rw [secStart_of_pointer hpl ha, closeSection_idle (s := onFlight _ s) hc hp,
    openSection_of_fits (s := onFlight _ s) hc hb]
  rfl

section
variable {k : BitVec 32} {buf : List Byte} (hst : c.st = begun k (s.params.bufBytes i) buf false)
include hst

theorem secCont_of_fits (hb : (buf ++ s.flight.pl).length ≤ s.params.bufBytes i) :
    secCont i s = withCtx s i ⟨c.cfg, begun k (s.params.bufBytes i) (buf ++ s.flight.pl) false⟩ := by
  rw [secCont_pending hc (by rw [hst]), appendUnit_eq hc, hst, overflowBit_begun hb, appended_begun, BitVec.or_zero]

theorem secStart_next {ptr : Byte} {a b : List Byte} (hsec : c.cfg.kind = .sec) (hparse : c.cfg.parse = .none)
    (hpl : s.flight.pl = ptr :: (a ++ b)) (ha : a.length = ptr.toNat)
    (hfits : (buf ++ a).length ≤ s.params.bufBytes i) (hb : b.length ≤ s.params.bufBytes i) :
    secStart i s = withCtx
      (boundary i (begun k (s.params.bufBytes i) (buf ++ a) false) s.flight.errs
        (onFlight (fun f => { f with ptr := some ptr }) s)) i
      ⟨c.cfg, begun s.flight.k (s.params.bufBytes i) b false⟩ := by
  have hclosing : closing (s.params.bufBytes i) a false c.st = begun k (s.params.bufBytes i) (buf ++ a) false := by
    rw [closing, hst, appended_begun]; rfl
  have hover : overflowBit (s.params.bufBytes i) a c.st = 0#7 := by rw [hst, overflowBit_begun hfits]
  have hnone (t : State) : decodeTable c.cfg t = t := by rw [decodeTable, hsec, hparse]
  rw [secStart_of_pointer hpl ha, closeSection_emitting (s := onFlight _ s) hc hsec (by rw [hst]), hnone,
    openSection_withCtx (s := boundary i _ _ (onFlight _ s)) hc,
    openSection_of_fits (s := boundary i _ _ (onFlight _ s)) hc hb]
  simp only [onFlight_params, onFlight_flight, hclosing, hover, BitVec.or_zero]; rfl

end
end

/-! ## The operation of a frame of a section context -/

theorem payload_eq_nil {p : List Byte} (hlen : p.length = 188) (h : reassembles p = false) : payload p = [] := by
  by_contra hne
  exact absurd (reassembles_of_payload hlen hne) (by simp [h])

/-- A packet with no payload byte adds nothing. -/
theorem secCont_of_empty {s : State} (h : s.flight.pl = []) (i : Nat) : secCont i s = s := by
  unfold secCont
  split
  · rw [h, appendUnit, if_pos (show [].length ≤ roomAt s i from Nat.zero_le _)]
    simp only [List.append_nil]
    exact onCtx_same i s
  · rfl

section
variable {s : State} {fr : List Byte} {i : Nat} {c : Context} (hclean : Clean s i fr) (hc : s.ctx[i]? = some c)
  (hsec : c.cfg.kind = .sec) (hafev : c.cfg.afev = false) (hlen : (packet fr).length = 188)
include hclean hc hsec hafev hlen

theorem afterClaim_secStart (hpusi : pusiOf (packet fr) = true) (hpl : payload (packet fr) ≠ []) :
    afterClaim s (packet fr) = secStart i (claimState s (packet fr)) := by
  have hkind : (ctxAt (claimState s (packet fr)) i).cfg.kind = .sec := hsec ▸ congrArg (·.cfg.kind) (ctxAt_of hc)
  rw [afterClaim_of_unreported (claimedBy_of_clean hclean) hc hafev, if_pos (reassembles_of_payload hlen hpl),
    contextOp, hkind, hdrPusi_be32, hpusi]; rfl

theorem afterClaim_secCont (hpusi : pusiOf (packet fr) = false) :
    afterClaim s (packet fr) = secCont i (claimState s (packet fr)) := by
  have hkind : (ctxAt (claimState s (packet fr)) i).cfg.kind = .sec := hsec ▸ congrArg (·.cfg.kind) (ctxAt_of hc)
  rw [afterClaim_of_unreported (claimedBy_of_clean hclean) hc hafev, contextOp, hkind, hdrPusi_be32, hpusi]
  cases hra : reassembles (packet fr) with
  | true => rfl
  | false =>
    rw [secCont_of_empty (s := claimState s (packet fr)) (payload_eq_nil hlen hra)]; rfl

end

/-! ## The frames of a unit (R285) -/

/-- The state after `n` frames of context i from `s`, the first a start packet that began a unit and the last of packet
`p`: the unit in progress holds the bytes `b`. -/
def gathering (s : State) (i : Nat) (cfg : CtxCfg) (b : List Byte) (n : Nat) (p : List Byte) : State :=
  { s with
    ctx := s.ctx.set i ⟨cfg, begun s.pktIndex (s.params.bufBytes i) b false⟩
    pktIndex := s.pktIndex + BitVec.ofNat 32 n
    lastHdr := BitVec.ofNat 32 (header p)
    lastAf := BitVec.ofNat 32 (lastAfOf p)
    flight := .idle }

/-- One more frame, of packet `q`, after which the unit holds the bytes `b'`. -/
theorem gathering_next (s : State) (i : Nat) (cfg : CtxCfg) (b b' : List Byte) (n : Nat) (p q : List Byte) :
    { withCtx (gathering s i cfg b n p) i ⟨cfg, begun s.pktIndex (s.params.bufBytes i) b' false⟩ with
      lastHdr := BitVec.ofNat 32 (header q)
      lastAf := BitVec.ofNat 32 (lastAfOf q)
      pktIndex := (gathering s i cfg b n p).pktIndex + 1 } = gathering s i cfg b' (n + 1) q := by
  have hindex : s.pktIndex + BitVec.ofNat 32 n + 1 = s.pktIndex + BitVec.ofNat 32 (n + 1) := by
    rw [BitVec.ofNat_add, ← BitVec.add_assoc]; rfl
  simp only [gathering, List.set_set, hindex]

theorem le_bufBytes_of_inv {s : State} (hs : s.Inv) {i : Nat} {c : Context} (hc : s.ctx[i]? = some c) :
    188 ≤ s.params.bufBytes i := by
  have hlt : i < s.params.ctxBufBytes.length := (List.getElem?_eq_some_iff.mp hc).1.trans_eq hs.contexts
  obtain ⟨-, -, hsizes, -⟩ := hs.legal
  rw [Params.bufBytes, List.getD_eq_getElem _ _ hlt]
  exact (hsizes _ (List.getElem_mem hlt)).1

theorem length_payload_le {p : List Byte} (hlen : p.length = 188) : (payload p).length ≤ 188 := by
  unfold payload
  split
  · split <;> rw [List.length_drop] <;> omega
  · exact Nat.zero_le _

theorem runFrames_cons {s t : State} {fr : List Byte} (h : Answers (.frame fr) s t) (rest : List (List Byte)) :
    runFrames (fr :: rest) s = runFrames rest t := by
  simp only [runFrames, h]

section
variable {s : State} {i : Nat} {c : Context} (hopen : Open s) (hi : i < 16) (hc : s.ctx[i]? = some c)
  (hsec : c.cfg.kind = .sec) (hafev : c.cfg.afev = false)
include hc

/-- A frame that is clean at the start is clean while the unit gathers: the configurations stay. -/
theorem clean_gathering {fr : List Byte} (hclean : Clean s i fr) (b : List Byte) (n : Nat) (p : List Byte) :
    Clean (gathering s i c.cfg b n p) i fr := by
  obtain ⟨hlen, ⟨⟨c', hc', hclaims⟩, hlower⟩, herrs⟩ := hclean
  obtain rfl : c = c' := Option.some.inj (hc.symm.trans hc')
  refine ⟨hlen, ⟨⟨_, getElem?_set_of hc _, hclaims⟩, fun j hj d hd => hlower j hj d ?_⟩, herrs⟩
  rwa [gathering, List.getElem?_set_ne (Nat.ne_of_gt hj)] at hd

include hopen hi hsec hafev

/-- The first start packet begins the unit with the bytes from the pointed-to one. -/
theorem answers_firstStart {fr : List Byte} {ptr : Byte} {a b : List Byte} (hclean : Clean s i fr)
    (hp : c.st.pending = false) (hpusi : pusiOf (packet fr) = true) (hpl : payload (packet fr) = ptr :: (a ++ b))
    (ha : a.length = ptr.toNat) (hb : b.length ≤ s.params.bufBytes i) :
    Answers (.frame fr) s (gathering s i c.cfg b 1 (packet fr)) := by
  have hlen := length_packet_of_clean hopen hclean
  have hop := (afterClaim_secStart hclean hc hsec hafev hlen hpusi (by simp [hpl])).trans
    (secStart_first (s := claimState s (packet fr)) hc hp hpl ha hb)
  have hanswer := answers_quiet hopen hi hclean hop rfl rfl rfl rfl
  rw [quietResult_of_no_unit rfl] at hanswer
  exact hanswer

/-- A continuation adds its payload to the unit in progress. -/
theorem answers_continuation {fr : List Byte} (hclean : Clean s i fr) (hpusi : pusiOf (packet fr) = false)
    {buf : List Byte} (hfits : (buf ++ payload (packet fr)).length ≤ s.params.bufBytes i) (n : Nat) (p : List Byte) :
    Answers (.frame fr) (gathering s i c.cfg buf n p)
      (gathering s i c.cfg (buf ++ payload (packet fr)) (n + 1) (packet fr)) := by
  have hlen := length_packet_of_clean hopen hclean
  have hclean' := clean_gathering hc hclean buf n p
  have hopen' : Open (gathering s i c.cfg buf n p) := hopen
  have hc' : (claimState (gathering s i c.cfg buf n p) (packet fr)).ctx[i]? = some _ := getElem?_set_of hc _
  have hop := (afterClaim_secCont hclean' hc' hsec hafev hlen hpusi).trans (secCont_of_fits hc' rfl hfits)
  have hanswer := answers_quiet hopen' hi hclean' hop rfl rfl rfl rfl
  rw [quietResult_of_no_unit rfl] at hanswer
  exact hanswer.trans (congrArg Host.Outcome.next (gathering_next s i c.cfg buf _ n p (packet fr)))

/-- The next start packet closes the unit in progress and emits it. -/
theorem answers_nextStart {fr : List Byte} {ptr : Byte} {a b : List Byte} (hparse : c.cfg.parse = .none)
    (hclean : Clean s i fr) (hpusi : pusiOf (packet fr) = true) (hpl : payload (packet fr) = ptr :: (a ++ b))
    (ha : a.length = ptr.toNat) (hb : b.length ≤ s.params.bufBytes i) {buf : List Byte}
    (hfits : (buf ++ a).length ≤ s.params.bufBytes i) (n : Nat) (p : List Byte) :
    ∃ t, Answers (.frame fr) (gathering s i c.cfg buf n p) t ∧ t.evq = s.evq ∧
      t.uq = s.uq ++ [closed i false (begun s.pktIndex (s.params.bufBytes i) (buf ++ a) false) s.seq
        (s.pktIndex + BitVec.ofNat 32 n)] := by
  have hlen := length_packet_of_clean hopen hclean
  have hclean' := clean_gathering hc hclean buf n p
  have hopen' : Open (gathering s i c.cfg buf n p) := hopen
  have hc' : (claimState (gathering s i c.cfg buf n p) (packet fr)).ctx[i]? = some _ := getElem?_set_of hc _
  have hop := (afterClaim_secStart hclean' hc' hsec hafev hlen hpusi (by simp [hpl])).trans
    (secStart_next hc' rfl hsec hparse hpl ha hfits hb)
  exact ⟨_, answers_quiet hopen' hi hclean' hop rfl rfl rfl rfl, rfl, rfl⟩

/-- Any number of continuations, one after the other. -/
theorem runFrames_conts (conts : List (List Byte)) : ∀ (buf : List Byte) (n : Nat) (p : List Byte),
    (∀ fr ∈ conts, Clean s i fr) → (∀ fr ∈ conts, pusiOf (packet fr) = false) →
    (buf ++ (conts.map (fun fr => payload (packet fr))).flatten).length ≤ s.params.bufBytes i →
    ∃ p', ∀ rest, runFrames (conts ++ rest) (gathering s i c.cfg buf n p) = runFrames rest
      (gathering s i c.cfg (buf ++ (conts.map (fun fr => payload (packet fr))).flatten) (n + conts.length) p') := by
  induction conts with
  | nil => exact fun buf n p _ _ _ => ⟨p, fun rest => by simp⟩
  | cons fr conts ih =>
    intro buf n p hclean hpusi hfits
    rw [List.map_cons, List.flatten_cons, ← List.append_assoc] at hfits ⊢
    have hfits' : (buf ++ payload (packet fr)).length ≤ s.params.bufBytes i := by
      rw [List.length_append] at hfits; omega
    have hcont := answers_continuation hopen hi hc hsec hafev (hclean fr List.mem_cons_self)
      (hpusi fr List.mem_cons_self) hfits' n p
    obtain ⟨p', hrest⟩ := ih (buf ++ payload (packet fr)) (n + 1) (packet fr)
      (fun fr' h => hclean fr' (List.mem_cons_of_mem _ h)) (fun fr' h => hpusi fr' (List.mem_cons_of_mem _ h)) hfits
    refine ⟨p', fun rest => ?_⟩
    rw [List.cons_append, runFrames_cons hcont, hrest, List.length_cons, Nat.add_assoc, Nat.add_comm 1]

end

/-- Settles O54: the first start packet begins a unit, by induction the continuations add their payloads to it, and the
next start packet closes and emits it. -/
theorem sectionReassemblyRoundTrip : Obligations.SectionReassemblyRoundTrip := by
  intro s i c first last conts p0 p1 before begin0 tail begin1 sec gap hs hopen hc hsec hparse hafev hp hclean hconts
    hpusi₀ hpl₀ hlen₀ hpusi₁ hpl₁ hlen₁ hbytes hcap
  have hi := index_lt_of_inv hs hc
  rw [← List.length_append, ← hbytes] at hcap
  have hcap₀ : (begin0 ++ (conts.map (fun fr => payload (packet fr))).flatten).length ≤ s.params.bufBytes i := by
    rw [List.length_append] at hcap; omega
  have hbegin0 : begin0.length ≤ s.params.bufBytes i := by
    rw [List.length_append] at hcap₀; omega
  have hlast : Clean s i last := hclean last (by simp)
  have hbegin1 : begin1.length ≤ s.params.bufBytes i := by
    have hpayload := length_payload_le (length_packet_of_clean hopen hlast)
    have hroom := le_bufBytes_of_inv hs hc
    rw [hpl₁, List.length_cons, List.length_append] at hpayload
    omega
  have hfirst := answers_firstStart hopen hi hc hsec hafev (hclean first (by simp)) hp hpusi₀ hpl₀ hlen₀ hbegin0
  obtain ⟨p', hrest⟩ := runFrames_conts hopen hi hc hsec hafev conts begin0 1 (packet first)
    (fun fr h => hclean fr (by simp [h])) hconts hcap₀
  obtain ⟨t, hemit, hevq, huq⟩ := answers_nextStart hopen hi hc hsec hafev hparse hlast hpusi₁ hpl₁ hlen₁ hbegin1
    hcap (1 + conts.length) p'
  refine ⟨t, ?_, hevq, ?_⟩
  · rw [runFrames_cons hfirst, hrest, runFrames_cons hemit]; rfl
  · rw [huq, hbytes, Nat.add_comm]

end Sys2Proof.Machine
end

section
/-! PROOFS. PMT_MERGE: one record at a time, then the whole list, by induction from its last record (43_psi_tables.md
R330). -/

namespace Sys2Proof.Machine

open Sys2Proof.Claims

/-- The PIDs of a list of entries, in order. -/
def esPids (es : List EsEntry) : List Pid := es.map EsEntry.pid

@[simp] theorem esPids_append (es fs : List EsEntry) : esPids (es ++ fs) = esPids es ++ esPids fs := List.map_append

@[simp] theorem length_esPids (es : List EsEntry) : (esPids es).length = es.length := List.length_map _

/-! ## Distinct elements in order of first appearance -/

theorem eraseDups_concat_of_mem {l : List Pid} {x : Pid} (h : x ∈ l) : (l ++ [x]).eraseDups = l.eraseDups := by
  simp [List.eraseDups_append, List.removeAll, h]

theorem eraseDups_concat_of_not_mem {l : List Pid} {x : Pid} (h : x ∉ l) :
    (l ++ [x]).eraseDups = l.eraseDups ++ [x] := by
  simp [List.eraseDups_append, List.removeAll, h, List.eraseDups_cons]

theorem eraseDups_of_nodup {l : List Pid} (h : l.Nodup) : l.eraseDups = l := by
  induction l using List.reverseRecOn with
  | nil => rfl
  | append_singleton l x ih =>
    obtain ⟨hl, -, hx⟩ := List.nodup_append'.mp h
    rw [eraseDups_concat_of_not_mem (List.disjoint_singleton.mp hx), ih hl]

/-! ## One record -/

section
variable {max : Nat} {m : Merge} {r : EsEntry}

/-- A PID already held is updated at its place. -/
theorem mergeOne_of_mem (h : r.pid ∈ esPids m.es) : ∃ j, ∃ hj : j < m.es.length, m.es[j].pid = r.pid ∧
    mergeOne max m r = { m with es := m.es.set j r } := by
  cases hfind : m.es.findIdx? (fun e => e.pid == r.pid) with
  | none =>
    obtain ⟨e, he, hpid⟩ := List.mem_map.mp h
    exact absurd (beq_iff_eq.mpr hpid) (Bool.eq_false_iff.mp (List.findIdx?_eq_none_iff.mp hfind e he))
  | some j =>
    obtain ⟨hj, hpid, -⟩ := List.findIdx?_eq_some_iff_getElem.mp hfind
    exact ⟨j, hj, beq_iff_eq.mp hpid, by rw [mergeOne, hfind]⟩

/-- A new PID is appended while there is room, and else lost. -/
theorem mergeOne_of_not_mem (h : r.pid ∉ esPids m.es) : mergeOne max m r =
    if m.es.length < max then { m with es := m.es ++ [r], added := m.added + 1 } else { m with trunc := true } := by
  have hfind : m.es.findIdx? (fun e => e.pid == r.pid) = none := by
    refine List.findIdx?_eq_none_iff.mpr fun e he => beq_eq_false_iff_ne.mpr fun hpid => h ?_
    exact hpid ▸ List.mem_map_of_mem he
  rw [mergeOne, hfind]

theorem esPids_mergeOne_of_mem (h : r.pid ∈ esPids m.es) : esPids (mergeOne max m r).es = esPids m.es := by
  obtain ⟨j, hj, hpid, he⟩ := mergeOne_of_mem (max := max) h
  have hr : r.pid = (esPids m.es)[j]'(by simpa using hj) := by simp [esPids, hpid]
  rw [he, esPids, List.map_set, hr]
  exact List.set_getElem_self _

theorem esPids_mergeOne_of_not_mem (h : r.pid ∉ esPids m.es) :
    esPids (mergeOne max m r).es = if m.es.length < max then esPids m.es ++ [r.pid] else esPids m.es := by
  rw [mergeOne_of_not_mem h]
  split
  · exact esPids_append m.es [r]
  · rfl

theorem trunc_mergeOne_of_mem (h : r.pid ∈ esPids m.es) : (mergeOne max m r).trunc = m.trunc := by
  obtain ⟨j, -, -, he⟩ := mergeOne_of_mem (max := max) h
  rw [he]

theorem trunc_mergeOne_of_not_mem (h : r.pid ∉ esPids m.es) :
    (mergeOne max m r).trunc = (m.trunc || decide (max ≤ m.es.length)) := by
  rw [mergeOne_of_not_mem h]
  split
  next hroom => simp [Nat.not_le.mpr hroom]
  next hfull => simp [Nat.le_of_not_lt hfull]

/-- `added` counts the entries by which the list grows. -/
theorem added_mergeOne (n : Nat) (h : m.added + n = m.es.length) :
    (mergeOne max m r).added + n = (mergeOne max m r).es.length := by
  by_cases hmem : r.pid ∈ esPids m.es
  · obtain ⟨j, -, -, he⟩ := mergeOne_of_mem (max := max) hmem
    rw [he, List.length_set]; exact h
  · rw [mergeOne_of_not_mem hmem]
    split
    · change m.added + 1 + n = (m.es ++ [r]).length
      rw [List.length_append, List.length_singleton]; omega
    · exact h

/-- An entry after one record: the record, or an entry of another PID that was there. -/
theorem mem_mergeOne {e : EsEntry} (hnodup : (esPids m.es).Nodup) (h : e ∈ (mergeOne max m r).es) :
    e = r ∨ e ∈ m.es ∧ e.pid ≠ r.pid := by
  by_cases hmem : r.pid ∈ esPids m.es
  · obtain ⟨j, hj, hpid, he⟩ := mergeOne_of_mem (max := max) hmem
    rw [he] at h
    obtain ⟨k, hk, rfl⟩ := List.mem_iff_getElem.mp h
    rw [List.length_set] at hk
    by_cases hkj : j = k
    · subst hkj; exact .inl (List.getElem_set_self _)
    · rw [List.getElem_set_ne hkj]
      refine .inr ⟨List.getElem_mem hk, fun hsame => hkj ?_⟩
      exact (hnodup.getElem_inj_iff (hi := by simpa using hj) (hj := by simpa using hk)).mp
        (by simpa [esPids] using hpid.trans hsame.symm)
  · have hother : ∀ e ∈ m.es, e.pid ≠ r.pid := fun e he hpid => hmem (hpid ▸ List.mem_map_of_mem he)
    rw [mergeOne_of_not_mem hmem] at h
    split at h
    · obtain he | he := List.mem_append.mp h
      · exact .inr ⟨he, hother e he⟩
      · exact .inl (List.mem_singleton.mp he)
    · exact .inr ⟨h, hother e h⟩

end

/-! ## The whole list -/

section
variable (max : Nat) (es recs : List EsEntry)

theorem pmtMerge_concat (r : EsEntry) : pmtMerge max es (recs ++ [r]) = mergeOne max (pmtMerge max es recs) r :=
  List.foldl_concat _ _ _ _

theorem added_pmtMerge : (pmtMerge max es recs).added + es.length = (pmtMerge max es recs).es.length := by
  induction recs using List.reverseRecOn with
  | nil => exact Nat.zero_add _
  | append_singleton rs r ih => rw [pmtMerge_concat]; exact added_mergeOne es.length ih

variable {max es} (hlen : es.length ≤ max) (hnodup : (esPids es).Nodup)
include hlen hnodup

/-- The PIDs held are the first `max` seen, and TRUNC tells whether there were more. -/
theorem esPids_pmtMerge : esPids (pmtMerge max es recs).es = (esPids (es ++ recs)).eraseDups.take max ∧
    (pmtMerge max es recs).trunc = decide (max < (esPids (es ++ recs)).eraseDups.length) := by
  induction recs using List.reverseRecOn with
  | nil =>
    rw [List.append_nil, eraseDups_of_nodup hnodup, List.take_of_length_le (by simpa using hlen)]
    exact ⟨rfl, by simpa [pmtMerge] using hlen⟩
  | append_singleton rs r ih =>
    rw [← List.append_assoc, esPids_append, pmtMerge_concat]
    generalize pmtMerge max es rs = m at ih ⊢
    generalize esPids (es ++ rs) = seen at ih ⊢
    obtain ⟨hpids, htrunc⟩ := ih
    have hheld : m.es.length = min max seen.eraseDups.length := by
      rw [← length_esPids, hpids, List.length_take]
    change _ = (seen ++ [r.pid]).eraseDups.take max ∧ _ = decide (max < (seen ++ [r.pid]).eraseDups.length)
    by_cases hseen : r.pid ∈ seen
    · -- A PID seen before is held, or it was lost to a full list.
      rw [eraseDups_concat_of_mem hseen, ← hpids, ← htrunc]
      by_cases hmem : r.pid ∈ esPids m.es
      · exact ⟨esPids_mergeOne_of_mem hmem, trunc_mergeOne_of_mem hmem⟩
      · have hover : max < seen.eraseDups.length := by
          by_contra hfits
          rw [hpids, List.take_of_length_le (Nat.le_of_not_lt hfits), List.mem_eraseDups] at hmem
          exact hmem hseen
        rw [esPids_mergeOne_of_not_mem hmem, trunc_mergeOne_of_not_mem hmem, htrunc, if_neg (by omega)]
        simp [hover]
    · have hmem : r.pid ∉ esPids m.es := by
        rw [hpids]
        exact fun h => hseen (List.mem_eraseDups.mp (List.mem_of_mem_take h))
      rw [eraseDups_concat_of_not_mem hseen, esPids_mergeOne_of_not_mem hmem, trunc_mergeOne_of_not_mem hmem, hpids,
        htrunc, hheld, List.length_append, List.length_singleton, ← Bool.decide_or]
      by_cases hroom : seen.eraseDups.length < max
      · rw [if_pos (by omega), List.take_of_length_le hroom.le, List.take_of_length_le (by simp; omega)]
        exact ⟨rfl, by congr 1; exact propext (by omega)⟩
      · rw [if_neg (by omega), List.take_append_of_le_length (by omega)]
        exact ⟨rfl, by congr 1; exact propext (by omega)⟩

/-- An entry is the last record of its PID, or was there. -/
theorem mem_pmtMerge {e : EsEntry} (h : e ∈ (pmtMerge max es recs).es) :
    match recs.reverse.find? (fun r => r.pid == e.pid) with | some r => e = r | none => e ∈ es := by
  induction recs using List.reverseRecOn with
  | nil => exact h
  | append_singleton rs r ih =>
    rw [pmtMerge_concat] at h
    rw [List.reverse_concat, List.find?_cons]
    obtain ⟨-, hdistinct⟩ := pmtMerge_soundEs (max := max) ⟨hlen, hnodup⟩ rs
    obtain rfl | ⟨hold, hpid⟩ := mem_mergeOne hdistinct h
    · simp
    · rw [beq_eq_false_iff_ne.mpr hpid.symm]
      exact ih hold

end

/-- Settles O47: by induction from the last record, each part from what one record does. -/
theorem pmtMergeIsTheUnion : Obligations.PmtMergeIsTheUnion := by
  intro max es recs hlen hnodup
  obtain ⟨hpids, htrunc⟩ := esPids_pmtMerge recs hlen hnodup
  exact ⟨hpids, added_pmtMerge max es recs, htrunc, fun e he => mem_pmtMerge recs hlen hnodup he⟩

end Sys2Proof.Machine
end

section
/-! PROOFS. No operation but the two resets and CLR_TABLES removes an entry of the accumulated PMT list or moves it
(43_psi_tables.md R330, R331). -/

namespace Sys2Proof.Machine

open Sys2Proof.Claims

/-- PMT_MERGE only adds PIDs at the end of the list. -/
theorem esPids_mergeOne_prefix (max : Nat) (m : Merge) (r : EsEntry) :
    esPids m.es <+: esPids (mergeOne max m r).es := by
  by_cases hmem : r.pid ∈ esPids m.es
  · rw [esPids_mergeOne_of_mem hmem]
  · rw [esPids_mergeOne_of_not_mem hmem]
    split
    · exact List.prefix_append _ _
    · exact List.prefix_refl _

theorem esPids_pmtMerge_prefix (max : Nat) (es recs : List EsEntry) : esPids es <+: esPids (pmtMerge max es recs).es := by
  induction recs using List.reverseRecOn with
  | nil => exact List.prefix_refl _
  | append_singleton rs r ih => rw [pmtMerge_concat]; exact ih.trans (esPids_mergeOne_prefix max _ r)

/-! ## Operations -/

/-- From `s` to `t` the accumulated PMT list keeps its entries' places and PIDs, and may grow. -/
def Accumulates (s t : State) : Prop := esPids s.pmt.es <+: esPids t.pmt.es

theorem Accumulates.of_eq {s t : State} (h : t.pmt = s.pmt) : Accumulates s t := by
  rw [Accumulates, h]

theorem Accumulates.of_emission {s t : State} (h : emission t = emission s) : Accumulates s t := by
  obtain ⟨-, -, -, -, -, hpmt⟩ := emission_eq_iff.mp h
  exact .of_eq hpmt

theorem Accumulates.trans {s t u : State} (h : Accumulates s t) (g : Accumulates t u) : Accumulates s u :=
  List.IsPrefix.trans h g

section
variable (i : Nat) (s : State)

theorem accumulates_pmtDecode : Accumulates s (pmtDecode s) := by
  unfold pmtDecode
  split
  · exact .of_eq rfl
  · split
    · exact .of_eq rfl
    · simp only [pmtCommit, raiseIf_eq]
      exact esPids_pmtMerge_prefix _ _ _

theorem accumulates_decodeTable (cfg : CtxCfg) : Accumulates s (decodeTable cfg s) := by
  unfold decodeTable
  split
  · obtain ⟨pat, errs, ev, h⟩ := patDecode_writes s
    rw [h]; exact .of_eq rfl
  · exact accumulates_pmtDecode s
  · exact .of_eq rfl

theorem accumulates_emitUnit : Accumulates s (emitUnit i s) := by
  unfold emitUnit
  extract_lets c u t
  have h : Accumulates t (decodeTable c.cfg t) := accumulates_decodeTable t c.cfg
  exact h

theorem accumulates_closeSection (tail : List Byte) (bad : Bool) : Accumulates s (closeSection i tail bad s) := by
  unfold closeSection
  split
  · exact (Accumulates.of_emission (by simp)).trans (accumulates_emitUnit i _)
  · exact .of_eq rfl

theorem accumulates_secStart : Accumulates s (secStart i s) := by
  unfold secStart
  extract_lets pl ptr bad n t
  have ht : Accumulates s t := .of_emission (emission_raiseIf _ bad _)
  split
  · exact .of_eq rfl
  · exact (ht.trans (accumulates_closeSection i t _ bad)).trans (.of_emission (emission_openSection i _ _ bad))

theorem accumulates_pesStart : Accumulates s (pesStart i s) := by
  unfold pesStart
  extract_lets t u
  have ht : Accumulates s t := by
    unfold t
    split
    · exact accumulates_emitUnit i s
    · exact .of_eq rfl
  refine ht.trans (.of_emission ?_)
  split <;> simp [u]

theorem accumulates_contextOp (h : Word) : Accumulates s (contextOp i h s) := by
  unfold contextOp
  split
  · exact .of_eq rfl
  · split
    · exact accumulates_secStart i s
    · exact .of_emission (emission_secCont i s)
  · split
    · exact accumulates_pesStart i s
    · exact .of_emission (emission_pesCont i s)

theorem accumulates_claimedFrame (h : Word) : Accumulates s (claimedFrame i h s) := by
  obtain ⟨evAf, evOpcr, he⟩ := afEvents_writes i s
  simp only [claimedFrame, he]
  split
  · exact accumulates_contextOp i { s with flight := { s.flight with evAf := evAf, evOpcr := evOpcr } } h
  · exact .of_eq rfl

theorem accumulates_frameTransaction (fr : List Byte) : Accumulates s (frameTransaction fr s) := by
  have hat : Accumulates s (atClaim fr s) := by
    obtain ⟨hdr, p, f, h, -⟩ := atClaim_writes fr s
    rw [h]; exact .of_eq rfl
  have hbody : Accumulates s (frameBody fr s) := by
    obtain hbody | ⟨c, ctx, h, -, hbody⟩ := frameBody_cases fr s
    · rw [hbody]; exact hat
    · rw [hbody]; exact hat.trans (accumulates_claimedFrame c _ h)
  obtain ⟨evs, -, drops, hfin⟩ := finalize_eq (frameBody fr s)
  refine hbody.trans (.of_eq ?_)
  rw [frameTransaction, hfin]

end

/-- The operations that empty the PMT list: the two resets and CLR_TABLES (R331). -/
def clearsPmt : Instr → Bool
  | .cmdClrTables | .cmdSoftReset | .reset => true
  | _ => false

/-- An operation that answers a function of the state accumulates as the function does. -/
theorem Accumulates.of_next {s t u : State} (hu : Accumulates s u)
    (h : (Host.Outcome.next u : Host.Outcome State Fault Refusal) = .next t) : Accumulates s t := by
  cases h; exact hu

theorem accumulates_execFrame {fr : List Byte} {s t : State} (h : execFrame fr s = .next t) : Accumulates s t := by
  unfold execFrame at h
  split at h
  · cases h; exact .of_eq rfl
  · split at h
    · exact (accumulates_frameTransaction s fr).of_next h
    · cases h

theorem afDecode_pmt (s : State) : (afDecode s).pmt = s.pmt := by
  obtain ⟨af, ok, errs, h⟩ := afDecode_writes s
  rw [h]

theorem pktAfPayload_pmt (s : State) : (pktAfPayload s).pmt = s.pmt := by
  unfold pktAfPayload
  extract_lets t
  split
  · exact afDecode_pmt s
  · exact afDecode_pmt s

theorem pcrExtract_pmt (s : State) : (pcrExtract s).pmt = s.pmt := by
  obtain ⟨af, errs, h⟩ := pcrExtract_writes s
  rw [h]

theorem opcrExtract_pmt (o : Nat) (s : State) : (opcrExtract o s).pmt = s.pmt := by
  obtain ⟨af, errs, h⟩ := opcrExtract_writes o s
  rw [h]

theorem patDecode_pmt (s : State) : (patDecode s).pmt = s.pmt := by
  obtain ⟨pat, errs, ev, h⟩ := patDecode_writes s
  rw [h]

theorem accumulates_exec {i : Instr} {s t : State} (hi : clearsPmt i = false) (h : exec i s = .next t) :
    Accumulates s t := by
  cases i with
  | frame fr => exact accumulates_execFrame h
  | pktHdr hd => exact (Accumulates.of_eq (by rw [pktHdr_eq])).of_next h
  | pktAf hd => exact (Accumulates.of_eq (t := pktAf s) (afDecode_pmt s)).of_next h
  | pktAfPayload hd => exact (Accumulates.of_eq (pktAfPayload_pmt s)).of_next h
  | afDecode hd => exact (Accumulates.of_eq (afDecode_pmt s)).of_next h
  | pcrExtract flags => exact (Accumulates.of_eq (pcrExtract_pmt s)).of_next h
  | opcrExtract flags => exact (Accumulates.of_eq (opcrExtract_pmt _ s)).of_next h
  | secCont c hd => exact (Accumulates.of_emission (emission_secCont c s)).of_next h
  | secStart c hd => exact (accumulates_secStart c s).of_next h
  | patDecode cfg => exact (Accumulates.of_eq (patDecode_pmt s)).of_next h
  | pmtDecode cfg => exact (accumulates_pmtDecode s).of_next h
  | pesCont c hd => exact (Accumulates.of_emission (emission_pesCont c s)).of_next h
  | pesStart c hd => exact (accumulates_pesStart c s).of_next h
  | pesHdrDecode c => exact (Accumulates.of_emission (emission_pesHdrDecode c s)).of_next h
  | cmdClrTables | cmdSoftReset | reset => cases hi
  -- The other operations do not write the PMT table.
  | _ => cases h; exact .of_eq rfl

theorem accumulates_execAll {is : List Instr} {s t : State} (hi : ∀ i ∈ is, clearsPmt i = false)
    (h : execAll is s = .next t) : Accumulates s t := by
  induction is generalizing s with
  | nil => cases h; exact .of_eq rfl
  | cons i rest ih =>
    obtain ⟨hhead, hrest⟩ := List.forall_mem_cons.mp hi
    simp only [execAll] at h
    split at h
    next u hu => exact (accumulates_exec hhead hu).trans (ih hrest h)
    all_goals cases h

/-! ## Steps -/

/-- The turn empties the PMT list: a reset, or a host word with CLR_TABLES. -/
def ClearsPmtTurn (s : State) : Prop :=
  ResetTurn s ∨ ∃ w rest, s.turns = .host w :: rest ∧ Instr.cmdClrTables ∈ decodeHost s.params.nCtx w

/-- No operation inside a frame empties the list: no branch of the decoder names one that does. -/
theorem not_clearsPmt_of_decodeOp {n : Nat} {sel : Selector} {i : Instr} (h : decodeOp n sel = .ok i) :
    clearsPmt i = false := by
  unfold decodeOp decodeClass decodeClaimed at h
  repeat' split at h
  all_goals cases h
  all_goals rfl

theorem accumulates_offerFrame {s t : State} (h : offerFrame s = .next t) : Accumulates s t := by
  unfold offerFrame at h
  split at h
  · exact (Accumulates.of_eq rfl).of_next h
  next fr more _ =>
    split at h
    · exact (Accumulates.of_eq rfl).of_next h
    · obtain ⟨is, hd, he⟩ := perform_next h
      rw [eq_frame_of_decode hd, execAll_singleton] at he
      exact accumulates_execFrame (s := { s with offers := more }) he

/-- A host word that does not empty the list has no operation that does. -/
theorem not_clearsPmt_of_host {s : State} {w : PortWord} {rest : List Turn} (hturns : s.turns = .host w :: rest)
    (hno : ¬ ClearsPmtTurn s) : ∀ i ∈ decodeHost s.params.nCtx w, clearsPmt i = false := by
  intro i hmem
  have hport := isPortOp_of_mem hmem
  cases i with
  | cmdClrTables => exact absurd (.inr ⟨w, rest, hturns, hmem⟩) hno
  | cmdSoftReset => exact absurd (.inl (.inr ⟨w, rest, hturns, hmem⟩)) hno
  | reset => cases hport
  | _ => rfl

theorem accumulates_step {s t : State} (h : step s = .next t) (hno : ¬ ClearsPmtTurn s) : Accumulates s t := by
  cases hturns : s.turns with
  | nil =>
    rw [step_of_no_turn hturns] at h
    exact (Accumulates.of_eq rfl).of_next h
  | cons turn rest =>
    cases turn with
    | input =>
      rw [step_of_input hturns] at h
      exact accumulates_offerFrame (s := { s with turns := rest }) h
    | host w =>
      rw [step_of_host hturns] at h
      exact accumulates_execAll (s := { s with turns := rest }) (not_clearsPmt_of_host hturns hno) h
    | reset level =>
      rw [step_of_reset hturns] at h
      obtain ⟨is, hd, he⟩ := perform_next h
      refine accumulates_execAll (s := { s with turns := rest }) (fun i hmem => ?_) he
      obtain ⟨hlevel, -, -⟩ := mem_reset_of_decode hd hmem
      exact absurd (.inl (.inl ⟨rest, by rw [hturns, hlevel]⟩)) hno
    | op sel =>
      rw [step_of_op hturns] at h
      obtain ⟨is, hd, he⟩ := perform_next h
      obtain ⟨i, hop, rfl⟩ := decodeOp_of_decode hd
      exact accumulates_execAll (s := { s with turns := rest })
        (fun j hj => by rw [List.mem_singleton.mp hj]; exact not_clearsPmt_of_decodeOp hop) he

theorem Accumulates.entry {s t : State} (h : Accumulates s t) {j : Nat} {e : EsEntry} (he : s.pmt.es[j]? = some e) :
    ∃ e', t.pmt.es[j]? = some e' ∧ e'.pid = e.pid := by
  have hpid : (esPids t.pmt.es)[j]? = some e.pid := by
    obtain ⟨more, hmore⟩ := h
    have hj : (esPids s.pmt.es)[j]? = some e.pid := by simp [esPids, he]
    rw [← hmore, List.getElem?_append_left (List.getElem?_eq_some_iff.mp hj).1, hj]
  simpa [esPids] using hpid

/-- Settles O59: a step whose turn does not empty the list keeps its PIDs at the front of the next state's list. -/
theorem pmtEntriesAreNeverRemoved : Obligations.PmtEntriesAreNeverRemoved := by
  intro s t j e hstep he
  by_cases hclears : ClearsPmtTurn s
  · exact .inr hclears
  · exact .inl ((accumulates_step hstep hclears).entry he)

end Sys2Proof.Machine
end

section
/-! PROOFS. The numbers that the table decoders read from a section, and PAT_DECODE (30_encoding.md R147, R148;
43_psi_tables.md R315 to R319). -/

namespace Sys2Proof.Machine

open Sys2Proof.Claims

/-! ## The fields of a section as numbers -/

section
variable (d : List Byte) (i : Nat)

theorem byteAt_eq (n : Nat) : (byteAt d i).extractLsb' 1 n = BitVec.ofNat n (byte d i / 2) :=
  BitVec.eq_of_toNat_eq (by rw [toNat_field, BitVec.toNat_ofNat, pow_one]; rfl)

theorem be16_eq : be16 d i = BitVec.ofNat 16 (pair d i) := eq_ofNat_of_toNat (be16_toNat d i)

theorem len12_eq : len12 d i = BitVec.ofNat 12 (pair d i % 4096) := eq_ofNat_of_toNat (len12_toNat d i)

theorem pid13_eq : pid13 d i = BitVec.ofNat 13 (pair d i) :=
  BitVec.eq_of_toNat_eq (by rw [pid13_toNat, BitVec.toNat_ofNat])

theorem patRecord_eq (j : Nat) :
    patRecord d j = ⟨BitVec.ofNat 16 (pair d (8 + 4 * j)), BitVec.ofNat 13 (pair d (10 + 4 * j))⟩ := by
  rw [patRecord, be16_eq, pid13_eq]

end

theorem pair_lt (d : List Byte) (i : Nat) : pair d i < 2 ^ 16 := by
  have h₀ := (d.getD i 0#8).isLt
  have h₁ := (d.getD (i + 1) 0#8).isLt
  unfold pair byte
  omega

theorem pair_append_right (front rest : List Byte) (i : Nat) : pair (front ++ rest) (front.length + i) = pair rest i := by
  simp [pair, byte, List.getElem?_append, Nat.add_assoc]

theorem pair_append_two (front : List Byte) (n : Nat) (rest : List Byte) :
    pair (front ++ (two n ++ rest)) front.length = n % 2 ^ 16 := by
  have hfirst : pair (two n ++ rest) 0 = n % 2 ^ 16 := by simp [pair, byte]; omega
  exact (pair_append_right front _ 0).trans hfirst

theorem tableEventHead_eq (u : UnitRec) (type : BitVec 4) :
    tableEventHead u type = BitVec.ofNat 32 (type.toNat + 16 * u.ctx.toNat + 65536 * u.seq.toNat) := by
  apply eq_ofNat_of_toNat
  simp only [tableEventHead, toNat_append_mul, BitVec.toNat_ofNat]
  omega

/-! ## The PAT -/

/-- The PAT section of bytes whose lengths fit (R315). -/
def patSectionOf (d : List Byte) : PatSection where
  tableId := d.getD 0 0#8
  version := BitVec.ofNat 5 (byte d 5 / 2)
  tsId := BitVec.ofNat 16 (pair d 3)
  sectionLength := BitVec.ofNat 12 (pair d 1 % 4096)
  records := (List.range ((pair d 1 % 4096 - 9) / 4)).map (fun j =>
    ⟨BitVec.ofNat 16 (pair d (8 + 4 * j)), BitVec.ofNat 13 (pair d (10 + 4 * j))⟩)

@[simp] theorem length_records_patSectionOf (d : List Byte) :
    (patSectionOf d).records.length = (pair d 1 % 4096 - 9) / 4 := by simp [patSectionOf]

section
variable {d : List Byte}

theorem patParse_of_malformed (h : d.length < 3 ∨ pair d 1 % 4096 < 9 ∨ d.length < 3 + pair d 1 % 4096 ∨
    (pair d 1 % 4096 - 9) % 4 ≠ 0) : patParse d = none := by
  unfold patParse
  extract_lets sl
  have hsl : sl = pair d 1 % 4096 := len12_toNat d 1
  split
  · rfl
  · split
    · rfl
    · split
      · rfl
      · omega

theorem patParse_of_wellFormed (hmin : 9 ≤ pair d 1 % 4096) (hlen : 3 + pair d 1 % 4096 ≤ d.length)
    (hwhole : (pair d 1 % 4096 - 9) % 4 = 0) : patParse d = some (patSectionOf d) := by
  unfold patParse
  extract_lets sl
  have hsl : sl = pair d 1 % 4096 := len12_toNat d 1
  have hrecord : patRecord d = _ := funext (patRecord_eq d)
  rw [if_neg (by omega), if_neg (by omega), if_neg (by omega), byteAt_eq, be16_eq, len12_eq, hrecord, hsl, Nat.sub_sub]
  rfl

end

theorem patCommit_eq (u : UnitRec) (sec : PatSection) (s : State) : patCommit u sec s =
    let full := decide (s.params.patMax < sec.records.length)
    { s with
      pat := patTableOf s.params.patMax sec
      flight := { s.flight with
        errs := s.flight.errs ||| mask full 6
        evTbl := some ⟨BitVec.ofNat 32 (3 + 16 * u.ctx.toNat + 65536 * u.seq.toNat), s.flight.k,
          BitVec.ofNat 32 sec.records.length, BitVec.ofNat 32 (num full)⟩ } } := by
  unfold patCommit
  extract_lets full ev
  have hw3 : 0#31 ++ bit full = BitVec.ofNat 32 (num full) :=
    eq_ofNat_of_toNat (by rw [toNat_append_mul, bit_toNat]; exact Nat.zero_add _)
  simp only [ev, raiseIf_eq, Cause.maskIf_eq_mask, tableEventHead_eq, hw3]
  rfl

section
variable {s : State} {u : UnitRec} (hu : s.flight.unit = some u)
include hu

theorem patDecode_of_none (h : patParse u.data = none) : patDecode s = raise .truncSection s := by
  simp only [patDecode, hu, h]

theorem patDecode_of_some {sec : PatSection} (h : patParse u.data = some sec) : patDecode s = patCommit u sec s := by
  simp only [patDecode, hu, h]

end

/-- Settles O43: the two results of the parse, and what each does to the state. -/
theorem patDecodeResult : Obligations.PatDecodeResult := by
  intro s u cfg hu d sl n full
  refine ⟨fun hbad => ?malformed, fun _ hmin hlen hwhole => ?wellFormed⟩
  case malformed =>
    change Host.Outcome.next (patDecode s) = _
    rw [patDecode_of_none hu (patParse_of_malformed hbad)]; rfl
  case wellFormed =>
    change Host.Outcome.next (patDecode s) = _
    rw [patDecode_of_some hu (patParse_of_wellFormed hmin hlen hwhole), patCommit_eq]
    simp only [length_records_patSectionOf, patTableOf]
    rfl

/-! ### A PAT section built from its records (R319) -/

/-- The bytes of PAT records. -/
def patBytes (recs : List (Nat × Nat)) : List Byte := (recs.map (fun r => two r.1 ++ two r.2)).flatten

theorem patBytes_cons (r : Nat × Nat) (rs : List (Nat × Nat)) :
    patBytes (r :: rs) = two r.1 ++ two r.2 ++ patBytes rs := rfl

theorem length_patBytes (recs : List (Nat × Nat)) : (patBytes recs).length = 4 * recs.length := by
  induction recs with
  | nil => rfl
  | cons r rs ih => rw [patBytes_cons, List.length_append, ih, List.length_cons, Nat.mul_succ, Nat.add_comm]; rfl

/-- The record at byte i of a section. -/
def patFieldsAt (d : List Byte) (i : Nat) : Nat × Nat := (pair d i, pair d (i + 2) % 8192)

theorem patFieldsAt_append {r : Nat × Nat} (hfst : r.1 < 2 ^ 16) (hsnd : r.2 < 2 ^ 16) (front rest : List Byte) :
    patFieldsAt (front ++ (two r.1 ++ two r.2 ++ rest)) front.length = (r.1, r.2 % 8192) := by
  have hone : pair (front ++ (two r.1 ++ two r.2 ++ rest)) front.length = r.1 := by
    rw [List.append_assoc, pair_append_two, Nat.mod_eq_of_lt hfst]
  have htwo : pair (front ++ (two r.1 ++ two r.2 ++ rest)) (front.length + 2) = r.2 := by
    rw [List.append_assoc, pair_append_right]
    exact (pair_append_two (two r.1) _ rest).trans (Nat.mod_eq_of_lt hsnd)
  rw [patFieldsAt, hone, htwo]

/-- Reading four bytes at a time from where the records begin gives back the records. -/
theorem patFieldsAt_patBytes {recs : List (Nat × Nat)} (hrecs : ∀ r ∈ recs, r.1 < 2 ^ 16 ∧ r.2 < 2 ^ 16)
    (front rest : List Byte) :
    (List.range recs.length).map (fun j => patFieldsAt (front ++ (patBytes recs ++ rest)) (front.length + 4 * j)) =
      recs.map (fun r => (r.1, r.2 % 8192)) := by
  induction recs generalizing front with
  | nil => rfl
  | cons r rs ih =>
    obtain ⟨⟨hfst, hsnd⟩, hrs⟩ := List.forall_mem_cons.mp hrecs
    have htail := ih hrs (front ++ (two r.1 ++ two r.2))
    have hnext (j : Nat) : (front ++ (two r.1 ++ two r.2)).length + 4 * j = front.length + 4 * (j + 1) := by
      rw [List.length_append, Nat.add_assoc, Nat.mul_succ, Nat.add_comm (4 * j)]; rfl
    have hbytes : front ++ (patBytes (r :: rs) ++ rest) = front ++ (two r.1 ++ two r.2) ++ (patBytes rs ++ rest) := by
      simp only [patBytes_cons, List.append_assoc]
    have hhead := patFieldsAt_append hfst hsnd front (patBytes rs ++ rest)
    rw [← List.append_assoc] at hhead
    simp only [hnext] at htail
    rw [hbytes, List.length_cons, List.range_succ_eq_map, List.map_cons, List.map_cons, List.map_map]
    exact congrArg₂ List.cons hhead htail

/-- The eight bytes before the records of a PAT section. -/
def patHead (tid : Byte) (top tsId : Nat) (b5 b6 b7 : Byte) (n : Nat) : List Byte :=
  [tid] ++ (two (top * 4096 + (9 + 4 * n)) ++ (two tsId ++ [b5, b6, b7]))

theorem patSection_eq (tid b5 b6 b7 : Byte) (top tsId : Nat) (recs : List (Nat × Nat)) (crc extra : List Byte) :
    patSection tid top tsId b5 b6 b7 recs crc ++ extra =
      patHead tid top tsId b5 b6 b7 recs.length ++ (patBytes recs ++ (crc ++ extra)) := by
  simp only [patSection, patHead, patBytes, List.append_assoc]

/-- Settles O44: the built section is well-formed, so that the decode stores the records that its bytes give back. -/
theorem patSectionRoundTrip : Obligations.PatSectionRoundTrip := by
  intro s u cfg tid b5 b6 b7 top tsId recs crc extra hu _ hmany hcrc hrecs hdata
  rw [patSection_eq] at hdata
  have hsl : pair u.data 1 % 4096 = 9 + 4 * recs.length := by
    have hfield : pair u.data 1 = (top * 4096 + (9 + 4 * recs.length)) % 2 ^ 16 := by
      rw [hdata, patHead, List.append_assoc, List.append_assoc]
      exact pair_append_two [tid] _ _
    omega
  have hlen : u.data.length = 8 + (4 * recs.length + (4 + extra.length)) := by
    rw [hdata, List.length_append, List.length_append, List.length_append, length_patBytes, hcrc]; rfl
  have hn : (pair u.data 1 % 4096 - 9) / 4 = recs.length := by omega
  have hfields := patFieldsAt_patBytes hrecs (patHead tid top tsId b5 b6 b7 recs.length) (crc ++ extra)
  rw [← hdata] at hfields
  obtain ⟨-, hdecode⟩ := patDecodeResult s u cfg hu
  refine ⟨_, hdecode (by omega) (by omega) (by omega) (by omega), rfl, ?_, ?_, ?_⟩
  · rw [hn, BitVec.toNat_ofNat]; omega
  · rw [hsl, BitVec.toNat_ofNat]; omega
  · rw [hn, ← hfields, List.map_take, List.map_map]
    refine congrArg (List.take _) (List.map_congr_left fun j _ => ?_)
    change (BitVec.toNat _, BitVec.toNat _) = patFieldsAt u.data (8 + 4 * j)
    rw [BitVec.toNat_ofNat, BitVec.toNat_ofNat, Nat.mod_eq_of_lt (pair_lt _ _), show 10 + 4 * j = 8 + 4 * j + 2 by omega]
    rfl

end Sys2Proof.Machine
end

section
/-! PROOFS. PMT_DECODE: what its parse needs of the lengths, the record loop on the bytes of records, and back from
bytes that it accepts to a section (30_encoding.md R147, R149; 43_psi_tables.md R311, R320 to R322). -/

namespace Sys2Proof.Machine

open Sys2Proof.Claims

/-! ## The parse -/

/-- The PMT section of bytes with the given records (R320). -/
def pmtSectionOf (d : List Byte) (recs : List EsRec) : PmtSection where
  tableId := d.getD 0 0#8
  programNumber := BitVec.ofNat 16 (pair d 3)
  pcrPid := BitVec.ofNat 13 (pair d 8)
  programInfoLength := BitVec.ofNat 12 (pair d 10 % 4096)
  sectionLength := BitVec.ofNat 12 (pair d 1 % 4096)
  records := recs

/-- The parse succeeds where the header and the CRC fit the section, the section the unit, the program descriptors the
record area, and the loop accepts the records (R320, R321). -/
theorem pmtParse_eq_some_iff {d : List Byte} {sec : PmtSection} : pmtParse d = some sec ↔
    13 ≤ pair d 1 % 4096 ∧ 3 + pair d 1 % 4096 ≤ d.length ∧ 12 + pair d 10 % 4096 < pair d 1 % 4096 ∧
    ∃ recs, pmtRecords d (pair d 1 % 4096 - 1) (pair d 1 % 4096 - 1) (12 + pair d 10 % 4096) = some recs ∧
      pmtSectionOf d recs = sec := by
  unfold pmtParse
  extract_lets sl pil
  have hsl : sl = pair d 1 % 4096 := len12_toNat d 1
  have hpil : pil.toNat = pair d 10 % 4096 := len12_toNat d 10
  rw [← hsl, ← hpil]
  by_cases hfits : 13 ≤ sl ∧ 3 + sl ≤ d.length ∧ 12 + pil.toNat < sl
  · obtain ⟨hmin, hlen, hpils⟩ := hfits
    rw [if_neg (by omega), if_neg (by omega), if_neg (by omega), Option.map_eq_some_iff, and_iff_right hmin,
      and_iff_right hlen, and_iff_right hpils]
    simp only [pmtSectionOf, ← be16_eq, ← pid13_eq, ← len12_eq]
    rfl
  · refine ⟨fun h => ?_, fun ⟨hmin, hlen, hpils, _⟩ => absurd ⟨hmin, hlen, hpils⟩ hfits⟩
    split at h
    · cases h
    · split at h
      · cases h
      · split at h
        · cases h
        · omega

section
variable {s : State} {u : UnitRec} (hu : s.flight.unit = some u)
include hu

theorem pmtDecode_of_none (h : pmtParse u.data = none) : pmtDecode s = raise .truncSection s := by
  simp only [pmtDecode, hu, h]

theorem pmtDecode_of_some {sec : PmtSection} (h : pmtParse u.data = some sec) : pmtDecode s = pmtCommit u sec s := by
  simp only [pmtDecode, hu, h]

end

theorem pmtCommit_eq (u : UnitRec) (sec : PmtSection) (s : State) : pmtCommit u sec s =
    let m := pmtMerge s.params.pmtEsMax s.pmt.es (sec.records.map EsRec.entry)
    { s with
      pmt := pmtTableOf s.pmt m sec
      flight := { s.flight with
        errs := s.flight.errs ||| mask m.trunc 6
        evTbl := some ⟨BitVec.ofNat 32 (4 + 16 * u.ctx.toNat + 65536 * u.seq.toNat), s.flight.k,
          BitVec.ofNat 32 sec.records.length, BitVec.ofNat 32 (m.added % 2 ^ 16 + 2 ^ 31 * num m.trunc)⟩ } } := by
  unfold pmtCommit
  extract_lets m ev
  have hw3 : bit m.trunc ++ 0#15 ++ BitVec.ofNat 16 m.added =
      BitVec.ofNat 32 (m.added % 2 ^ 16 + 2 ^ 31 * num m.trunc) := by
    apply eq_ofNat_of_toNat
    simp only [toNat_append_mul, bit_toNat, BitVec.toNat_ofNat, num]
    omega
  simp only [ev, raiseIf_eq, Cause.maskIf_eq_mask, tableEventHead_eq, hw3]
  rfl

/-! ## The record loop -/

section
variable {d : List Byte} {e rounds q : Nat}

theorem pmtRecords_of_end (h : e ≤ q) : pmtRecords d e rounds q = some [] := by
  cases rounds <;> simp only [pmtRecords, if_neg (Nat.not_lt.mpr h)]

/-- The record at q of the loop. -/
def esRecAt (d : List Byte) (q : Nat) : EsRec :=
  ⟨⟨d.getD q 0#8, BitVec.ofNat 13 (pair d (q + 1)), BitVec.ofNat 12 (pair d (q + 3) % 4096)⟩, q + 5⟩

/-- One round of the loop: a record that fits, and the records after it. -/
theorem pmtRecords_succ_eq_some_iff (h : q < e) {recs : List EsRec} : pmtRecords d e (rounds + 1) q = some recs ↔
    q + 5 + pair d (q + 3) % 4096 ≤ e ∧
    ∃ rest, pmtRecords d e rounds (q + 5 + pair d (q + 3) % 4096) = some rest ∧ esRecAt d q :: rest = recs := by
  rw [pmtRecords]
  extract_lets eil
  have heil : eil.toNat = pair d (q + 3) % 4096 := len12_toNat d (q + 3)
  rw [if_pos h, ← heil]
  by_cases hfits : q + 5 + eil.toNat ≤ e
  · rw [if_neg (by omega), if_neg (by omega), Option.map_eq_some_iff, and_iff_right hfits]
    simp only [esRecAt, ← pid13_eq, ← len12_eq]
    rfl
  · refine ⟨fun hsome => ?_, fun ⟨hfits', _⟩ => absurd hfits' hfits⟩
    split at hsome
    · cases hsome
    · rw [if_pos (by omega)] at hsome
      cases hsome

end

end Sys2Proof.Machine
end

section
/-! PROOFS. A PMT section built from descriptors and records, decoded (43_psi_tables.md R320, R322). -/

namespace Sys2Proof.Machine

open Sys2Proof.Claims

/-! ## The bytes of records -/

/-- The bytes of the ES records of a PMT section (30_encoding.md R149). -/
def esArea (recs : List (Byte × Nat × Nat × List Byte)) : List Byte := (recs.map esBytes).flatten

theorem esArea_cons (r : Byte × Nat × Nat × List Byte) (rs : List (Byte × Nat × Nat × List Byte)) :
    esArea (r :: rs) = esBytes r ++ esArea rs := rfl

theorem length_esBytes (r : Byte × Nat × Nat × List Byte) : (esBytes r).length = 5 + r.2.2.2.length := by
  rw [esBytes, List.length_append]; rfl

/-- The entry that a record's bytes decode to. -/
def esEntryOf (r : Byte × Nat × Nat × List Byte) : EsEntry :=
  ⟨r.1, BitVec.ofNat 13 r.2.1, BitVec.ofNat 12 r.2.2.2.length⟩

theorem ofNat_mod_two_pow {w k : Nat} (h : w ≤ k) (n : Nat) : BitVec.ofNat w (n % 2 ^ k) = BitVec.ofNat w n := by
  apply BitVec.eq_of_toNat_eq
  rw [BitVec.toNat_ofNat, BitVec.toNat_ofNat, Nat.mod_mod_of_dvd _ (Nat.pow_dvd_pow 2 h)]

section
variable (front rest : List Byte) {r : Byte × Nat × Nat × List Byte}

theorem infoLength_esBytes (hdesc : r.2.2.2.length < 4096) :
    pair (front ++ (esBytes r ++ rest)) (front.length + 3) % 4096 = r.2.2.2.length := by
  have hfield : pair (esBytes r ++ rest) 3 = (r.2.2.1 * 4096 + r.2.2.2.length) % 2 ^ 16 :=
    pair_append_two ([r.1] ++ two r.2.1) _ (r.2.2.2 ++ rest)
  rw [pair_append_right, hfield]
  omega

theorem esRecAt_esBytes (hdesc : r.2.2.2.length < 4096) :
    (esRecAt (front ++ (esBytes r ++ rest)) front.length).entry = esEntryOf r := by
  have htype : (front ++ (esBytes r ++ rest)).getD front.length 0#8 = r.1 := by
    rw [List.getD_append_right _ _ _ _ le_rfl, Nat.sub_self]; rfl
  have hpid : pair (front ++ (esBytes r ++ rest)) (front.length + 1) = r.2.1 % 2 ^ 16 := by
    rw [pair_append_right]
    exact pair_append_two [r.1] _ (two (r.2.2.1 * 4096 + r.2.2.2.length) ++ (r.2.2.2 ++ rest))
  rw [esRecAt, htype, hpid, ofNat_mod_two_pow (by decide), infoLength_esBytes front rest hdesc]; rfl

end

/-- The record loop gives back the records that the bytes were built from. -/
theorem pmtRecords_esArea {recs : List (Byte × Nat × Nat × List Byte)}
    {rounds : Nat} (hrounds : (esArea recs).length ≤ rounds) (hsmall : (esArea recs).length < 4096)
    (front rest : List Byte) :
    ∃ rs, pmtRecords (front ++ (esArea recs ++ rest)) (front.length + (esArea recs).length) rounds front.length =
        some rs ∧
      rs.map EsRec.entry = recs.map esEntryOf := by
  induction recs generalizing rounds front with
  | nil => exact ⟨[], pmtRecords_of_end le_rfl, rfl⟩
  | cons r recs ih =>
    have harea : (esArea (r :: recs)).length = 5 + r.2.2.2.length + (esArea recs).length := by
      rw [esArea_cons, List.length_append, length_esBytes]
    obtain ⟨rounds, rfl⟩ : ∃ n, rounds = n + 1 := ⟨rounds - 1, by omega⟩
    obtain ⟨rs, hrs, hentries⟩ := ih (rounds := rounds) (by omega) (by omega) (front ++ esBytes r)
    have hinfo := infoLength_esBytes (r := r) front (esArea recs ++ rest) (by omega)
    have hentry := esRecAt_esBytes (r := r) front (esArea recs ++ rest) (by omega)
    rw [List.length_append, length_esBytes, List.append_assoc] at hrs
    rw [harea, esArea_cons, List.append_assoc]
    refine ⟨_, (pmtRecords_succ_eq_some_iff (by omega)).mpr ⟨by omega, rs, ?_, rfl⟩, ?_⟩
    · rw [hinfo, ← hrs]
      congr 1 <;> omega
    · rw [List.map_cons, List.map_cons, hentry, hentries]

/-! ## A built section -/

/-- The twelve bytes before the program descriptors of a PMT section. -/
def pmtHead (tid : Byte) (top sl prog : Nat) (b5 b6 b7 : Byte) (pcr top2 pil : Nat) : List Byte :=
  [tid] ++ (two (top * 4096 + sl) ++ (two prog ++ ([b5, b6, b7] ++ (two pcr ++ two (top2 * 4096 + pil)))))

theorem pmtSection_eq (tid b5 b6 b7 : Byte) (top prog pcr top2 : Nat) (descs : List Byte)
    (recs : List (Byte × Nat × Nat × List Byte)) (crc extra : List Byte) :
    pmtSection tid top prog b5 b6 b7 pcr top2 descs recs crc ++ extra =
      pmtHead tid top (13 + descs.length + (esArea recs).length) prog b5 b6 b7 pcr top2 descs.length ++
        (descs ++ (esArea recs ++ (crc ++ extra))) := by
  simp only [pmtSection, pmtHead, esArea, List.append_assoc]

section
variable (tid b5 b6 b7 : Byte) (top sl prog pcr top2 pil : Nat) (rest : List Byte)

theorem pair_pmtHead_1 : pair (pmtHead tid top sl prog b5 b6 b7 pcr top2 pil ++ rest) 1 = (top * 4096 + sl) % 2 ^ 16 :=
  pair_append_two [tid] _ (two prog ++ ([b5, b6, b7] ++ (two pcr ++ two (top2 * 4096 + pil))) ++ rest)

theorem pair_pmtHead_3 : pair (pmtHead tid top sl prog b5 b6 b7 pcr top2 pil ++ rest) 3 = prog % 2 ^ 16 :=
  pair_append_two ([tid] ++ two (top * 4096 + sl)) _ ([b5, b6, b7] ++ (two pcr ++ two (top2 * 4096 + pil)) ++ rest)

theorem pair_pmtHead_8 : pair (pmtHead tid top sl prog b5 b6 b7 pcr top2 pil ++ rest) 8 = pcr % 2 ^ 16 :=
  pair_append_two ([tid] ++ (two (top * 4096 + sl) ++ (two prog ++ [b5, b6, b7]))) _ (two (top2 * 4096 + pil) ++ rest)

theorem pair_pmtHead_10 :
    pair (pmtHead tid top sl prog b5 b6 b7 pcr top2 pil ++ rest) 10 = (top2 * 4096 + pil) % 2 ^ 16 :=
  pair_append_two ([tid] ++ (two (top * 4096 + sl) ++ (two prog ++ ([b5, b6, b7] ++ two pcr)))) _ rest

end

/-- The parse of a built section: its header fields and the entries of its records. -/
theorem pmtParse_pmtSection {recs : List (Byte × Nat × Nat × List Byte)} {descs crc : List Byte}
    (hfits : 13 + descs.length + (esArea recs).length < 4096) (hcrc : crc.length = 4)
    (tid b5 b6 b7 : Byte) (top prog pcr top2 : Nat) (extra : List Byte) :
    ∃ rs, rs.map EsRec.entry = recs.map esEntryOf ∧
      pmtParse (pmtSection tid top prog b5 b6 b7 pcr top2 descs recs crc ++ extra) = some {
        tableId := tid
        programNumber := BitVec.ofNat 16 prog
        pcrPid := BitVec.ofNat 13 pcr
        programInfoLength := BitVec.ofNat 12 descs.length
        sectionLength := BitVec.ofNat 12 (13 + descs.length + (esArea recs).length)
        records := rs } := by
  rw [pmtSection_eq]
  generalize hhead : pmtHead tid top (13 + descs.length + (esArea recs).length) prog b5 b6 b7 pcr top2 descs.length = head
  have hheadLen : head.length = 12 := by rw [← hhead]; rfl
  obtain ⟨rs, hrs, hentries⟩ := pmtRecords_esArea (recs := recs) (rounds := 12 + descs.length + (esArea recs).length)
    (by omega) (by omega) (head ++ descs) (crc ++ extra)
  rw [List.append_assoc, List.length_append, hheadLen] at hrs
  generalize hd : head ++ (descs ++ (esArea recs ++ (crc ++ extra))) = d at hrs ⊢
  have hlen : d.length = 12 + (descs.length + ((esArea recs).length + (4 + extra.length))) := by
    rw [← hd, List.length_append, List.length_append, List.length_append, List.length_append, hcrc, hheadLen]
  have htid : d.getD 0 0#8 = tid := by rw [← hd, ← hhead]; rfl
  have hprog : pair d 3 = prog % 2 ^ 16 := by rw [← hd, ← hhead, pair_pmtHead_3]
  have hpcr : pair d 8 = pcr % 2 ^ 16 := by rw [← hd, ← hhead, pair_pmtHead_8]
  have hsl : pair d 1 % 4096 = 13 + descs.length + (esArea recs).length := by
    rw [← hd, ← hhead, pair_pmtHead_1]; omega
  have hpil : pair d 10 % 4096 = descs.length := by
    rw [← hd, ← hhead, pair_pmtHead_10]; omega
  refine ⟨rs, hentries, pmtParse_eq_some_iff.mpr ⟨by omega, by omega, by omega, rs, ?_, ?_⟩⟩
  · rw [hsl, hpil, ← hrs]
    congr 1 <;> omega
  · rw [pmtSectionOf, htid, hprog, hpcr, hsl, hpil, ofNat_mod_two_pow le_rfl, ofNat_mod_two_pow (by decide)]

/-- Settles O45: the parse gives back the fields and the entries, and the commit merges them. -/
theorem pmtSectionRoundTrip : Obligations.PmtSectionRoundTrip := by
  intro s u cfg tid b5 b6 b7 top top2 prog pcr recs descs crc extra sl m hu _ _ _ hfits hcrc hdata
  obtain ⟨rs, hentries, hparse⟩ := pmtParse_pmtSection hfits hcrc tid b5 b6 b7 top prog pcr top2 extra
  have hcount : rs.length = recs.length := by simpa using congrArg List.length hentries
  rw [← hdata] at hparse
  change Host.Outcome.next (pmtDecode s) = _
  rw [pmtDecode_of_some hu hparse, pmtCommit_eq]
  simp only [hentries, hcount]
  rfl

end Sys2Proof.Machine
end

section
/-! PROOFS. Bytes that PMT_DECODE accepts are a PMT section, cut into its fields by the lengths it declares
(43_psi_tables.md R311, R320, R321). -/

namespace Sys2Proof.Machine

open Sys2Proof.Claims

/-! ## Slices -/

theorem slice_append_slice (d : List Byte) {i j k : Nat} (hij : i ≤ j) (hjk : j ≤ k) :
    slice d i j ++ slice d j k = slice d i k := by
  obtain ⟨m, rfl⟩ := Nat.exists_eq_add_of_le hij
  have hcut : slice d i (i + m) = ((d.take k).drop i).take m := by
    rw [List.take_drop, List.take_take, Nat.min_eq_left hjk]; rfl
  rw [hcut]
  exact List.drop_take_append_drop _ _ _

theorem length_slice (d : List Byte) {i j : Nat} (hj : j ≤ d.length) : (slice d i j).length = j - i := by
  rw [slice, List.length_drop, List.length_take, Nat.min_eq_left hj]

theorem slice_empty (d : List Byte) {i j : Nat} (h : j ≤ i) : slice d i j = [] := by
  rw [slice, List.drop_eq_nil_iff, List.length_take]
  omega

theorem slice_full (d : List Byte) : slice d 0 d.length = d := by rw [slice, List.take_length, List.drop_zero]

theorem slice_one {d : List Byte} {i : Nat} (h : i < d.length) : slice d i (i + 1) = [d.getD i 0#8] := by
  rw [slice, ← List.take_drop, List.take_one_drop_eq_of_lt_length h, List.getD_eq_getElem _ _ h]; rfl

theorem two_pair (d : List Byte) (i : Nat) : two (pair d i) = [d.getD i 0#8] ++ [d.getD (i + 1) 0#8] := by
  have h₁ := (d.getD (i + 1) 0#8).isLt
  have hhigh : pair d i / 256 = byte d i := by unfold pair byte; omega
  have hlow : BitVec.ofNat 8 (pair d i) = d.getD (i + 1) 0#8 :=
    BitVec.eq_of_toNat_eq (by rw [BitVec.toNat_ofNat]; unfold pair byte; omega)
  rw [two, hhigh, hlow, BitVec.ofNat_toNat, BitVec.setWidth_eq]; rfl

theorem slice_two {d : List Byte} {i : Nat} (h : i + 2 ≤ d.length) : slice d i (i + 2) = two (pair d i) := by
  rw [two_pair, ← slice_one (by omega), ← slice_one (by omega), slice_append_slice d (by omega) (by omega)]

/-! ## Records -/

/-- The record at q of a section, as the source of its bytes. -/
def esSourceAt (d : List Byte) (q : Nat) : Byte × Nat × Nat × List Byte :=
  (d.getD q 0#8, pair d (q + 1), pair d (q + 3) / 4096, slice d (q + 5) (q + 5 + pair d (q + 3) % 4096))

theorem esBytes_esSourceAt {d : List Byte} {q : Nat} (h : q + 5 + pair d (q + 3) % 4096 ≤ d.length) :
    esBytes (esSourceAt d q) = slice d q (q + 5 + pair d (q + 3) % 4096) := by
  have hinfo : pair d (q + 3) / 4096 * 4096 + pair d (q + 3) % 4096 = pair d (q + 3) := by omega
  have hdescs := length_slice d (i := q + 5) h
  rw [Nat.add_sub_cancel_left] at hdescs
  simp only [esBytes, esSourceAt]
  rw [hdescs, hinfo, ← slice_one (by omega), ← slice_two (by omega), ← slice_two (by omega),
    slice_append_slice d (by omega) (by omega), slice_append_slice d (by omega) (by omega),
    slice_append_slice d (by omega) (by omega)]

/-- Bytes that the record loop accepts are the bytes of records. -/
theorem exists_esArea_of_pmtRecords {d : List Byte} {e : Nat} (he : e ≤ d.length) {rounds q : Nat} {rs : List EsRec}
    (h : pmtRecords d e rounds q = some rs) :
    ∃ recs, (∀ r ∈ recs, r.2.2.1 < 16) ∧ slice d q e = esArea recs := by
  have hend {q : Nat} (hq : e ≤ q) : ∃ recs, (∀ r ∈ recs, r.2.2.1 < 16) ∧ slice d q e = esArea recs :=
    ⟨[], by simp, slice_empty d hq⟩
  induction rounds generalizing q rs with
  | zero =>
    by_cases hq : q < e
    · rw [pmtRecords, if_pos hq] at h; cases h
    · exact hend (Nat.le_of_not_lt hq)
  | succ rounds ih =>
    by_cases hq : q < e
    · obtain ⟨hfits, rest, hrest, -⟩ := (pmtRecords_succ_eq_some_iff hq).mp h
      obtain ⟨recs, htops, hrecs⟩ := ih hrest
      have htop : (esSourceAt d q).2.2.1 < 16 := Nat.div_lt_of_lt_mul (pair_lt d (q + 3))
      refine ⟨esSourceAt d q :: recs, List.forall_mem_cons.mpr ⟨htop, htops⟩, ?_⟩
      rw [esArea_cons, esBytes_esSourceAt (by omega), ← hrecs, slice_append_slice d (by omega) hfits]
    · exact hend (Nat.le_of_not_lt hq)

/-! ## The section -/

theorem pmtHead_eq_slice {d : List Byte} (h : 12 ≤ d.length) :
    pmtHead (d.getD 0 0#8) (pair d 1 / 4096) (pair d 1 % 4096) (pair d 3) (d.getD 5 0#8) (d.getD 6 0#8) (d.getD 7 0#8)
      (pair d 8) (pair d 10 / 4096) (pair d 10 % 4096) = slice d 0 12 := by
  have hthree : [d.getD 5 0#8, d.getD 6 0#8, d.getD 7 0#8] = slice d 5 8 := by
    rw [← slice_append_slice d (i := 5) (j := 6) (k := 8) (by omega) (by omega),
      ← slice_append_slice d (i := 6) (j := 7) (k := 8) (by omega) (by omega), slice_one (by omega),
      slice_one (by omega), slice_one (by omega)]; rfl
  rw [pmtHead, Nat.div_add_mod', Nat.div_add_mod', hthree, ← slice_one (by omega), ← slice_two (by omega),
    ← slice_two (by omega), ← slice_two (by omega), ← slice_two (by omega)]
  simp (disch := omega) only [slice_append_slice, Nat.reduceAdd]

/-- Bytes that parse are a section with bytes after it. -/
theorem exists_pmtSection_of_pmtParse {d : List Byte} {sec : PmtSection} (h : pmtParse d = some sec) :
    ∃ (tid b5 b6 b7 : Byte) (top top2 prog pcr : Nat) (recs : List (Byte × Nat × Nat × List Byte))
      (descs crc extra : List Byte), top < 16 ∧ top2 < 16 ∧ (∀ r ∈ recs, r.2.2.1 < 16) ∧
      13 + descs.length + (esArea recs).length < 4096 ∧ crc.length = 4 ∧
      d = pmtSection tid top prog b5 b6 b7 pcr top2 descs recs crc ++ extra := by
  obtain ⟨hmin, hlen, hdescsFit, rs, hrs, -⟩ := pmtParse_eq_some_iff.mp h
  obtain ⟨sl, hsl⟩ : ∃ sl, sl = pair d 1 % 4096 := ⟨_, rfl⟩
  obtain ⟨pil, hpil⟩ : ∃ pil, pil = pair d 10 % 4096 := ⟨_, rfl⟩
  rw [← hsl] at hmin hlen hdescsFit hrs
  rw [← hpil] at hdescsFit hrs
  obtain ⟨recs, htops, hrecs⟩ := exists_esArea_of_pmtRecords (by omega) hrs
  have hhead := pmtHead_eq_slice (d := d) (by omega)
  rw [← hpil, ← hsl] at hhead
  have hdescs : (slice d 12 (12 + pil)).length = pil := by rw [length_slice d (by omega)]; omega
  have harea : (esArea recs).length = sl - 1 - (12 + pil) := by rw [← hrecs, length_slice d (by omega)]
  have hcrc : (slice d (sl - 1) (3 + sl)).length = 4 := by rw [length_slice d hlen]; omega
  have hsum : 13 + pil + (esArea recs).length = sl := by omega
  refine ⟨d.getD 0 0#8, d.getD 5 0#8, d.getD 6 0#8, d.getD 7 0#8, pair d 1 / 4096, pair d 10 / 4096, pair d 3,
    pair d 8, recs, slice d 12 (12 + pil), slice d (sl - 1) (3 + sl), slice d (3 + sl) d.length,
    Nat.div_lt_of_lt_mul (pair_lt d 1), Nat.div_lt_of_lt_mul (pair_lt d 10), htops, by omega, hcrc, ?_⟩
  rw [pmtSection_eq, hdescs, hsum, hhead, ← hrecs]
  simp (disch := omega) only [slice_append_slice, slice_full]

/-- Settles O46: the parse either fails, which raises TRUNC_SECTION, or shows a section. -/
theorem pmtDecodeIsAllOrNothing : Obligations.PmtDecodeIsAllOrNothing := by
  intro s u cfg hu
  cases hparse : pmtParse u.data with
  | some sec => exact .inl (exists_pmtSection_of_pmtParse hparse)
  | none =>
    refine .inr ?_
    change Host.Outcome.next (pmtDecode s) = _
    rw [pmtDecode_of_none hu hparse]; rfl

end Sys2Proof.Machine
end

section
/-! PROOFS. The timestamp decoders and PES_HDR_DECODE on the context of a frame (44_pes.md R365 to R370). -/

namespace Sys2Proof.Machine

open Sys2Proof.Claims

/-- Settles O42: the timestamp of five bytes is the number that its three value segments are worth. -/
theorem timestampDecode : Obligations.TimestampDecode := by
  intro s i c b7 hc
  refine ⟨fun _ => ?pts, fun _ => ?dts⟩
  case pts =>
    rw [← timestampAt_eq]
    exact congrArg Host.Outcome.next (ptsDecode_eq hc)
  case dts =>
    rw [← timestampAt_eq]
    exact congrArg Host.Outcome.next (dtsDecode_eq hc)

/-! ## A header decode in progress -/

/-- The state `s` with the header of context `c` decoded so far to `st`, the result `ps`, and TRUNC_PES raised if `short`. -/
def decoding (s : State) (i : Nat) (c : Context) (st : CtxState) (ps : Option Nat) (short : Bool) : State :=
  { withCtx s i { c with st := st } with
    flight := { s.flight with ps := ps, errs := s.flight.errs ||| mask short 4 } }

section
variable {s : State} {i : Nat} {c : Context} (hc : s.ctx[i]? = some c) (st : CtxState) (ps : Option Nat) (short : Bool)

@[simp] theorem decoding_pl : (decoding s i c st ps short).flight.pl = s.flight.pl := rfl

@[simp] theorem setPs_decoding (ps' : Option Nat) :
    setPs ps' (decoding s i c st ps short) = decoding s i c st ps' short := rfl

@[simp] theorem raise_truncPes_decoding : raise .truncPes (decoding s i c st ps short) = decoding s i c st ps true := by
  have hmask : mask short 4 ||| Cause.truncPes.bit = mask true 4 := by cases short <;> rfl
  simp only [raise_eq, decoding, BitVec.or_assoc, hmask]

include hc

theorem decoding_start : decoding s i c c.st s.flight.ps false = s := by
  simp only [decoding, set_self_of hc, mask_false, BitVec.or_zero]

theorem decoding_ctx : (decoding s i c st ps short).ctx[i]? = some { c with st := st } := getElem?_set_of hc _

theorem onCtx_decoding (f : CtxState → CtxState) :
    onCtx i f (decoding s i c st ps short) = decoding s i c (f st) ps short := by
  rw [onCtx_of (decoding_ctx hc st ps short)]
  simp only [decoding, List.set_set]

theorem truncPes_decoding :
    truncPes i (decoding s i c st ps short) = decoding s i c { st with hdrErr := true } ps true := by
  rw [truncPes, raise_truncPes_decoding, onCtx_decoding hc]

end

/-! ## The timestamps of a header (R365, R368) -/

/-- A header of PTS_DTS_flags `pdf` and `hdl` header bytes announces a PTS, or a DTS, and covers it. -/
abbrev ptsCovered (pdf hdl : Nat) : Bool := decide (2 ≤ pdf) && decide (5 ≤ hdl)
abbrev dtsCovered (pdf hdl : Nat) : Bool := decide (pdf = 3) && decide (10 ≤ hdl)

/-- It announces a timestamp that it does not cover. -/
abbrev ptsMissing (pdf hdl : Nat) : Bool := decide (2 ≤ pdf) && decide (hdl < 5)
abbrev dtsMissing (pdf hdl : Nat) : Bool := decide (pdf = 3) && decide (hdl < 10)

/-- The reassembly state after the timestamps of a header, whose payload is `e`. -/
def stamped (e : List Byte) (pdf hdl : Nat) (st : CtxState) : CtxState :=
  { st with
    ptsV := st.ptsV || ptsCovered pdf hdl
    pts := if ptsCovered pdf hdl then BitVec.ofNat 33 (timestamp e 9) else st.pts
    dtsV := st.dtsV || dtsCovered pdf hdl
    dts := if dtsCovered pdf hdl then BitVec.ofNat 33 (timestamp e 14) else st.dts
    hdrErr := st.hdrErr || (ptsMissing pdf hdl || dtsMissing pdf hdl) }

section
variable {s : State} {i : Nat} {c : Context} (hc : s.ctx[i]? = some c) (st : CtxState) (ps : Option Nat) (short : Bool)
  (pdf : BitVec 2) (hdl : Nat)

theorem announces_pts_iff : pdf = 2#2 ∨ pdf = 3#2 ↔ 2 ≤ pdf.toNat := by
  have hlt := pdf.isLt
  rw [← BitVec.toNat_inj, ← BitVec.toNat_inj, BitVec.toNat_ofNat, BitVec.toNat_ofNat]
  omega

theorem announces_dts_iff : pdf = 3#2 ↔ pdf.toNat = 3 := (BitVec.toNat_inj (y := 3#2)).symm

include hc

theorem pesPts_decoding : pesPts i pdf (9 + hdl) (decoding s i c st ps short) = decoding s i c { st with
    ptsV := st.ptsV || ptsCovered pdf.toNat hdl
    pts := if ptsCovered pdf.toNat hdl then BitVec.ofNat 33 (timestamp s.flight.pl 9) else st.pts
    hdrErr := st.hdrErr || ptsMissing pdf.toNat hdl } ps (short || ptsMissing pdf.toNat hdl) := by
  rw [pesPts]
  by_cases hpdf : 2 ≤ pdf.toNat
  · rw [if_pos (announces_pts_iff pdf |>.mpr hpdf)]
    by_cases hhdl : 5 ≤ hdl
    · rw [if_pos (by omega), ptsDecode, onCtx_decoding hc, decoding_pl, timestampAt_eq]
      simp [ptsCovered, ptsMissing, hpdf, hhdl, Nat.not_lt.mpr hhdl]
    · rw [if_neg (by omega), truncPes_decoding hc]
      simp [ptsCovered, ptsMissing, hpdf, hhdl, Nat.lt_of_not_le hhdl]
  · rw [if_neg (mt (announces_pts_iff pdf).mp hpdf)]
    simp [ptsCovered, ptsMissing, hpdf]

theorem pesDts_decoding : pesDts i pdf (9 + hdl) (decoding s i c st ps short) = decoding s i c { st with
    dtsV := st.dtsV || (st.ptsV && dtsCovered pdf.toNat hdl)
    dts := if st.ptsV && dtsCovered pdf.toNat hdl then BitVec.ofNat 33 (timestamp s.flight.pl 14) else st.dts
    hdrErr := st.hdrErr || (st.ptsV && dtsMissing pdf.toNat hdl) } ps
      (short || (st.ptsV && dtsMissing pdf.toNat hdl)) := by
  rw [pesDts, ctxAt_of (decoding_ctx hc st ps short)]
  simp only [announces_dts_iff]
  by_cases hpdf : pdf.toNat = 3 ∧ st.ptsV = true
  · obtain ⟨hthree, hptsV⟩ := hpdf
    rw [if_pos ⟨hthree, hptsV⟩]
    by_cases hhdl : 10 ≤ hdl
    · rw [if_pos (by omega), dtsDecode, onCtx_decoding hc, decoding_pl, timestampAt_eq]
      simp [dtsCovered, dtsMissing, hthree, hptsV, hhdl, Nat.not_lt.mpr hhdl]
    · rw [if_neg (by omega), truncPes_decoding hc]
      simp [dtsCovered, dtsMissing, hthree, hptsV, hhdl, Nat.lt_of_not_le hhdl]
  · rw [if_neg hpdf]
    have hnone : (st.ptsV && decide (pdf.toNat = 3)) = false := by rw [Bool.and_comm]; simpa using hpdf
    simp [dtsCovered, dtsMissing, ← Bool.and_assoc, hnone]

/-- A DTS that is covered comes with its PTS, and one whose PTS is missing counts as missing already. -/
theorem stamps_decoding : pesDts i pdf (9 + hdl) (pesPts i pdf (9 + hdl) (decoding s i c st ps false)) =
    decoding s i c (stamped s.flight.pl pdf.toNat hdl st) ps
      (ptsMissing pdf.toNat hdl || dtsMissing pdf.toNat hdl) := by
  have hcovered (v : Bool) : ((v || ptsCovered pdf.toNat hdl) && dtsCovered pdf.toNat hdl) = dtsCovered pdf.toNat hdl := by
    cases v
    · rw [Bool.false_or, Bool.eq_iff_iff]; simp; omega
    · simp
  have hmissing (v : Bool) : (ptsMissing pdf.toNat hdl || ((v || ptsCovered pdf.toNat hdl) && dtsMissing pdf.toNat hdl)) =
      (ptsMissing pdf.toNat hdl || dtsMissing pdf.toNat hdl) := by
    cases v
    · rw [Bool.false_or, Bool.eq_iff_iff]; simp; omega
    · simp
  rw [pesPts_decoding hc, pesDts_decoding hc]
  simp only [hcovered, Bool.or_assoc, hmissing, Bool.false_or, stamped]

end

/-! ## The header (R365 to R368) -/

/-- A header-less stream_id. -/
theorem headerless_iff (b : Byte) :
    headerless b = true ↔ b.toNat ∈ [0xBC, 0xBE, 0xBF, 0xF0, 0xF1, 0xF2, 0xF8, 0xFF] := by
  simp [headerless, ← BitVec.toNat_inj]

/-- The reassembly state after stream_id and PES_packet_length, and after PTS_DTS_flags and HDL. -/
def named (e : List Byte) (st : CtxState) : CtxState := { st with sid := e.getD 3 0#8, ppl := BitVec.ofNat 16 (pair e 4) }
def framed (e : List Byte) (st : CtxState) : CtxState :=
  { named e st with pdf := BitVec.ofNat 2 (byte e 7 / 64), hdl := e.getD 8 0#8 }

theorem pdf_toNat (b : Byte) : (b.extractLsb' 6 2).toNat = b.toNat / 64 := by
  have hlt := b.isLt
  rw [toNat_field]
  omega

/-- PES_HDR_DECODE by its branches: what is decoded, the result, and whether TRUNC_PES is raised. -/
theorem pesHdrDecode_eq {s : State} {i : Nat} {c : Context} (hc : s.ctx[i]? = some c) :
    let e := s.flight.pl
    let hdl := byte e 8
    let pdf := byte e 7 / 64
    pesHdrDecode i s =
      if e.length < 6 then decoding s i c { c.st with hdrErr := true } none true
      else if byte e 3 ∈ [0xBC, 0xBE, 0xBF, 0xF0, 0xF1, 0xF2, 0xF8, 0xFF] then decoding s i c (named e c.st) (some 6) false
      else if e.length < 9 then decoding s i c { named e c.st with hdrErr := true } none true
      else if e.length < 9 + hdl then decoding s i c { framed e c.st with hdrErr := true } none true
      else decoding s i c (stamped e pdf hdl (framed e c.st)) (some (9 + hdl))
        (ptsMissing pdf hdl || dtsMissing pdf hdl) := by
  intro e hdl pdf
  have hpdf : (byteAt e 7).extractLsb' 6 2 = BitVec.ofNat 2 pdf := eq_ofNat_of_toNat (pdf_toNat _)
  have hshort (st : CtxState) : setPs none (truncPes i (decoding s i c st s.flight.ps false)) =
      decoding s i c { st with hdrErr := true } none true := by rw [truncPes_decoding hc]; rfl
  have hfirst := hshort c.st
  have hstamps := stamps_decoding hc (framed e c.st) s.flight.ps (BitVec.ofNat 2 pdf) hdl
  rw [decoding_start hc] at hfirst
  rw [← hpdf, pdf_toNat] at hstamps
  unfold pesHdrDecode
  extract_lets s₁ pdf' ps s₂
  have hs₁ : s₁ = decoding s i c (named e c.st) s.flight.ps false := by
    have h := onCtx_decoding hc c.st s.flight.ps false fun c => { c with sid := byteAt e 3, ppl := be16 e 4 }
    rw [decoding_start hc] at h
    rw [named, ← eq_ofNat_of_toNat (be16_toNat e 4)]
    exact h
  have hs₂ : s₂ = decoding s i c (framed e c.st) s.flight.ps false := by
    rw [framed, ← hpdf]
    exact (congrArg (onCtx i _) hs₁).trans (onCtx_decoding hc _ _ _ _)
  refine if_congr Iff.rfl hfirst (if_congr (headerless_iff _) ?_ (if_congr Iff.rfl ?_ (if_congr Iff.rfl ?_ ?_)))
  · rw [hs₁]; rfl
  · rw [hs₁]; exact hshort _
  · rw [hs₂]; exact hshort _
  · rw [hs₂]; exact congrArg (setPs _) hstamps

/-- Settles O41: each case is a branch of the decode. -/
theorem pesHeaderDecode : Obligations.PesHeaderDecode := by
  intro s i c e hdl pdf noHeader named full result pts dts missing hc
  have hanswer {t : State} (h : pesHdrDecode i s = t) : Answers (.pesHdrDecode i) s t := congrArg Host.Outcome.next h
  have hdecode := pesHdrDecode_eq hc
  have hsix (h : 9 ≤ e.length) : ¬ e.length < 6 := by omega
  refine ⟨fun hlen => hanswer ?tooShort, fun hlen hno => hanswer ?headerless, fun hlen hno hshort => hanswer ?unread,
    fun hlen hno hshort => hanswer ?overrun, fun hlen hno hfits => hanswer ?fits⟩
  case tooShort => rw [hdecode, if_pos hlen]; rfl
  case headerless => rw [hdecode, if_neg (Nat.not_lt.mpr hlen), if_pos hno]; rfl
  case unread => rw [hdecode, if_neg (Nat.not_lt.mpr hlen), if_neg hno, if_pos hshort]; rfl
  case overrun =>
    rw [hdecode, if_neg (hsix hlen), if_neg hno, if_neg (Nat.not_lt.mpr hlen), if_pos hshort]; rfl
  case fits =>
    rw [hdecode, if_neg (hsix hlen), if_neg hno, if_neg (Nat.not_lt.mpr hlen), if_neg (Nat.not_lt.mpr hfits)]; rfl

end Sys2Proof.Machine
end

section
/-! PROOFS. PES_START: the unit in progress is emitted and the next begins, raw or with its header (44_pes.md R361, R366,
R367). -/

namespace Sys2Proof.Machine

open Sys2Proof.Claims

/-! ## The start code -/

theorem hasStartCode_iff (pl : List Byte) : hasStartCode pl = true ↔ pl.take 3 = [0#8, 0#8, 1#8] := by
  match pl with
  | [] | [_] | [_, _] => simp [hasStartCode]
  | a :: b :: d :: rest =>
    have ha := a.isLt
    have hb := b.isLt
    have hd := d.isLt
    have hword := be24_toNat (a :: b :: d :: rest) 0
    simp only [hasStartCode, Bool.and_eq_true, beq_iff_eq, ← BitVec.toNat_inj, hword]
    simp [← BitVec.toNat_inj]
    omega

/-! ## The boundary -/

theorem unitOf_pes {c : Context} (h : c.cfg.kind = .pes) (i : Nat) (seq : BitVec 16) (k : BitVec 32) :
    unitOf i c seq k = closed i true c.st seq k := by
  simp [unitOf, h]

/-- The state in which PES_START has emitted the unit in progress of context `c`, if there is one. -/
def pesClosed (i : Nat) (c : Context) (s : State) : State :=
  { s with
    seq := if c.st.pending then BitVec.ofNat 16 (s.seq.toNat + 1) else s.seq
    flight := { s.flight with
      unit := if c.st.pending then some (closed i true c.st s.seq s.flight.k) else s.flight.unit } }

/-- BEGIN overwrites whatever the context held. -/
theorem beginUnit_onCtx (i : Nat) (f : CtxState → CtxState) (s : State) : beginUnit i (onCtx i f s) = beginUnit i s := by
  have hctx (k : BitVec 32) : (s.ctx.modify i fun c => { c with st := f c.st }).modify i (fun c => { c with st := ctxBegin k })
      = s.ctx.modify i (fun c => { c with st := ctxBegin k }) := List.modify_modify_eq ..
  simp only [beginUnit, onCtx, hctx]

section
variable {s : State} {i : Nat} {c : Context} (hc : s.ctx[i]? = some c)

include hc in
theorem pesClosed_ctx : (pesClosed i c s).ctx[i]? = some c := hc

theorem pesClosed_idle (hp : c.st.pending = false) : pesClosed i c s = s := by
  simp [pesClosed, hp]

variable (hpes : c.cfg.kind = .pes)
include hc hpes

theorem emitUnit_pes (hp : c.st.pending = true) :
    emitUnit i s = onCtx i (fun c => { c with pending := false }) (pesClosed i c s) := by
  have hnone (t : State) : decodeTable c.cfg t = t := by rw [decodeTable, hpes]
  rw [emitUnit_eq hc, hnone, unitOf_pes hpes, pesClosed, hp, add_one_eq_ofNat]; rfl

theorem pesStart_eq : pesStart i s =
    if s.flight.pl.take 3 = [0#8, 0#8, 1#8] then pesOpenHeader i (beginUnit i (pesClosed i c s))
    else openSection i s.flight.pl false (pesClosed i c s) := by
  unfold pesStart
  rw [ctxAt_of hc]
  extract_lets s₁ s₂
  have hbegin : s₂ = beginUnit i (pesClosed i c s) := by
    unfold s₂ s₁
    cases hp : c.st.pending with
    | true => rw [if_pos rfl, emitUnit_pes hc hpes hp, beginUnit_onCtx]
    | false => rw [if_neg Bool.false_ne_true, pesClosed_idle hp]
  rw [hbegin]
  exact if_congr (hasStartCode_iff s.flight.pl) rfl rfl

end

/-- Settles O39: the bytes of a raw unit begin at the first of the payload. -/
theorem pesStartRaw : Obligations.PesStartRaw := by
  intro s i c h pl cap hc hpes hraw
  change Host.Outcome.next (pesStart i s) = _
  rw [pesStart_eq hc hpes, if_neg hraw, openSection_begun (pesClosed_ctx hc)]; rfl

/-! ## A unit with its header -/

/-- A unit with PESHDR, begun by the frame of packet index `k` (R361). -/
def withHeader (k : BitVec 32) : CtxState := { ctxBegin k with pesHdr := true }

/-- The state in which PES_START decodes the header of the unit that it begins in context `c`. -/
def headerStart (i : Nat) (c : Context) (s : State) : State :=
  withCtx (pesClosed i c s) i ⟨c.cfg, withHeader s.flight.k⟩

/-- APPEND to a unit without a byte. -/
theorem appendUnit_to_empty {s : State} {i : Nat} {c : Context} (hc : s.ctx[i]? = some c) (hbuf : c.st.buf = [])
    (hovf : c.st.ovf = false) (b : List Byte) :
    let cap := s.params.bufBytes i
    appendUnit i b s = { s with
      ctx := s.ctx.set i { c with st := { c.st with buf := b.take cap, ovf := decide (cap < b.length) } }
      flight := { s.flight with errs := s.flight.errs ||| mask (decide (cap < b.length)) 5 } } := by
  intro cap
  have hfits : c.st.buf.length ≤ cap := by rw [hbuf]; exact Nat.zero_le cap
  rw [appendUnit_eq hc, appended_eq_fill hfits, overflowBit_eq_mask hfits, hbuf, hovf]
  simp only [List.nil_append, List.length_nil, Nat.zero_add, Bool.false_or, Bool.not_false, Bool.and_true, fill, cap]

/-- A header decode does not touch the bytes of the unit. -/
theorem pesHdrDecode_keeps_bytes {s : State} {i : Nat} {c : Context} (hc : s.ctx[i]? = some c) : ∃ st ps short,
    pesHdrDecode i s = decoding s i c st ps short ∧ st.buf = c.st.buf ∧ st.ovf = c.st.ovf := by
  rw [pesHdrDecode_eq hc]
  split_ifs
  all_goals exact ⟨_, _, _, rfl, rfl, rfl⟩

section
variable {s : State} {i : Nat} {c : Context} (hc : s.ctx[i]? = some c)
include hc

theorem headerStart_ctx : (headerStart i c s).ctx[i]? = some ⟨c.cfg, withHeader s.flight.k⟩ :=
  getElem?_set_of (pesClosed_ctx hc) _

theorem onCtx_pesHdr_beginUnit : onCtx i (fun c => { c with pesHdr := true }) (beginUnit i (pesClosed i c s)) =
    headerStart i c s := by
  rw [beginUnit_eq (pesClosed_ctx hc), onCtx_of (getElem?_set_of (pesClosed_ctx hc) _)]
  exact congrArg (fun ctx => { pesClosed i c s with ctx := ctx }) (List.set_set _)

variable (hpes : c.cfg.kind = .pes) (hcode : s.flight.pl.take 3 = [0#8, 0#8, 1#8])
include hpes hcode

theorem pesStart_of_code : pesStart i s = pesOpenHeader i (beginUnit i (pesClosed i c s)) := by
  rw [pesStart_eq hc hpes, if_pos hcode]

theorem pesStart_of_truncated (hps : (pesHdrDecode i (headerStart i c s)).flight.ps = none) :
    pesStart i s = pesHdrDecode i (headerStart i c s) := by
  rw [pesStart_of_code hc hpes hcode, pesOpenHeader, onCtx_pesHdr_beginUnit hc]
  simp only [hps]

theorem pesStart_of_header {ps : Nat} (hps : (pesHdrDecode i (headerStart i c s)).flight.ps = some ps) :
    pesStart i s = appendUnit i (s.flight.pl.drop ps) (pesHdrDecode i (headerStart i c s)) := by
  rw [pesStart_of_code hc hpes hcode, pesOpenHeader, onCtx_pesHdr_beginUnit hc]
  simp only [hps, slice_to_end rfl]; rfl

end

/-- Settles O40: PES_HDR_DECODE runs on the unit that begins, and leaves its bytes empty. -/
theorem pesStartWithHeader : Obligations.PesStartWithHeader := by
  intro s i c h pl cap s1 hc hpes hcode
  have hs1 : headerStart i c s = s1 := by
    have hbegun : withHeader s.flight.k = { begun s.flight.k cap [] false with pesHdr := true } :=
      congrArg (fun st : CtxState => { st with pesHdr := true }) (ctxBegin_eq_begun s.flight.k cap false)
    rw [headerStart, hbegun]; rfl
  obtain ⟨st, ps, short, hdecode, hbuf, hovf⟩ := pesHdrDecode_keeps_bytes (headerStart_ctx hc)
  have hctx := decoding_ctx (headerStart_ctx hc) st ps short
  refine ⟨_, _, (congrArg (fun t => Host.Outcome.next (pesHdrDecode i t)) hs1.symm).trans
    (congrArg Host.Outcome.next hdecode), hctx, hbuf, fun hps => ?_, fun n hps => ?_⟩
  · exact congrArg Host.Outcome.next ((pesStart_of_truncated hc hpes hcode (hdecode ▸ hps)).trans hdecode)
  · refine congrArg Host.Outcome.next ((pesStart_of_header hc hpes hcode (hdecode ▸ hps)).trans ?_)
    rw [hdecode]
    exact appendUnit_to_empty hctx hbuf hovf _

end Sys2Proof.Machine
end

section
/-! PROOFS. A PES unit over several frames of one context: a start packet with its header, continuations and the next
start packet (44_pes.md R362, R373). -/

namespace Sys2Proof.Machine

open Sys2Proof.Claims

/-! ## A header that fits -/

/-- A payload that begins with a PES header which it holds whole, and which covers the timestamps that it announces. -/
structure FittingHeader (e : List Byte) : Prop where
  length   : 9 ≤ e.length
  code     : e.take 3 = [0#8, 0#8, 1#8]
  streamId : byte e 3 ∉ [0xBC, 0xBE, 0xBF, 0xF0, 0xF1, 0xF2, 0xF8, 0xFF]
  fits     : 9 + byte e 8 ≤ e.length
  pts      : 2 ≤ byte e 7 / 64 → 5 ≤ byte e 8
  dts      : byte e 7 / 64 = 3 → 10 ≤ byte e 8

/-- A unit of bytes `b` begun by the frame of packet index `k`, with the fields of the header of its payload `e`. -/
def headed (k : BitVec 32) (e b : List Byte) : CtxState where
  pending := true
  buf := b
  ovf := false
  ptrErr := false
  hdrErr := false
  startPkt := k
  pesHdr := true
  sid := e.getD 3 0#8
  ppl := BitVec.ofNat 16 (pair e 4)
  hdl := e.getD 8 0#8
  pdf := BitVec.ofNat 2 (byte e 7 / 64)
  ptsV := decide (2 ≤ byte e 7 / 64)
  pts := if 2 ≤ byte e 7 / 64 then BitVec.ofNat 33 (timestamp e 9) else 0
  dtsV := decide (byte e 7 / 64 = 3)
  dts := if byte e 7 / 64 = 3 then BitVec.ofNat 33 (timestamp e 14) else 0

section
variable {e : List Byte} (he : FittingHeader e)
include he

theorem ptsCovered_of_fitting : ptsCovered (byte e 7 / 64) (byte e 8) = decide (2 ≤ byte e 7 / 64) := by
  rw [ptsCovered, ← Bool.decide_and, decide_eq_decide, and_iff_left_iff_imp]
  exact he.pts

theorem dtsCovered_of_fitting : dtsCovered (byte e 7 / 64) (byte e 8) = decide (byte e 7 / 64 = 3) := by
  rw [dtsCovered, ← Bool.decide_and, decide_eq_decide, and_iff_left_iff_imp]
  exact he.dts

/-- No timestamp is missing. -/
theorem missing_of_fitting : (ptsMissing (byte e 7 / 64) (byte e 8) || dtsMissing (byte e 7 / 64) (byte e 8)) = false := by
  have hpts := he.pts
  have hdts := he.dts
  rw [ptsMissing, dtsMissing, ← Bool.decide_and, ← Bool.decide_and, ← Bool.decide_or, decide_eq_false_iff_not]
  omega

/-- The whole header, decoded in a unit that has just begun. -/
theorem stamped_framed_withHeader (k : BitVec 32) :
    stamped e (byte e 7 / 64) (byte e 8) (framed e (withHeader k)) = headed k e [] := by
  simp only [stamped, ptsCovered_of_fitting he, dtsCovered_of_fitting he, missing_of_fitting he, decide_eq_true_eq]
  rfl

theorem pesHdrDecode_of_fitting {s : State} {i : Nat} {c : Context} (hc : s.ctx[i]? = some c) (hpl : s.flight.pl = e) :
    pesHdrDecode i s =
      decoding s i c (stamped e (byte e 7 / 64) (byte e 8) (framed e c.st)) (some (9 + byte e 8)) false := by
  have hlen := he.length
  rw [pesHdrDecode_eq hc, hpl, if_neg (by omega), if_neg he.streamId, if_neg (Nat.not_lt.mpr hlen),
    if_neg (Nat.not_lt.mpr he.fits), missing_of_fitting he]

end

/-! ## The operations of a PES context -/

section
variable {s : State} {i : Nat} {c : Context} (hc : s.ctx[i]? = some c)
include hc

/-- A start packet whose header fits begins the unit with the bytes after the header. -/
theorem pesStart_first (hpes : c.cfg.kind = .pes) (hp : c.st.pending = false) (he : FittingHeader s.flight.pl)
    (hroom : (s.flight.pl.drop (9 + byte s.flight.pl 8)).length ≤ s.params.bufBytes i) :
    pesStart i s = withCtx (onFlight (fun f => { f with ps := some (9 + byte s.flight.pl 8) }) s) i
      ⟨c.cfg, headed s.flight.k s.flight.pl (s.flight.pl.drop (9 + byte s.flight.pl 8))⟩ := by
  have hdecode : pesHdrDecode i (headerStart i c s) = decoding (headerStart i c s) i ⟨c.cfg, withHeader s.flight.k⟩
      (headed s.flight.k s.flight.pl []) (some (9 + byte s.flight.pl 8)) false := by
    rw [pesHdrDecode_of_fitting he (headerStart_ctx hc) rfl, stamped_framed_withHeader he]
  have hctx := decoding_ctx (headerStart_ctx hc) (headed s.flight.k s.flight.pl []) (some (9 + byte s.flight.pl 8)) false
  rw [pesStart_of_header hc hpes he.code (by rw [hdecode]; rfl), hdecode, appendUnit_to_empty hctx rfl rfl]
  simp only [decoding, headerStart, pesClosed_idle hp, List.take_of_length_le hroom,
    decide_eq_false (Nat.not_lt.mpr hroom), mask_false, BitVec.or_zero, List.set_set]
  rfl

/-- A continuation that fits adds its payload to the unit in progress. -/
theorem pesCont_of_fits (hp : c.st.pending = true) (hroom : (c.st.buf ++ s.flight.pl).length ≤ s.params.bufBytes i) :
    pesCont i s = withCtx s i ⟨c.cfg, { c.st with buf := c.st.buf ++ s.flight.pl }⟩ := by
  rw [List.length_append] at hroom
  have hfits : s.flight.pl.length ≤ roomAt s i := by rw [roomAt, ctxAt_of hc]; omega
  rw [pesCont_eq_secCont, secCont_pending hc hp, appendUnit, if_pos hfits, onCtx_of hc]

/-- A start packet emits the unit in progress, whatever its own payload. -/
theorem pesStart_unit (hpes : c.cfg.kind = .pes) (hp : c.st.pending = true) :
    (pesStart i s).flight.unit = some (closed i true c.st s.seq s.flight.k) := by
  have hkeeps : emission (pesStart i s) = emission (pesClosed i c s) := by
    rw [pesStart_eq hc hpes]
    split <;> simp
  obtain ⟨-, -, hunit, -⟩ := emission_eq_iff.mp hkeeps
  rw [hunit, pesClosed, hp]; rfl

end

/-! ## The operation of a frame of a PES context -/

section
variable {s : State} {fr : List Byte} {i : Nat} {c : Context} (hclean : Clean s i fr) (hc : s.ctx[i]? = some c)
  (hpes : c.cfg.kind = .pes) (hafev : c.cfg.afev = false)
include hclean hc hpes hafev

theorem afterClaim_pes : afterClaim s (packet fr) =
    if reassembles (packet fr) then
      (if pusiOf (packet fr) then pesStart i (claimState s (packet fr)) else pesCont i (claimState s (packet fr)))
    else claimState s (packet fr) := by
  have hkind : (ctxAt (claimState s (packet fr)) i).cfg.kind = .pes := hpes ▸ congrArg (·.cfg.kind) (ctxAt_of hc)
  rw [afterClaim_of_unreported (claimedBy_of_clean hclean) hc hafev, contextOp, hkind, hdrPusi_be32]

theorem afterClaim_pesStart (hpusi : pusiOf (packet fr) = true) (hra : reassembles (packet fr) = true) :
    afterClaim s (packet fr) = pesStart i (claimState s (packet fr)) := by
  rw [afterClaim_pes hclean hc hpes hafev, if_pos hra, if_pos hpusi]

theorem afterClaim_pesCont (hlen : (packet fr).length = 188) (hpusi : pusiOf (packet fr) = false) :
    afterClaim s (packet fr) = pesCont i (claimState s (packet fr)) := by
  rw [afterClaim_pes hclean hc hpes hafev, hpusi, if_neg Bool.false_ne_true]
  cases hra : reassembles (packet fr) with
  | true => rfl
  | false =>
    rw [pesCont_eq_secCont, secCont_of_empty (s := claimState s (packet fr)) (payload_eq_nil hlen hra)]; rfl

end

/-- A packet with an adaptation field or a payload that raises no AF_LEN reaches the reassembly. -/
theorem reassembles_of_clean {s : State} {i : Nat} {fr : List Byte} (hclean : Clean s i fr)
    (h : (hasAf (packet fr) || hasPayload (packet fr)) = true) : reassembles (packet fr) = true := by
  obtain ⟨-, -, -, hbad⟩ := hclean
  rw [afBad, Bool.and_or_distrib_left, Bool.or_eq_false_iff] at hbad
  obtain ⟨hfits, -⟩ := hbad
  rw [reassembles, h, hfits]; rfl

/-! ## The frames of a unit (R362, R373) -/

/-- The state after `n` frames of context i from `s`, the first a start packet and the last of packet `p`: the unit in
progress is `st`. -/
def inUnit (s : State) (i : Nat) (cfg : CtxCfg) (st : CtxState) (n : Nat) (p : List Byte) : State :=
  { s with
    ctx := s.ctx.set i ⟨cfg, st⟩
    pktIndex := s.pktIndex + BitVec.ofNat 32 n
    lastHdr := BitVec.ofNat 32 (header p)
    lastAf := BitVec.ofNat 32 (lastAfOf p)
    flight := .idle }

/-- One more frame, of packet `q`, after which the unit is `st'`. -/
theorem inUnit_next (s : State) (i : Nat) (cfg : CtxCfg) (st st' : CtxState) (n : Nat) (p q : List Byte) :
    { withCtx (inUnit s i cfg st n p) i ⟨cfg, st'⟩ with
      lastHdr := BitVec.ofNat 32 (header q)
      lastAf := BitVec.ofNat 32 (lastAfOf q)
      pktIndex := (inUnit s i cfg st n p).pktIndex + 1 } = inUnit s i cfg st' (n + 1) q := by
  have hindex : s.pktIndex + BitVec.ofNat 32 n + 1 = s.pktIndex + BitVec.ofNat 32 (n + 1) := by
    rw [BitVec.ofNat_add, ← BitVec.add_assoc]; rfl
  simp only [inUnit, List.set_set, hindex]

section
variable {s : State} {i : Nat} {c : Context} (hopen : Open s) (hi : i < 16) (hc : s.ctx[i]? = some c)
  (hpes : c.cfg.kind = .pes) (hafev : c.cfg.afev = false)
include hc

/-- A frame that is clean at the start is clean while the unit is in progress: the configurations stay. -/
theorem clean_inUnit {fr : List Byte} (hclean : Clean s i fr) (st : CtxState) (n : Nat) (p : List Byte) :
    Clean (inUnit s i c.cfg st n p) i fr := by
  obtain ⟨hlen, ⟨⟨c', hc', hclaims⟩, hlower⟩, herrs⟩ := hclean
  obtain rfl : c = c' := Option.some.inj (hc.symm.trans hc')
  refine ⟨hlen, ⟨⟨_, getElem?_set_of hc _, hclaims⟩, fun j hj d hd => hlower j hj d ?_⟩, herrs⟩
  rwa [inUnit, List.getElem?_set_ne (Nat.ne_of_gt hj)] at hd

include hopen hi hpes hafev

/-- The first start packet begins the unit with its header and the bytes after it. -/
theorem answers_firstHeader {fr : List Byte} (hclean : Clean s i fr) (hp : c.st.pending = false)
    (hpusi : pusiOf (packet fr) = true) (he : FittingHeader (payload (packet fr)))
    (hroom : ((payload (packet fr)).drop (9 + byte (payload (packet fr)) 8)).length ≤ s.params.bufBytes i) :
    Answers (.frame fr) s (inUnit s i c.cfg (headed s.pktIndex (payload (packet fr))
      ((payload (packet fr)).drop (9 + byte (payload (packet fr)) 8))) 1 (packet fr)) := by
  have hne : payload (packet fr) ≠ [] := fun h => by simpa [h] using he.length
  have hra := reassembles_of_payload (length_packet_of_clean hopen hclean) hne
  have hop := (afterClaim_pesStart hclean hc hpes hafev hpusi hra).trans
    (pesStart_first (s := claimState s (packet fr)) hc hpes hp he hroom)
  have hanswer := answers_quiet hopen hi hclean hop rfl rfl rfl rfl
  rw [quietResult_of_no_unit rfl] at hanswer
  exact hanswer

/-- A continuation adds its payload to the unit in progress. -/
theorem answers_pesContinuation {fr : List Byte} (hclean : Clean s i fr) (hpusi : pusiOf (packet fr) = false)
    {st : CtxState} (hp : st.pending = true)
    (hroom : (st.buf ++ payload (packet fr)).length ≤ s.params.bufBytes i) (n : Nat) (p : List Byte) :
    Answers (.frame fr) (inUnit s i c.cfg st n p)
      (inUnit s i c.cfg { st with buf := st.buf ++ payload (packet fr) } (n + 1) (packet fr)) := by
  have hclean' := clean_inUnit hc hclean st n p
  have hopen' : Open (inUnit s i c.cfg st n p) := hopen
  have hc' : (claimState (inUnit s i c.cfg st n p) (packet fr)).ctx[i]? = some _ := getElem?_set_of hc _
  have hop := (afterClaim_pesCont hclean' hc' hpes hafev (length_packet_of_clean hopen hclean) hpusi).trans
    (pesCont_of_fits hc' hp hroom)
  have hanswer := answers_quiet hopen' hi hclean' hop rfl rfl rfl rfl
  rw [quietResult_of_no_unit rfl] at hanswer
  exact hanswer.trans (congrArg Host.Outcome.next (inUnit_next s i c.cfg st _ n p (packet fr)))

/-- The next start packet emits the unit in progress. -/
theorem answers_nextHeader {fr : List Byte} (hclean : Clean s i fr) (hpusi : pusiOf (packet fr) = true)
    (hra : reassembles (packet fr) = true) {st : CtxState} (hp : st.pending = true) (n : Nat) (p : List Byte) :
    ∃ t, Answers (.frame fr) (inUnit s i c.cfg st n p) t ∧
      t.uq = s.uq ++ [closed i true st s.seq (s.pktIndex + BitVec.ofNat 32 n)] := by
  have hclean' := clean_inUnit hc hclean st n p
  have hopen' : Open (inUnit s i c.cfg st n p) := hopen
  have hc' : (claimState (inUnit s i c.cfg st n p) (packet fr)).ctx[i]? = some _ := getElem?_set_of hc _
  have hunit := pesStart_unit hc' hpes hp
  refine ⟨_, answers_claimed (accepts_of_clean hopen' hclean') hi (claim_of_claimedBy (claimedBy_of_clean hclean')), ?_⟩
  rw [afterClaim_pesStart hclean' hc' hpes hafev hpusi hra, claimedResult, hunit]; rfl

/-- Any number of continuations, one after the other. -/
theorem runFrames_pesConts (conts : List (List Byte)) : ∀ (st : CtxState) (n : Nat) (p : List Byte),
    (∀ fr ∈ conts, Clean s i fr) → (∀ fr ∈ conts, pusiOf (packet fr) = false) → st.pending = true →
    (st.buf ++ (conts.map (fun fr => payload (packet fr))).flatten).length ≤ s.params.bufBytes i →
    ∃ p', ∀ rest, runFrames (conts ++ rest) (inUnit s i c.cfg st n p) = runFrames rest (inUnit s i c.cfg
      { st with buf := st.buf ++ (conts.map (fun fr => payload (packet fr))).flatten } (n + conts.length) p') := by
  induction conts with
  | nil => exact fun st n p _ _ _ _ => ⟨p, fun rest => by simp⟩
  | cons fr conts ih =>
    intro st n p hclean hpusi hp hroom
    rw [List.map_cons, List.flatten_cons, ← List.append_assoc] at hroom ⊢
    have hroom' : (st.buf ++ payload (packet fr)).length ≤ s.params.bufBytes i := by
      rw [List.length_append] at hroom; omega
    have hcont := answers_pesContinuation hopen hi hc hpes hafev (hclean fr List.mem_cons_self)
      (hpusi fr List.mem_cons_self) hp hroom' n p
    obtain ⟨p', hrest⟩ := ih { st with buf := st.buf ++ payload (packet fr) } (n + 1) (packet fr)
      (fun fr' h => hclean fr' (List.mem_cons_of_mem _ h)) (fun fr' h => hpusi fr' (List.mem_cons_of_mem _ h)) hp hroom
    refine ⟨p', fun rest => ?_⟩
    rw [List.cons_append, runFrames_cons hcont, hrest, List.length_cons, Nat.add_assoc, Nat.add_comm 1]

end

/-- Settles O55: the first start packet begins the unit with its header, by induction the continuations add their
payloads to it and leave the header, and the next start packet emits it. -/
theorem pesUnitCarriesItsOwnHeader : Obligations.PesUnitCarriesItsOwnHeader := by
  intro s i c first last conts e hdl pdf data hs hopen hc hpes hafev hp hclean hconts hpusi₀ hpusi₁ hreaches hlen hcode
    hsid hfits hpts hdts hcap
  have hi := index_lt_of_inv hs hc
  have he : FittingHeader e := ⟨hlen, hcode, hsid, hfits, hpts, hdts⟩
  have hroom : (e.drop (9 + hdl)).length ≤ s.params.bufBytes i := by
    rw [List.length_append] at hcap; omega
  have hlast : Clean s i last := hclean last (by simp)
  have hfirst := answers_firstHeader hopen hi hc hpes hafev (hclean first (by simp)) hp hpusi₀ he hroom
  obtain ⟨p', hrest⟩ := runFrames_pesConts hopen hi hc hpes hafev conts (headed s.pktIndex e (e.drop (9 + hdl))) 1
    (packet first) (fun fr h => hclean fr (by simp [h])) hconts rfl hcap
  obtain ⟨t, hemit, huq⟩ := answers_nextHeader hopen hi hc hpes hafev hlast hpusi₁ (reassembles_of_clean hlast hreaches)
    (st := headed s.pktIndex e data) rfl (1 + conts.length) p'
  refine ⟨t, ?_, ?_⟩
  · rw [runFrames_cons hfirst, hrest]
    exact runFrames_cons hemit []
  · rw [huq, Nat.add_comm]; rfl

end Sys2Proof.Machine
end

section
/-! PROOFS. Register writes and commands: what each one stores, and that it changes nothing else (45_host_interface.md
R410 to R415, R420 to R424). -/

namespace Sys2Proof.Machine

open Sys2Proof.Claims

/-! ## The fields of a written word -/

theorem getLsbD_toNat {w : Nat} (x : BitVec w) (n : Nat) : (x.getLsbD n).toNat = x.toNat / 2 ^ n % 2 :=
  Nat.toNat_testBit x.toNat n

/-- The KIND that a written field stores, by its number (10_state.md R40). -/
theorem kindOfCode_eq (v : BitVec 2) :
    kindOfCode v = if v.toNat = 1 then .sec else if v.toNat = 2 then .pes else .none := by
  revert v; decide

/-- The PARSE that a written field stores, by its number (R40). -/
theorem parse_ofCode_eq (v : BitVec 2) :
    Parse.ofCode v = if v.toNat = 1 then .pat else if v.toNat = 2 then .pmt else .none := by
  revert v; decide

/-- The FRAME_SIZE that a written field stores, by its number (R38). -/
theorem frameSize_ofCode_eq (old : FrameSize) (v : BitVec 2) :
    FrameSize.ofCode old v =
      if v.toNat = 0 then .b188 else if v.toNat = 1 then .b192 else if v.toNat = 2 then .b204 else old := by
  revert v; cases old <;> decide

/-- A stored KIND reads back as written, but for 3. -/
theorem kindCode_kindOfCode (v : BitVec 2) : (kindCode (kindOfCode v)).toNat = if v.toNat = 3 then 0 else v.toNat := by
  revert v; decide

/-- A stored PARSE reads back as written, but for 3. -/
theorem code_parse_ofCode (v : BitVec 2) : (Parse.ofCode v).code.toNat = if v.toNat = 3 then 0 else v.toNat := by
  revert v; decide

/-! ## WR_CTX_CFG (R411) -/

/-- A stored configuration reads back as written: its named bits, KIND and PARSE 3 as 0. -/
theorem ctxCfgWord_ctxCfgOf (d : Word) :
    (ctxCfgWord (ctxCfgOf d)).toNat =
      d.toNat % 2 + (if d.toNat / 2 % 4 = 3 then 0 else d.toNat / 2 % 4) * 2
        + (if d.toNat / 8 % 4 = 3 then 0 else d.toNat / 8 % 4) * 8 + d.toNat / 32 % 2 * 32
        + d.toNat / 65536 % 8192 * 65536 := by
  rw [ctxCfgWord_toNat]
  simp only [ctxCfgOf, getLsbD_toNat, kindCode_kindOfCode, code_parse_ofCode, toNat_field, Nat.reducePow]
  omega

/-- Settles O19: the context holds the decoded configuration with a reset reassembly state, and its register reads the
fields back. -/
theorem contextWriteResult : Obligations.ContextWriteResult := by
  intro s i c d hs hc
  obtain ⟨-, hctx, -⟩ := hs.legal
  have hi : i < s.params.nCtx := hs.contexts ▸ (List.getElem?_eq_some_iff.mp hc).1
  refine ⟨ctxCfgOf d, execWrCtxCfg_of hc d, ?en, ?kind, ?parse, ?afev, ?pid, ?read⟩
  case en => exact (getLsbD_eq_beq d 0).trans (by simp)
  case kind => exact (kindOfCode_eq _).trans (by simp only [toNat_field, Nat.reducePow])
  case parse => exact (parse_ofCode_eq _).trans (by simp only [toNat_field, Nat.reducePow])
  case afev => exact getLsbD_eq_beq d 5
  case pid => exact toNat_field d 16 13
  case read =>
    have hstored : ctxAt { s with ctx := s.ctx.set i ⟨ctxCfgOf d, .reset⟩ } i = ⟨ctxCfgOf d, .reset⟩ :=
      ctxAt_of (getElem?_set_of hc _)
    refine reads_of (regOf_ctxCfg hctx hi) ?_
    rw [regValue, hstored, ctxCfgWord_ctxCfgOf]

/-! ## CMD (R420 to R424) -/

theorem execAll_append_of_next {is : List Instr} {s t : State} (h : execAll is s = .next t) (js : List Instr) :
    execAll (is ++ js) s = execAll js t := by
  induction is generalizing s with
  | nil => cases h; rfl
  | cons i rest ih =>
    simp only [execAll] at h
    split at h
    next u hu => exact (execAll_cons_of_next hu _).trans (ih h)
    all_goals cases h

/-- A command that its bit selects. -/
theorem execAll_selected {i : Instr} {s t : State} (h : exec i s = .next t) (b : Bool) :
    execAll (if b then [i] else []) s = .next (if b then t else s) := by
  cases b
  · rfl
  · exact (execAll_singleton i s).trans h

theorem perform_cmd (s : State) (d : Word) :
    perform (.host (hostWrite 0x008#12 d)) s = execAll (decodeCmd 0x008#12 d) s := perform_write s 0x008#12 d

/-- The commands of bits 1 to 3, each performed when it is selected, in the order of `decodeCmd`. -/
def commanded (clr ev unit : Bool) (s : State) : State :=
  let s := if clr then clearTables s else s
  let s := if ev then popEvent s else s
  if unit then popUnit s else s

/-- The commands write different fields. -/
theorem commanded_eq (clr ev unit : Bool) (s : State) : commanded clr ev unit s = { s with
    pat := if clr then .empty else s.pat
    pmt := if clr then .empty else s.pmt
    evq := if ev then s.evq.drop 1 else s.evq
    uq := if unit then s.uq.drop 1 else s.uq
    unitRdptr := if unit then 0 else s.unitRdptr } := by
  simp only [List.drop_one]
  cases clr <;> cases ev <;> cases unit <;> rfl

/-- Without bit 0 the commands of bits 1 to 3 are performed; with none of them set the write is ignored, which is
performing none. -/
theorem execAll_decodeCmd {d : Word} (h : d.getLsbD 0 = false) (a : Addr) (s : State) :
    execAll (decodeCmd a d) s = .next (commanded (d.getLsbD 1) (d.getLsbD 2) (d.getLsbD 3) s) := by
  by_cases hnone : d.extractLsb' 0 4 = 0#4
  · obtain ⟨-, hclr, hev, hunit⟩ := no_command_iff.mp hnone
    rw [decodeCmd, h, if_neg Bool.false_ne_true, if_pos hnone, hclr, hev, hunit]; rfl
  · rw [decodeCmd, h, if_neg Bool.false_ne_true, if_neg hnone, List.append_assoc,
      execAll_append_of_next (execAll_selected rfl _), execAll_append_of_next (execAll_selected rfl _),
      execAll_selected rfl]
    rfl

/-- Settles O25: bit 0 selects the reset transaction alone, and without it the commands of bits 1 to 3 write different
fields. -/
theorem commandWritePerformsItsBits : Obligations.CommandWritePerformsItsBits := by
  intro s d
  refine ⟨fun h => ?reset, fun h => ?commands, reads_of (r := .cmd) rfl rfl⟩
  case reset =>
    have hbit : d.getLsbD 0 = true := (getLsbD_eq_beq d 0).trans (by simpa using h)
    rw [perform_cmd, decodeCmd, if_pos hbit, execAll_singleton]; rfl
  case commands =>
    have hbit : d.getLsbD 0 = false := (getLsbD_eq_beq d 0).trans (by simp [h])
    rw [perform_cmd, execAll_decodeCmd hbit, commanded_eq]
    simp only [getLsbD_eq_beq, beq_iff_eq, Nat.reducePow]

/-- Settles O23: the head is removed, and an empty queue has no head. -/
theorem eventPopRemovesTheHead : Obligations.EventPopRemovesTheHead := by
  intro s
  have hpop {es : List EvRec} (h : s.evq.tail = es) : Answers .cmdEvPop s { s with evq := es } := by rw [← h]; rfl
  exact ⟨fun h => hpop (by rw [h, List.tail_nil]), fun e es h => hpop (by rw [h, List.tail_cons])⟩

/-- The registers of the two tables. -/
def Reg.isTable : Reg → Bool
  | .patH0 | .patH1 | .patCount | .pmtH0 | .pmtH1 | .pmtH2 | .pmtEsCount | .patEntry _ | .pmtEsA _ | .pmtEsB _ => true
  | _ => false

theorem tableReg_isTable {n : Nat} (h : n < 8) : (tableReg n).all Reg.isTable = true := by
  revert n; decide

/-- The offsets from 0x200 on hold the registers of the tables only (10_state.md R36). -/
theorem regOf_isTable {p : Params} {a : Addr} (hctx : p.nCtx ≤ 16) (ha : 0x080 ≤ a.word) :
    (regOf p a).all Reg.isTable = true := by
  unfold regOf
  generalize a.word = n at ha
  simp (disch := omega) only [if_neg]
  split_ifs with htable
  · exact tableReg_isTable (by omega)
  all_goals rfl

theorem regValue_clearTables (s : State) {r : Reg} (h : r.isTable = true) : regValue (clearTables s) r = 0 := by
  cases r with
  | patH0 | patH1 | patCount | pmtH0 | pmtH1 | pmtH2 | pmtEsCount => simp only [regValue, clearTables]; decide
  | patEntry | pmtEsA | pmtEsB => rfl
  | _ => cases h

theorem readReg_clearTables {s : State} {a : Addr} (hctx : s.params.nCtx ≤ 16) (ha : 0x080 ≤ a.word) :
    readReg (clearTables s) a = 0 := by
  have htable : (regOf (clearTables s).params a).all Reg.isTable = true := regOf_isTable hctx ha
  unfold readReg
  cases hr : regOf (clearTables s).params a with
  | none => rfl
  | some r => rw [hr] at htable; exact regValue_clearTables s htable

/-- Settles O24: from 0x200 on there are only the registers of the tables, and those of empty ones read 0. -/
theorem clearTablesEmptiesBothTables : Obligations.ClearTablesEmptiesBothTables := by
  refine fun s => ⟨clearTables s, rfl, rfl, fun hlegal a ha => ⟨readReg (clearTables s) _, rfl, ?_⟩⟩
  obtain ⟨-, hctx, -⟩ := hlegal
  have hword : 0x080 ≤ a.word := (Nat.le_div_iff_mul_le (by decide)).mpr ha
  rw [BitVec.ofNat_toNat, BitVec.setWidth_eq, readReg_clearTables hctx hword]; rfl

/-! ## The single registers (R410, R412, R413, R415) -/

theorem ctrlWrite_en (c : Ctrl) (d : Word) : (ctrlWrite c d).en = (d.toNat % 2 == 1) :=
  (getLsbD_eq_beq d 0).trans (by simp)

theorem ctrlWrite_frameSize (c : Ctrl) (d : Word) : (ctrlWrite c d).frameSize =
    if c.en then c.frameSize
    else if d.toNat / 2 % 4 = 0 then .b188
    else if d.toNat / 2 % 4 = 1 then .b192
    else if d.toNat / 2 % 4 = 2 then .b204
    else c.frameSize := by
  simp only [ctrlWrite, frameSize_ofCode_eq, toNat_field, Nat.reducePow]

/-- Settles O18: FRAME_SIZE keeps its value under EN and against a 3, and takes the other three values. -/
theorem ctrlWriteResult : Obligations.CtrlWriteResult := by
  intro s d
  refine ⟨(ctrlWrite s.ctrl d).frameSize, ?answers, ?kept, ?b188, ?b192, ?b204, ?read⟩
  case answers => rw [← ctrlWrite_en s.ctrl]; rfl
  case read =>
    refine reads_of (r := .ctrl) rfl ((ctrlWord_toNat s.ctrl).trans ?_)
    cases s.ctrl.frameSize <;> rfl
  all_goals rw [ctrlWrite_frameSize]
  case kept =>
    rintro (hen | h3)
    · simp [hen]
    · simp [h3]
  case b188 | b192 | b204 => intro hen hsize; simp [hen, hsize]

/-- Settles O20: the stored field is the number's low three bits. -/
theorem irqEnableWriteResult : Obligations.IrqEnableWriteResult := by
  intro s d
  have hfield : d.extractLsb' 0 3 = BitVec.ofNat 3 (d.toNat % 8) := eq_ofNat_of_toNat (by simp)
  refine ⟨by rw [← hfield]; rfl, reads_of (r := .irqEn) rfl ?_⟩
  exact (toNat_append_mul 0#29 (BitVec.ofNat 3 (d.toNat % 8))).trans (by simp)

/-- Settles O21: a bit stays where the data has no 1. -/
theorem errorStatusWriteClears : Obligations.ErrorStatusWriteClears := by
  intro s d
  refine ⟨(clearErrors d s).errStatus, rfl, fun n hn => by simp [clearErrors, hn], reads_of (r := .errStatus) rfl ?_⟩
  exact (toNat_append_mul 0#25 (clearErrors d s).errStatus).trans (by simp)

/-- Settles O22: WR_IGNORED answers its own state, and no row of the table matches such a write. -/
theorem ignoredWriteChangesNothing : Obligations.IgnoredWriteChangesNothing := by
  refine fun s a d => ⟨rfl, fun hsingle hctx => ?_⟩
  have hrow : writeHasRow s.params.nCtx a d = false := by
    rw [writeHasRow_eq_false_iff, Addr.word]
    simp only [List.mem_cons, List.not_mem_nil, or_false, not_or] at hsingle
    refine ⟨by omega, by omega, by omega, by omega, by omega, fun ⟨hge, hlt⟩ => ?_⟩
    exact hctx (a.toNat / 4 - 0x040) (by omega) (by omega)
  rw [perform_write, decodeWrite_of_no_row hrow, execAll_singleton]; rfl

end Sys2Proof.Machine
end

section
/-! PROOFS. The interrupt output and IRQ_STATUS (60_exceptions.md R520, 10_state.md R42). -/

namespace Sys2Proof.Machine

open Sys2Proof.Claims

/-- The level, each queue's condition as the queue being non-empty. -/
theorem irq_eq (s : State) :
    irq s = ((s.irqEn.getLsbD 0 && decide (s.evq ≠ [])) || (s.irqEn.getLsbD 1 && decide (s.uq ≠ []))
      || (s.irqEn.getLsbD 2 && decide (s.errStatus ≠ 0#7))) := by
  simp only [irq, List.length_pos_iff, bne, beq_eq_decide, ne_eq, decide_not]

/-- The reset transaction empties both queues and ERR_STATUS, so the output is low. -/
theorem irq_resetBlock (s : State) : irq (resetBlock s) = false := by simp [irq, resetBlock]

/-- Settles O11: the level is `irq_eq`, the register's word holds the same three conditions and the level, and the
reset answers `resetBlock`. -/
theorem interruptLevelAndStatus : Obligations.InterruptLevelAndStatus := by
  refine fun s => ⟨irq_eq s, reads_of (r := .irqStatus) rfl ?word, fun t h => ?reset⟩
  case word =>
    refine (irqStatusWord_toNat s).trans ?_
    simp only [List.length_pos_iff, bne, beq_eq_decide, ne_eq, decide_not]
  case reset => cases h; exact irq_resetBlock s

end Sys2Proof.Machine
end

section
/-! PROOFS. The reset: RESET and SOFT_RESET are one transaction, what every register reads right after it, and its state
as the first sound one (70_reset_and_hazards.md R600, R601). -/

namespace Sys2Proof.Machine

open Sys2Proof.Claims

/-- The reset input and the host's command perform the same transaction (R421, R600). -/
theorem answers_resetBlock {op : Instr} (h : op ∈ [Instr.reset, .cmdSoftReset]) (s : State) :
    Answers op s (resetBlock s) := by
  obtain rfl | rfl : op = .reset ∨ op = .cmdSoftReset := by simpa using h
  · rfl
  · rfl

/-! ## What the registers read right after a reset -/

/-- The registers that do not read 0 right after a reset: the constants (10_state.md R37), and STATUS, whose HOLD bit
is set because EN is not (R601). -/
def Reg.nonzeroAfterReset : Reg → Bool
  | .id | .status | .params | .params2 => true
  | _ => false

@[simp] theorem ctxAt_resetBlock (s : State) (i : Nat) : ctxAt (resetBlock s) i = .reset := by
  simp [ctxAt, resetBlock]

/-- The table registers read 0 because the reset has also cleared the tables. -/
theorem regValue_resetBlock (s : State) {r : Reg} (h : r.nonzeroAfterReset = false) :
    regValue (resetBlock s) r = 0 := by
  have htable (hr : r.isTable = true) : regValue (resetBlock s) r = 0 := regValue_clearTables (resetBlock s) hr
  cases r with
  | id | status | params | params2 => cases h
  | ctrl | irqEn | errStatus | unitRdptr => simp only [regValue, resetBlock]; decide
  | irqStatus => rw [regValue, irqStatusWord, irq_resetBlock]; simp [resetBlock, bit]
  | ctxCfg | ctxStat => rw [regValue, ctxAt_resetBlock]; rfl
  | patH0 | patH1 | patCount | pmtH0 | pmtH1 | pmtH2 | pmtEsCount | patEntry | pmtEsA | pmtEsB => exact htable rfl
  | _ => rfl

/-- A selected register is as required when it is so in both branches of the map. -/
theorem all_ite {q : Reg → Bool} {c : Prop} [Decidable c] {x y : Option Reg} (hx : c → x.all q = true)
    (hy : ¬ c → y.all q = true) : (if c then x else y).all q = true := by
  split
  · exact hx ‹_›
  · exact hy ‹_›

theorem lowReg_nonzeroAfterReset {n : Nat} (hlow : n < 0x010) (hn : n ∉ [0x000, 0x003, 0x00B, 0x00C]) :
    (lowReg n).all (!·.nonzeroAfterReset) = true := by
  revert n; decide

theorem tableReg_nonzeroAfterReset {n : Nat} (h : n < 8) : (tableReg n).all (!·.nonzeroAfterReset) = true := by
  revert n; decide

/-- The word offsets of ID, STATUS, PARAMS and PARAMS2 are the only ones of such a register (10_state.md R36). -/
theorem regOf_nonzeroAfterReset (p : Params) {a : Addr} (h : a.word ∉ [0x000, 0x003, 0x00B, 0x00C]) :
    (regOf p a).all (!·.nonzeroAfterReset) = true := by
  unfold regOf
  refine all_ite (fun hlow => lowReg_nonzeroAfterReset hlow h) fun _ => ?_
  iterate 6 refine all_ite (fun _ => rfl) fun _ => ?_
  refine all_ite (fun htable => tableReg_nonzeroAfterReset (by omega)) fun _ => ?_
  exact all_ite (fun _ => rfl) fun _ => all_ite (fun _ => all_ite (fun _ => rfl) fun _ => rfl) fun _ => rfl

theorem readReg_resetBlock (s : State) {a : Addr} (h : a.word ∉ [0x000, 0x003, 0x00B, 0x00C]) :
    readReg (resetBlock s) a = 0 := by
  have hzero := regOf_nonzeroAfterReset (resetBlock s).params h
  unfold readReg
  cases hr : regOf (resetBlock s).params a with
  | none => rfl
  | some r => exact regValue_resetBlock s (by simpa [hr] using hzero)

/-! ## The obligations -/

/-- Settles O26: both operations answer `resetBlock`, which holds the reset values by its definition; STATUS is read as
O10 says, and every register but the four reads 0. -/
theorem resetLeavesTheResetValues : Obligations.ResetLeavesTheResetValues := by
  intro s
  refine ⟨resetBlock s, answers_resetBlock (by simp) s, answers_resetBlock (by simp) s, rfl, rfl, rfl, rfl, rfl, rfl,
    rfl, rfl, rfl, rfl, rfl, rfl, rfl, rfl, rfl, irq_resetBlock s, fun _ => ⟨?status, fun a ha => ?others⟩⟩
  case status => exact statusReadsQueuesAndHold.2 s _ rfl
  case others =>
    have hword : a.word ∉ [0x000, 0x003, 0x00B, 0x00C] := fun h => ha (List.mem_map_of_mem (f := (· * 4)) h)
    refine ⟨readReg (resetBlock s) _, rfl, ?_⟩
    rw [BitVec.ofNat_toNat, BitVec.setWidth_eq, readReg_resetBlock s hword]; rfl

/-- Settles O27: the reset transaction copies the agents' side and leaves no transaction in progress. -/
theorem resetLeavesTheAgentsSide : Obligations.ResetLeavesTheAgentsSide :=
  fun s _ hop => ⟨resetBlock s, answers_resetBlock hop s, rfl, rfl, rfl, rfl⟩

/-- Settles O56: the reference parameters are legal, the contexts at their reset state, and queues and tables empty. -/
theorem resetIsSound : Obligations.ResetIsSound where
  legal := by decide
  contexts := rfl
  sound := by
    intro i c hc
    obtain rfl : c = .reset := List.eq_of_mem_replicate (List.mem_of_getElem? hc)
    exact CtxState.sound_reset _
  events := Nat.zero_le _
  units := Nat.zero_le _
  unitBytes := List.forall_mem_nil _
  patStored := (PatTable.sound_empty _).1
  patTrunc := (PatTable.sound_empty _).2
  pmtStored := (soundEs_nil _).1
  pmtPids := (soundEs_nil State.reset.params.pmtEsMax).2
  lastAf := by decide
  idle := rfl
  ports := fun _ => List.not_mem_nil

end Sys2Proof.Machine
end
